-- ==== Sys2Proof/Word.lean ====
section
/-! DEFINITION. The words of CSR-CORE: all command, operand and result words and all buffer slots are
32 bits (`00_scope.md` R9, `20_memory.md` R73); a sample rate is one binary64 word (`20_memory.md` R73). -/

namespace Sys2Proof

/-- A 32-bit word: a `uint32` or a binary32 pattern (`00_scope.md` R11). -/
abbrev Word := BitVec 32

/-- A 64-bit word: a binary64 pattern (`00_scope.md` R11). -/
abbrev Word64 := BitVec 64

/-- An 8-bit field or register (`30_encoding.md` R92, `10_state.md` R33). -/
abbrev Byte := BitVec 8

end Sys2Proof
end

