-- ==== Sys2Proof/Config.lean ====
section
/-! DEFINITION. The synthesis parameters of `00_scope.md` R7, which do not change after synthesis
(`10_state.md` R57), with the default values that R7 gives. The one parameter that is a function, the sine generator SINTURN, is named by data
(`SineChoice`), so that a configuration is plain data. The number of units of a kind is the length of that kind's list. The
free values of the model stand here too, as opaque constants. -/

namespace Sys2Proof

/-- The three values of `AP_FORM` (`43_allpass.md` R156, R157, R162). -/
inductive ApForm where
  | outFirst
  | inFirst
  | asWritten
deriving DecidableEq, Repr

/-- `RAMP_TC_MS[u]` (`00_scope.md` R7). -/
structure RampParams where
  tcMs : Word
deriving DecidableEq, Repr

/-- `DL_DEPTH[u]` (`00_scope.md` R7). -/
structure DLParams where
  depth : Nat
deriving DecidableEq, Repr

/-- `AP_DEPTH[u]`, `AP_GMAX[u]`, `AP_FORM[u]` (`00_scope.md` R7). -/
structure APParams where
  depth : Nat
  gmax : Word
  form : ApForm
deriving DecidableEq, Repr

/-- `LI_TC_MS[u]` (`00_scope.md` R7). -/
structure LIParams where
  tcMs : Word
deriving DecidableEq, Repr

/-- `LFO_DEPTH_TC_MS[u]`, `LFO_OFFSET_TC_MS[u]` (`00_scope.md` R7). -/
structure LFOParams where
  depthTcMs : Word
  offsetTcMs : Word
deriving DecidableEq, Repr

/-- `GPS_DEPTH[u]` (`00_scope.md` R7). -/
structure GPSParams where
  depth : Nat
deriving DecidableEq, Repr

/-- Which `SINTURN` an implementation was synthesized with (`00_scope.md` R7, `93_implementation_defined.md` U7): one of
the generators that the spec leaves open, by number (log 7), or the one instance that U7 states, the correctly rounded
sine. -/
inductive SineChoice where
  | free (n : Nat)
  | rounded
deriving DecidableEq, Repr

/-- The parameters of one implementation (`00_scope.md` R7). `N_RAMP` is the length of `ramp`, and so on. -/
structure Config where
  ramp : List RampParams
  dl : List DLParams
  ap : List APParams
  li : List LIParams
  lfo : List LFOParams
  gps : List GPSParams
  /-- `FS_MAX`, the largest sample rate a unit stores. -/
  fsMax : Rat
  /-- `SINTURN`, the sine generator. -/
  sine : SineChoice
  /-- `SIN_TOL`, the largest absolute error of `SINTURN`. -/
  sinTol : Rat
deriving DecidableEq, Repr

/-- The defaults of `00_scope.md` R7, the values the test vectors use. -/
def Config.default : Config where
  ramp := List.replicate 4 ⟨0x41200000#32⟩
  dl := List.replicate 4 ⟨65536⟩
  ap := List.replicate 4 ⟨65536, 0x3F733333#32, .outFirst⟩
  li := List.replicate 2 ⟨0x41200000#32⟩
  lfo := List.replicate 1 ⟨0x41200000#32, 0x41200000#32⟩
  gps := List.replicate 2 ⟨262144⟩
  fsMax := mkRat 768000 1
  sine := .free 0
  sinTol := mkRat 1 (2 ^ 20)

/-- The value of generator `n` at a phase of `p` / 2^32 turn: a free value (`45_lfo.md` R181, log 7).
`Machine.sinturn` holds it to the properties that R181 gives every implementation. -/
opaque Config.sinturnRaw (n : Nat) (p : Word) : Word

/-- What slot `i` of channel `c` holds in the buffer contents number `n` that a reset leaves: a free value
(`70_reset_and_hazards.md` R242, log 4). -/
opaque Config.unspecifiedWord (n c i : Nat) : Word

end Sys2Proof
end

