-- ==== Sys2Proof/Syntax.lean ====
section
/-! DEFINITION. The 35 commands of CSR-CORE, one constructor for each row of the opcode map
(`30_encoding.md` R97). A constructor's arguments are the fields and data words the row names, in the
order unit, ch, F, d0..d3; the two data words of a sample rate are one binary64 operand `d1 :: d0` (R94). -/

namespace Sys2Proof

/-- The waveform an LFO plays: the 1-bit `typ` of `10_state.md` R48, 0 sine, 1 triangle. -/
inductive Waveform where
  | sine
  | triangle
deriving DecidableEq, Repr

/-- The four fault codes of `60_exceptions.md` R221. A fault is a response, not a stop. -/
inductive FaultCode where
  /-- `op` is none of the 35 opcodes (R224). -/
  | illegalOp
  /-- a must-be-zero bit of the command's format is 1 (R225). -/
  | reservedField
  /-- `unit` is not below the instance count of the command's kind (R226). -/
  | badUnit
  /-- the command needs a prepared unit and the unit is not prepared (R227). -/
  | unprepared
deriving DecidableEq, Repr

/-- The commands of `30_encoding.md` R97. -/
inductive Instr where
  | nop
  | sysStatus
  | rampPrepare (unit : Nat) (fs : Word64)
  | rampSetTarget (unit : Nat) (force : Bool) (value : Word)
  | rampGetNext (unit : Nat)
  | rampApplyGain (unit ch : Nat) (in0 in1 : Word)
  | rampApplySum (unit ch : Nat) (in0 in1 : Word)
  | dlPrepare (unit ch : Nat) (maxDelaySamples : Word)
  | dlSetDelay (unit : Nat) (n : Word)
  | dlClear (unit : Nat)
  | dlProcess (unit ch : Nat) (in0 in1 : Word)
  | dlProcessMod (unit ch : Nat) (in0 in1 mod0 mod1 : Word)
  | dlGetSample (unit ch : Nat) (indexBack : Word)
  | apPrepare (unit ch : Nat) (fs : Word64) (maxDelaySamples : Word)
  | apSetCoeff (unit : Nat) (coeff : Word)
  | apSetDelayTime (unit : Nat) (ms : Word)
  | apClear (unit : Nat)
  | apProcess (unit ch : Nat) (in0 in1 : Word)
  | apProcessMod (unit ch : Nat) (in0 in1 mod0 mod1 : Word)
  | apGetSample (unit ch : Nat) (indexBack : Word)
  | liPrepare (unit ch : Nat) (fs : Word64)
  | liSetCoeff (unit : Nat) (force : Bool) (c : Word)
  | liClear (unit : Nat)
  | liProcess (unit ch : Nat) (in0 in1 : Word)
  | lfoPrepare (unit : Nat) (fs : Word64)
  | lfoSetType (unit : Nat) (typ : Waveform)
  | lfoSetFreq (unit : Nat) (hertz : Word)
  | lfoSetDepth (unit : Nat) (force : Bool) (ms : Word)
  | lfoSetOffset (unit : Nat) (force : Bool) (ms : Word)
  | lfoClear (unit : Nat)
  | lfoNext (unit ch : Nat)
  | gpsPrepare (unit ch : Nat) (fs : Word64) (grainMs : Word)
  | gpsSetPitchRatio (unit : Nat) (ratio : Word)
  | gpsClear (unit : Nat)
  | gpsProcess (unit ch : Nat) (in0 in1 : Word)
deriving DecidableEq, Repr

/-- The six unit kinds of `30_encoding.md` R96. -/
inductive Kind where
  | ramp
  | dl
  | ap
  | li
  | lfo
  | gps
deriving DecidableEq, Repr

/-- The unit a command addresses: its kind (`op[7:4]`, `30_encoding.md` R96) and its `unit` field; none for
the two system commands. -/
def Instr.target : Instr → Option (Kind × Nat)
  | .nop => none
  | .sysStatus => none
  | .rampPrepare u _ => some (.ramp, u)
  | .rampSetTarget u _ _ => some (.ramp, u)
  | .rampGetNext u => some (.ramp, u)
  | .rampApplyGain u _ _ _ => some (.ramp, u)
  | .rampApplySum u _ _ _ => some (.ramp, u)
  | .dlPrepare u _ _ => some (.dl, u)
  | .dlSetDelay u _ => some (.dl, u)
  | .dlClear u => some (.dl, u)
  | .dlProcess u _ _ _ => some (.dl, u)
  | .dlProcessMod u _ _ _ _ _ => some (.dl, u)
  | .dlGetSample u _ _ => some (.dl, u)
  | .apPrepare u _ _ _ => some (.ap, u)
  | .apSetCoeff u _ => some (.ap, u)
  | .apSetDelayTime u _ => some (.ap, u)
  | .apClear u => some (.ap, u)
  | .apProcess u _ _ _ => some (.ap, u)
  | .apProcessMod u _ _ _ _ _ => some (.ap, u)
  | .apGetSample u _ _ => some (.ap, u)
  | .liPrepare u _ _ => some (.li, u)
  | .liSetCoeff u _ _ => some (.li, u)
  | .liClear u => some (.li, u)
  | .liProcess u _ _ _ => some (.li, u)
  | .lfoPrepare u _ => some (.lfo, u)
  | .lfoSetType u _ => some (.lfo, u)
  | .lfoSetFreq u _ => some (.lfo, u)
  | .lfoSetDepth u _ _ => some (.lfo, u)
  | .lfoSetOffset u _ _ => some (.lfo, u)
  | .lfoClear u => some (.lfo, u)
  | .lfoNext u _ => some (.lfo, u)
  | .gpsPrepare u _ _ _ => some (.gps, u)
  | .gpsSetPitchRatio u _ => some (.gps, u)
  | .gpsClear u => some (.gps, u)
  | .gpsProcess u _ _ _ => some (.gps, u)

/-- The column P of `30_encoding.md` R97: the command needs a prepared unit. -/
def Instr.needsPrepared : Instr → Bool
  | .rampGetNext _ | .rampApplyGain .. | .rampApplySum .. => true
  | .dlClear _ | .dlProcess .. | .dlProcessMod .. | .dlGetSample .. => true
  | .apClear _ | .apProcess .. | .apProcessMod .. | .apGetSample .. => true
  | .liClear _ | .liProcess .. => true
  | .lfoClear _ | .lfoNext .. => true
  | .gpsClear _ | .gpsProcess .. => true
  | .nop | .sysStatus => false
  | .rampPrepare .. | .rampSetTarget .. => false
  | .dlPrepare .. | .dlSetDelay .. => false
  | .apPrepare .. | .apSetCoeff .. | .apSetDelayTime .. => false
  | .liPrepare .. | .liSetCoeff .. => false
  | .lfoPrepare .. | .lfoSetType .. | .lfoSetFreq .. | .lfoSetDepth .. | .lfoSetOffset .. => false
  | .gpsPrepare .. | .gpsSetPitchRatio .. => false

/-- The `ch` field of a format `C` command (`30_encoding.md` R93, R97). -/
def Instr.channel : Instr → Option Nat
  | .rampApplyGain _ ch _ _ | .rampApplySum _ ch _ _ => some ch
  | .dlPrepare _ ch _ | .dlProcess _ ch _ _ | .dlProcessMod _ ch _ _ _ _ | .dlGetSample _ ch _ => some ch
  | .apPrepare _ ch _ _ | .apProcess _ ch _ _ | .apProcessMod _ ch _ _ _ _ | .apGetSample _ ch _ => some ch
  | .liPrepare _ ch _ | .liProcess _ ch _ _ => some ch
  | .lfoNext _ ch => some ch
  | .gpsPrepare _ ch _ _ | .gpsProcess _ ch _ _ => some ch
  | .nop | .sysStatus => none
  | .rampPrepare .. | .rampSetTarget .. | .rampGetNext _ => none
  | .dlSetDelay .. | .dlClear _ => none
  | .apSetCoeff .. | .apSetDelayTime .. | .apClear _ => none
  | .liSetCoeff .. | .liClear _ => none
  | .lfoPrepare .. | .lfoSetType .. | .lfoSetFreq .. | .lfoSetDepth .. | .lfoSetOffset .. | .lfoClear _ => none
  | .gpsSetPitchRatio .. | .gpsClear _ => none

end Sys2Proof
end

