-- ==== Sys2Proof/WellFormed.lean ====
section
/-! DEFINITION. What makes a command expressible: its unit index and its channel field fit their 8-bit fields
(`30_encoding.md` R92). Every value of the data words is legal (R100), so nothing else is checked. -/

namespace Sys2Proof

/-- The unit index fits `cmd_word[23:16]` (`30_encoding.md` R92). -/
def Instr.unitFits (i : Instr) : Bool :=
  match i.target with
  | some (_, u) => u < 256
  | none => true

/-- The channel field fits `cmd_word[15:8]` (`30_encoding.md` R92). -/
def Instr.channelFits (i : Instr) : Bool :=
  match i.channel with
  | some ch => ch < 256
  | none => true

/-- A command that a packet can spell. -/
def Instr.wellFormed (i : Instr) : Bool := i.unitFits && i.channelFits

end Sys2Proof
end

