-- ==== Sys2Proof/Decode.lean ====
section
/-! DEFINITION. Command packets, the decoder and the encoder (`30_encoding.md` R91 to R101). The decoder is
total and rejects by the name of the fault; `encode` writes the packet of a command from the same table. -/

namespace Sys2Proof

/-- The five words of one acceptance (`30_encoding.md` R91). -/
structure Packet where
  word : Word
  d0 : Word := 0#32
  d1 : Word := 0#32
  d2 : Word := 0#32
  d3 : Word := 0#32
deriving DecidableEq, Repr

/-- The four formats of `30_encoding.md` R93. -/
inductive Format where
  | s
  | n
  | c
  | f
deriving DecidableEq, Repr

/-- The must-be-zero mask of a format over `cmd_word` (`30_encoding.md` R93). -/
def Format.mbz : Format → Word
  | .s => 0x00FFFFFF#32
  | .n => 0x0000FFFF#32
  | .c => 0x000000FF#32
  | .f => 0x0000FFFE#32

/-- `op`, `cmd_word[31:24]` (`30_encoding.md` R92). -/
def Packet.op (p : Packet) : Byte := p.word.extractLsb' 24 8

/-- `unit`, `cmd_word[23:16]` (`30_encoding.md` R92). -/
def Packet.unit (p : Packet) : Nat := (p.word.extractLsb' 16 8).toNat

/-- `ch`, `cmd_word[15:8]` (`30_encoding.md` R92). -/
def Packet.ch (p : Packet) : Nat := (p.word.extractLsb' 8 8).toNat

/-- `F`, `cmd_word[0]` (`30_encoding.md` R92). -/
def Packet.flag (p : Packet) : Bool := p.word.getLsbD 0

/-- The `f64` operand of a PREPARE command, `d1 :: d0` (`30_encoding.md` R94). -/
def Packet.fs (p : Packet) : Word64 := p.d1 ++ p.d0

/-- The waveform named by `flags[0]` of `LFO_SET_TYPE` (`45_lfo.md` R183). -/
def Waveform.ofFlag (f : Bool) : Waveform := if f then .triangle else .sine

/-- The value of `flags[0]` that names a waveform (`45_lfo.md` R183). -/
def Waveform.toFlag : Waveform → Bool
  | .sine => false
  | .triangle => true

/-- One row of the opcode map: the `op` byte, the format, and the command a packet of the row spells. -/
structure OpRow where
  op : Byte
  fmt : Format
  build : Packet → Instr

/-- The opcode map of `30_encoding.md` R97, system and Ramp rows. -/
def opRowsSysRamp : List OpRow :=
  [ ⟨0x00#8, .s, fun _ => .nop⟩,
    ⟨0x01#8, .s, fun _ => .sysStatus⟩,
    ⟨0x10#8, .n, fun p => .rampPrepare p.unit p.fs⟩,
    ⟨0x11#8, .f, fun p => .rampSetTarget p.unit p.flag p.d0⟩,
    ⟨0x12#8, .n, fun p => .rampGetNext p.unit⟩,
    ⟨0x13#8, .c, fun p => .rampApplyGain p.unit p.ch p.d0 p.d1⟩,
    ⟨0x14#8, .c, fun p => .rampApplySum p.unit p.ch p.d0 p.d1⟩ ]

/-- The opcode map of `30_encoding.md` R97, DelayLine and AllPass rows. -/
def opRowsDelay : List OpRow :=
  [ ⟨0x20#8, .c, fun p => .dlPrepare p.unit p.ch p.d0⟩,
    ⟨0x21#8, .n, fun p => .dlSetDelay p.unit p.d0⟩,
    ⟨0x22#8, .n, fun p => .dlClear p.unit⟩,
    ⟨0x23#8, .c, fun p => .dlProcess p.unit p.ch p.d0 p.d1⟩,
    ⟨0x24#8, .c, fun p => .dlProcessMod p.unit p.ch p.d0 p.d1 p.d2 p.d3⟩,
    ⟨0x25#8, .c, fun p => .dlGetSample p.unit p.ch p.d0⟩,
    ⟨0x30#8, .c, fun p => .apPrepare p.unit p.ch p.fs p.d2⟩,
    ⟨0x31#8, .n, fun p => .apSetCoeff p.unit p.d0⟩,
    ⟨0x32#8, .n, fun p => .apSetDelayTime p.unit p.d0⟩,
    ⟨0x33#8, .n, fun p => .apClear p.unit⟩,
    ⟨0x34#8, .c, fun p => .apProcess p.unit p.ch p.d0 p.d1⟩,
    ⟨0x35#8, .c, fun p => .apProcessMod p.unit p.ch p.d0 p.d1 p.d2 p.d3⟩,
    ⟨0x36#8, .c, fun p => .apGetSample p.unit p.ch p.d0⟩ ]

/-- The opcode map of `30_encoding.md` R97, LeakyIntegrator, LFO and GranularPitchShifter rows. -/
def opRowsFilter : List OpRow :=
  [ ⟨0x40#8, .c, fun p => .liPrepare p.unit p.ch p.fs⟩,
    ⟨0x41#8, .f, fun p => .liSetCoeff p.unit p.flag p.d0⟩,
    ⟨0x42#8, .n, fun p => .liClear p.unit⟩,
    ⟨0x43#8, .c, fun p => .liProcess p.unit p.ch p.d0 p.d1⟩,
    ⟨0x50#8, .n, fun p => .lfoPrepare p.unit p.fs⟩,
    ⟨0x51#8, .f, fun p => .lfoSetType p.unit (Waveform.ofFlag p.flag)⟩,
    ⟨0x52#8, .n, fun p => .lfoSetFreq p.unit p.d0⟩,
    ⟨0x53#8, .f, fun p => .lfoSetDepth p.unit p.flag p.d0⟩,
    ⟨0x54#8, .f, fun p => .lfoSetOffset p.unit p.flag p.d0⟩,
    ⟨0x55#8, .n, fun p => .lfoClear p.unit⟩,
    ⟨0x56#8, .c, fun p => .lfoNext p.unit p.ch⟩,
    ⟨0x60#8, .c, fun p => .gpsPrepare p.unit p.ch p.fs p.d2⟩,
    ⟨0x61#8, .n, fun p => .gpsSetPitchRatio p.unit p.d0⟩,
    ⟨0x62#8, .n, fun p => .gpsClear p.unit⟩,
    ⟨0x63#8, .c, fun p => .gpsProcess p.unit p.ch p.d0 p.d1⟩ ]

/-- The opcode map of `30_encoding.md` R97. -/
def opTable : List OpRow := opRowsSysRamp ++ opRowsDelay ++ opRowsFilter

/-- The row of an `op` byte, none where the byte is illegal (`30_encoding.md` R99). -/
def opRow (op : Byte) : Option OpRow := opTable.find? fun r => r.op == op

/-- Steps (1) and (2) of the decoder of `30_encoding.md` R101: look `op` up, then check the reserved bits. -/
def decode (p : Packet) : Except FaultCode Instr :=
  match opRow p.op with
  | none => .error .illegalOp
  | some r => if p.word &&& r.fmt.mbz = 0#32 then .ok (r.build p) else .error .reservedField

/-- `cmd_word` from its four fields (`30_encoding.md` R92). -/
def cmdWord (op : Byte) (unit ch : Nat) (flags : Byte) : Word :=
  op ++ BitVec.ofNat 8 unit ++ BitVec.ofNat 8 ch ++ flags

/-- The `flags` byte whose bit 0 is `F` (`30_encoding.md` R92). -/
def flagByte (f : Bool) : Byte := if f then 1#8 else 0#8

/-- Bits 31:0 of a binary64 operand, which travel as `d0` (`20_memory.md` R73). -/
def lowWord (fs : Word64) : Word := fs.extractLsb' 0 32

/-- Bits 63:32 of a binary64 operand, which travel as `d1` (`20_memory.md` R73). -/
def highWord (fs : Word64) : Word := fs.extractLsb' 32 32

/-- The packet of a command (`30_encoding.md` R92, R97); a data word the command does not name is zero (R102). -/
def encode : Instr → Packet
  | .nop => { word := cmdWord 0x00#8 0 0 0#8 }
  | .sysStatus => { word := cmdWord 0x01#8 0 0 0#8 }
  | .rampPrepare u fs => { word := cmdWord 0x10#8 u 0 0#8, d0 := lowWord fs, d1 := highWord fs }
  | .rampSetTarget u force v => { word := cmdWord 0x11#8 u 0 (flagByte force), d0 := v }
  | .rampGetNext u => { word := cmdWord 0x12#8 u 0 0#8 }
  | .rampApplyGain u ch a b => { word := cmdWord 0x13#8 u ch 0#8, d0 := a, d1 := b }
  | .rampApplySum u ch a b => { word := cmdWord 0x14#8 u ch 0#8, d0 := a, d1 := b }
  | .dlPrepare u ch m => { word := cmdWord 0x20#8 u ch 0#8, d0 := m }
  | .dlSetDelay u n => { word := cmdWord 0x21#8 u 0 0#8, d0 := n }
  | .dlClear u => { word := cmdWord 0x22#8 u 0 0#8 }
  | .dlProcess u ch a b => { word := cmdWord 0x23#8 u ch 0#8, d0 := a, d1 := b }
  | .dlProcessMod u ch a b m0 m1 => { word := cmdWord 0x24#8 u ch 0#8, d0 := a, d1 := b, d2 := m0, d3 := m1 }
  | .dlGetSample u ch k => { word := cmdWord 0x25#8 u ch 0#8, d0 := k }
  | .apPrepare u ch fs m => { word := cmdWord 0x30#8 u ch 0#8, d0 := lowWord fs, d1 := highWord fs, d2 := m }
  | .apSetCoeff u g => { word := cmdWord 0x31#8 u 0 0#8, d0 := g }
  | .apSetDelayTime u ms => { word := cmdWord 0x32#8 u 0 0#8, d0 := ms }
  | .apClear u => { word := cmdWord 0x33#8 u 0 0#8 }
  | .apProcess u ch a b => { word := cmdWord 0x34#8 u ch 0#8, d0 := a, d1 := b }
  | .apProcessMod u ch a b m0 m1 => { word := cmdWord 0x35#8 u ch 0#8, d0 := a, d1 := b, d2 := m0, d3 := m1 }
  | .apGetSample u ch k => { word := cmdWord 0x36#8 u ch 0#8, d0 := k }
  | .liPrepare u ch fs => { word := cmdWord 0x40#8 u ch 0#8, d0 := lowWord fs, d1 := highWord fs }
  | .liSetCoeff u force c => { word := cmdWord 0x41#8 u 0 (flagByte force), d0 := c }
  | .liClear u => { word := cmdWord 0x42#8 u 0 0#8 }
  | .liProcess u ch a b => { word := cmdWord 0x43#8 u ch 0#8, d0 := a, d1 := b }
  | .lfoPrepare u fs => { word := cmdWord 0x50#8 u 0 0#8, d0 := lowWord fs, d1 := highWord fs }
  | .lfoSetType u t => { word := cmdWord 0x51#8 u 0 (flagByte t.toFlag) }
  | .lfoSetFreq u hz => { word := cmdWord 0x52#8 u 0 0#8, d0 := hz }
  | .lfoSetDepth u force ms => { word := cmdWord 0x53#8 u 0 (flagByte force), d0 := ms }
  | .lfoSetOffset u force ms => { word := cmdWord 0x54#8 u 0 (flagByte force), d0 := ms }
  | .lfoClear u => { word := cmdWord 0x55#8 u 0 0#8 }
  | .lfoNext u ch => { word := cmdWord 0x56#8 u ch 0#8 }
  | .gpsPrepare u ch fs ms => { word := cmdWord 0x60#8 u ch 0#8, d0 := lowWord fs, d1 := highWord fs, d2 := ms }
  | .gpsSetPitchRatio u r => { word := cmdWord 0x61#8 u 0 0#8, d0 := r }
  | .gpsClear u => { word := cmdWord 0x62#8 u 0 0#8 }
  | .gpsProcess u ch a b => { word := cmdWord 0x63#8 u ch 0#8, d0 := a, d1 := b }

/-- The packet whose 160 bits are `n`, `cmd_word` in bits 31:0, `d0` in bits 63:32 and so on, with the bits at
and above `nbits` taken as zero (log 20). -/
def Packet.ofBits (nbits n : Nat) : Packet :=
  let m := n % 2 ^ nbits
  { word := BitVec.ofNat 32 m
    d0 := BitVec.ofNat 32 (m / 2 ^ 32)
    d1 := BitVec.ofNat 32 (m / 2 ^ 64)
    d2 := BitVec.ofNat 32 (m / 2 ^ 96)
    d3 := BitVec.ofNat 32 (m / 2 ^ 128) }

/-- The command the decoder reads from a packet whose low `nbits` bits are `w`. -/
def decodeTableWord (nbits w : Nat) : Option Instr :=
  match decode (Packet.ofBits nbits w) with
  | .ok i => some i
  | .error _ => none

end Sys2Proof
end

