-- ==== Sys2Proof/Machine/State.lean ====
section
/-! DEFINITION. The state of CSR-CORE as plain data (`10_state.md` R30 to R58), its ports as queues of events and
responses (`30_encoding.md` R90), and the state after reset (`10_state.md` R58, `70_reset_and_hazards.md` R240). -/

namespace Sys2Proof.Machine

/-- Why the machine stops. Nothing stops CSR-CORE: its four faults are responses after which the next command runs
(`60_exceptions.md` R222, `93_implementation_defined.md` section 1), so there is no constructor (log 17; safe:
a stop that the hardware had and the model lacks would be in the spec). -/
inductive Fault where
deriving DecidableEq, Repr

/-- Why an instruction has no meaning. -/
inductive Refusal where
  /-- Raised by `exec` alone, for an instruction whose meaning is not written; no arm raises it (safe). -/
  | notModelled (mnemonic : String)
deriving DecidableEq, Repr

/-- A value for each of the two channels: `NCH_MAX` is 2 (`00_scope.md` R7). -/
structure Chans (α : Type) where
  c0 : α
  c1 : α
deriving DecidableEq, Repr

/-- One channel of a buffer memory: the words that are not what an unlisted slot reads as, by slot, slots strictly rising
(`20_memory.md` R70, R73; log 4, log 5). -/
abbrev Buf := List (Nat × Word)

/-- What the slots that a buffer does not list hold: +0.0 since the last clear (`20_memory.md` R87), or the unspecified
contents number `n` since a reset (`70_reset_and_hazards.md` R242; log 4). -/
inductive Fill where
  | zero
  | unspecified (n : Nat)
deriving DecidableEq, Repr

/-- A buffer memory of two channels (`20_memory.md` R70). -/
structure Memory where
  fill : Fill
  cells : Chans Buf
deriving DecidableEq, Repr

/-- A Ramp, RampState of `10_state.md` R35 less `prepared` and `fs`, which an embedded Ramp has from its owner
(log 13). -/
structure Ramp where
  nsteps : Word
  cur : Word
  tgt : Word
  inc : Word
  cnt : Word
deriving DecidableEq, Repr

/-- A free-standing Ramp unit (`10_state.md` R34, R35). -/
structure RampUnit where
  prepared : Bool
  fs : Rat
  ramp : Ramp
deriving DecidableEq, Repr

/-- DLState (`10_state.md` R38): a DelayLine unit, or the private DelayLine of an AllPass. -/
structure DLState where
  prepared : Bool
  nch : Nat
  cap : Nat
  w : Nat
  dlyReq : Word
  dly : Nat
  mem : Memory
deriving DecidableEq, Repr

/-- APState (`10_state.md` R42). -/
structure APState where
  prepared : Bool
  fs : Rat
  g : Word
  dtMs : Word
  fb : Chans Word
  dl : DLState
deriving DecidableEq, Repr

/-- LIState (`10_state.md` R45). -/
structure LIState where
  prepared : Bool
  fs : Rat
  nch : Nat
  y : Chans Word
  cr : Ramp
deriving DecidableEq, Repr

/-- LFOState (`10_state.md` R48); `depthRamp` is the spec's `dr`, `offsetRamp` its `or`, `K` its `K`, `P` its `P`. -/
structure LFOState where
  prepared : Bool
  fs : Rat
  typ : Waveform
  fq : Word
  K : Word
  P : Word
  depthMs : Word
  offsetMs : Word
  depthRamp : Ramp
  offsetRamp : Ramp
deriving DecidableEq, Repr

/-- GPSState (`10_state.md` R52). `rp` counts units of 2^-25 slot (R53, log 11); `ng` is the number of the newer
grain, `false` for grain 0 and `true` for grain 1; `rp.c0` is `rp[0]`. -/
structure GPSState where
  prepared : Bool
  fs : Rat
  nch : Nat
  N : Nat
  H : Nat
  w : Nat
  k : Nat
  rSet : Word
  r : Word
  ng : Bool
  rp : Chans Nat
  mem : Memory
deriving DecidableEq, Repr

/-- A response packet (`30_encoding.md` R95). -/
structure Response where
  status : Byte
  r0 : Word
  r1 : Word
deriving DecidableEq, Repr

/-- What the requester does at the ports (`30_encoding.md` R90, `70_reset_and_hazards.md` R240; log 1). -/
inductive PortEvent where
  /-- a packet is presented and accepted -/
  | command (p : Packet)
  /-- an edge with `rsp_valid` and `rsp_ready` both 1: the oldest response is delivered -/
  | deliver
  /-- an edge with `rst` = 1 -/
  | reset
deriving DecidableEq, Repr

/-- The whole state. `cfg`, `inp`, `rspQ` and `fresh` are the model's own fields (log 1, log 4, log 6): the synthesis
parameters, the events the requester has yet to present, oldest first, the responses not yet delivered, oldest first, and
the number of the next unspecified buffer contents, which a reset reads and advances. -/
structure State where
  cfg : Config
  err : Byte
  ramps : List RampUnit
  dls : List DLState
  aps : List APState
  lis : List LIState
  lfos : List LFOState
  gpss : List GPSState
  inp : List PortEvent
  rspQ : List Response
  fresh : Nat
deriving DecidableEq, Repr

/-- A Ramp after reset, `cur` and `tgt` at `RINIT` (`10_state.md` R35, R37); `nsteps` is unspecified (log 3). -/
def Ramp.reset (rinit : Word) : Ramp where
  nsteps := 0#32
  cur := rinit
  tgt := rinit
  inc := 0#32
  cnt := 0#32

/-- A Ramp unit after reset (`10_state.md` R58). -/
def RampUnit.reset : RampUnit where
  prepared := false
  fs := 0
  ramp := Ramp.reset 0#32

/-- A buffer after reset: every slot unspecified (`10_state.md` R58, `70_reset_and_hazards.md` R242; log 4). -/
def Memory.reset (n : Nat) : Memory where
  fill := .unspecified n
  cells := ⟨[], []⟩

/-- A DLState after reset (`10_state.md` R58): `dly_req` is 1, the rest unspecified (log 3), the slots of its buffer the
contents number `n`. -/
def DLState.reset (n : Nat) : DLState where
  prepared := false
  nch := 0
  cap := 0
  w := 0
  dlyReq := 1#32
  dly := 0
  mem := Memory.reset n

/-- An AllPass after reset (`10_state.md` R58). -/
def APState.reset (n : Nat) : APState where
  prepared := false
  fs := 0
  g := 0#32
  dtMs := 0#32
  fb := ⟨0#32, 0#32⟩
  dl := DLState.reset n

/-- A LeakyIntegrator after reset (`10_state.md` R58): its coefficient Ramp stands at 1.0. -/
def LIState.reset : LIState where
  prepared := false
  fs := 0
  nch := 0
  y := ⟨0#32, 0#32⟩
  cr := Ramp.reset 0x3F800000#32

/-- An LFO after reset (`10_state.md` R58). -/
def LFOState.reset : LFOState where
  prepared := false
  fs := 0
  typ := .sine
  fq := 0#32
  K := 0#32
  P := 0#32
  depthMs := 0#32
  offsetMs := 0#32
  depthRamp := Ramp.reset 0#32
  offsetRamp := Ramp.reset 0#32

/-- A GranularPitchShifter after reset (`10_state.md` R58): `r_set` is 1.0. -/
def GPSState.reset (n : Nat) : GPSState where
  prepared := false
  fs := 0
  nch := 0
  N := 0
  H := 0
  w := 0
  k := 0
  rSet := 0x3F800000#32
  r := 0#32
  ng := false
  rp := ⟨0, 0⟩
  mem := Memory.reset n

/-- The state after reset of an implementation with the parameters `cfg` (`10_state.md` R58,
`70_reset_and_hazards.md` R240), with nothing presented and no response pending. Each buffer holds unspecified contents of
its own, numbered from `first` on. -/
def State.resetOf (cfg : Config) (first : Nat) : State where
  cfg := cfg
  err := 0#8
  ramps := cfg.ramp.map fun _ => RampUnit.reset
  dls := cfg.dl.mapIdx fun u _ => DLState.reset (first + u)
  aps := cfg.ap.mapIdx fun u _ => APState.reset (first + cfg.dl.length + u)
  lis := cfg.li.map fun _ => LIState.reset
  lfos := cfg.lfo.map fun _ => LFOState.reset
  gpss := cfg.gps.mapIdx fun u _ => GPSState.reset (first + cfg.dl.length + cfg.ap.length + u)
  inp := []
  rspQ := []
  fresh := first + cfg.dl.length + cfg.ap.length + cfg.gps.length

/-- The machine right after reset, with the default parameters of `00_scope.md` R7 (log 6). -/
def State.reset : State := State.resetOf Config.default 0

end Sys2Proof.Machine
end

