-- ==== Sys2Proof/Machine/Float.lean ====
section
/-! DEFINITION. The binary32 operators of `00_scope.md` R11 and R12: round to nearest, ties to even, one rounding for
each operation, subnormals kept, canonical NaN. A finite word is held as a whole number of 2^-149 (`fmag`), the weight of
the last bit of a subnormal, so that every operation is exact integer arithmetic and one call of `roundMag` (log 9). -/

namespace Sys2Proof.Machine

/-- 2^149: how many units of 2^-149 make 1 (log 9). -/
def unitsPerOne : Nat := 2 ^ 149

/-- The canonical quiet NaN (`00_scope.md` R12). -/
def qNaN : Word := 0x7FC00000#32

/-- The largest finite binary32 value `MAXF` (`00_scope.md` R8). -/
def maxF : Word := 0x7F7FFFFF#32

/-- The binary32 word of 1.0. -/
def oneF : Word := 0x3F800000#32

/-- Sign, bit 31 (`00_scope.md` R11). -/
def fsign (v : Word) : Bool := v.getLsbD 31

/-- Biased exponent, bits 30:23 (`00_scope.md` R11). -/
def fexp (v : Word) : Nat := (v.extractLsb' 23 8).toNat

/-- Fraction, bits 22:0 (`00_scope.md` R11). -/
def ffrac (v : Word) : Nat := (v.extractLsb' 0 23).toNat

/-- Bits 30:0: the word without its sign. -/
def fbits (v : Word) : Nat := (v.extractLsb' 0 31).toNat

/-- `isNaN` (`00_scope.md` R12). -/
def isNaN (v : Word) : Bool := fexp v == 255 && ffrac v != 0

/-- An infinity of either sign. -/
def isInf (v : Word) : Bool := fexp v == 255 && ffrac v == 0

/-- Neither a NaN nor an infinity. -/
def isFinite (v : Word) : Bool := fexp v != 255

/-- The magnitude of a finite word in units of 2^-149: `|val v| * 2^149` (`00_scope.md` R11). -/
def fmag (v : Word) : Nat :=
  if fexp v = 0 then ffrac v else (2 ^ 23 + ffrac v) * 2 ^ (fexp v - 1)

/-- A finite word in units of 2^-149: `val v * 2^149` (`00_scope.md` R11). -/
def funits (v : Word) : Int := if fsign v then -(fmag v : Int) else fmag v

/-- The rational `val(v)` of a finite word (`00_scope.md` R11). -/
def fval (v : Word) : Rat := mkRat (funits v) unitsPerOne

/-- `n / d` rounded to a whole number, ties to even (`00_scope.md` R12). -/
def roundEven (n d : Nat) : Nat :=
  let q := n / d
  let r := n % d
  if 2 * r < d then q
  else if d < 2 * r then q + 1
  else q + q % 2

/-- The bits 30:0 of the binary32 value nearest `n / d` units of 2^-149, ties to even, overflow to infinity
(`rnd32` of `00_scope.md` R12 for a value that is not negative). The value is rounded to a multiple of `2 ^ sh` units, where
`sh` is 0 up to 2^24 units and else leaves 24 significant bits; the pattern of `m * 2 ^ sh` units is then
`sh * 2 ^ 23 + m`, also where `m` has been rounded up to 2^24. -/
def roundMag (n d : Nat) : Nat :=
  let sh := Nat.log2 (n / d) - 23
  let bits := sh * 2 ^ 23 + roundEven n (d * 2 ^ sh)
  if bits < 0x7F800000 then bits else 0x7F800000

/-- The word with the given sign and bits 30:0. -/
def signed (neg : Bool) (bits : Nat) : Word :=
  BitVec.ofNat 32 (if neg then 2 ^ 31 + bits else bits)

/-- `rnd32` of the rational `z / d` units of 2^-149 (`00_scope.md` R12). -/
def rndUnits (z : Int) (d : Nat) : Word := signed (decide (z < 0)) (roundMag z.natAbs d)

/-- `negate`: flip bit 31 (`43_allpass.md` R151). -/
def fneg (v : Word) : Word := v ^^^ 0x80000000#32

/-- `a (+) b` (`00_scope.md` R12). An exact sum of 0 is -0.0 only where both operands are negative zeros. -/
def fadd (a b : Word) : Word :=
  if isNaN a || isNaN b then qNaN
  else if isInf a then (if isInf b && fsign a != fsign b then qNaN else a)
  else if isInf b then b
  else
    let z := funits a + funits b
    if z = 0 then signed (fsign a && fsign b) 0 else rndUnits z 1

/-- `a (-) b` (`00_scope.md` R12). -/
def fsub (a b : Word) : Word := fadd a (fneg b)

/-- `a (*) b` (`00_scope.md` R12). -/
def fmul (a b : Word) : Word :=
  let neg := fsign a != fsign b
  if isNaN a || isNaN b then qNaN
  else if isInf a || isInf b then
    (if isFinite a && fmag a == 0 || isFinite b && fmag b == 0 then qNaN else signed neg 0x7F800000)
  else signed neg (roundMag (fmag a * fmag b) unitsPerOne)

/-- `a (/) b` (`00_scope.md` R12). -/
def fdiv (a b : Word) : Word :=
  let neg := fsign a != fsign b
  if isNaN a || isNaN b then qNaN
  else if isInf a then (if isInf b then qNaN else signed neg 0x7F800000)
  else if isInf b then signed neg 0
  else if fmag b = 0 then (if fmag a = 0 then qNaN else signed neg 0x7F800000)
  else signed neg (roundMag (fmag a * unitsPerOne) (fmag b))

/-- The place of a word that is no NaN in the order of binary32 values: both zeros at 0, infinities outermost. -/
def fkey (v : Word) : Int := if fsign v then -(fbits v : Int) else fbits v

/-- `a < b` on `f32` words (`00_scope.md` R12): false where either is a NaN, and -0.0 is not below +0.0. -/
def flt (a b : Word) : Bool := !isNaN a && !isNaN b && decide (fkey a < fkey b)

/-- `a == b` on `f32` words (`00_scope.md` R12): false where either is a NaN, and -0.0 == +0.0. -/
def feq (a b : Word) : Bool := !isNaN a && !isNaN b && decide (fkey a = fkey b)

/-- `u2f(n)` = `rnd32(n)` (`00_scope.md` R12). -/
def u2f (n : Nat) : Word := signed false (roundMag (n * unitsPerOne) 1)

end Sys2Proof.Machine
end

