-- ==== Sys2Proof/Machine/Operands.lean ====
section
/-! DEFINITION. Every operand form and conversion of `00_scope.md` R13 to R19: clamps, times and rates to sample
counts, the sample-rate operand, interpolation, channel counts, and the LFO's derived phase step.
All conversions are exact rational arithmetic with one rounding; a stored rate is used through its numerator and denominator. -/

namespace Sys2Proof.Machine

/-- `clampf(x, lo, hi)` (`00_scope.md` R13): a NaN gives `lo`. -/
def clampf (x lo hi : Word) : Word :=
  if isNaN x then lo
  else if flt x lo then lo
  else if flt hi x then hi
  else x

/-- `x` is no NaN and lies in `lo..hi` (the legal values of a clamped field, `00_scope.md` R13). -/
def inRange (lo hi x : Word) : Bool := !isNaN x && !flt x lo && !flt hi x

/-- `clampu(n, lo, hi)` (`00_scope.md` R14). -/
def clampu (n lo hi : Nat) : Nat :=
  if n < lo then lo else if hi < n then hi else n

/-- `rndi(n / d)` = `floor(n / d + 1/2)` (`00_scope.md` R15). -/
def rndi (n d : Nat) : Nat := (2 * n + d) / (2 * d)

/-- `ms2n(t, fs)` = `rndi(val(t) * fs / 1000)` for a time that is not negative (`00_scope.md` R16). -/
def ms2n (t : Word) (fs : Rat) : Nat :=
  rndi (fmag t * fs.num.natAbs) (unitsPerOne * 1000 * fs.den)

/-- `ms2f(t, fs)` = `rnd32(val(t) * fs / 1000)`, `MAXF` where that overflows (`00_scope.md` R16). -/
def ms2f (t : Word) (fs : Rat) : Word :=
  let bits := roundMag (fmag t * fs.num.natAbs) (1000 * fs.den)
  if bits < 0x7F800000 then signed false bits else maxF

/-- The biased exponent of a binary64 word, bits 62:52 (`00_scope.md` R11). -/
def dexp (v : Word64) : Nat := (v.extractLsb' 52 11).toNat

/-- The fraction of a binary64 word, bits 51:0 (`00_scope.md` R11). -/
def dfrac (v : Word64) : Nat := (v.extractLsb' 0 52).toNat

/-- The value of a positive normal finite binary64 word of at least 1 (`00_scope.md` R11). -/
def dval (v : Word64) : Rat :=
  mkRat (((2 ^ 52 + dfrac v) * 2 ^ (dexp v - 1023) : Nat) : Int) (2 ^ 52)

/-- `fsval` of the operand `d1 :: d0` (`00_scope.md` R17): 1 for a NaN or a value below 1, `FS_MAX` for one above it, else
the value exactly. A value of at least 1 is one with sign 0 and biased exponent of at least 1023. -/
def fsval (fsMax : Rat) (v : Word64) : Rat :=
  if dexp v = 2047 then (if dfrac v = 0 && !v.getLsbD 63 then fsMax else 1)
  else if v.getLsbD 63 || decide (dexp v < 1023) then 1
  else if fsMax.num * ((2 ^ 52 : Nat) : Int) <
      (((2 ^ 52 + dfrac v) * 2 ^ (dexp v - 1023) : Nat) : Int) * (fsMax.den : Int) then fsMax
  else dval v

/-- `lerp(a, b, f)` = `(a (*) (1.0 (-) f)) (+) (b (*) f)` (`00_scope.md` R18). At `f` = +0.0 an `a` of -0.0 gives +0.0
where `b` has positive sign (DEDUCED, log 19). -/
def lerp (a b f : Word) : Word := fadd (fmul a (fsub oneF f)) (fmul b f)

/-- `nchan(ch, S)` = `clampu(ch, 1, S.nch)` (`00_scope.md` R19). -/
def nchan (ch nch : Nat) : Nat := clampu ch 1 nch

/-- The channel count of a PREPARE command, `clampu(ch, 1, NCH_MAX)`, and of a command with no prepared count
(`42_delayline.md` R130, `41_ramp.md` R126, `45_lfo.md` R188). -/
def nchMax (ch : Nat) : Nat := clampu ch 1 2

/-- The steps of a Ramp transition, `clampu(ms2n(TC, fs), 1, 2^32-1)` (`10_state.md` R36). -/
def stepsOf (tc : Word) (fs : Rat) : Word := BitVec.ofNat 32 (clampu (ms2n tc fs) 1 (2 ^ 32 - 1))

/-- `K` = `min(rndi(val(fq) * 2^32 / fs), 2^31)` (`10_state.md` R49). -/
def phaseStep (fq : Word) (fs : Rat) : Word :=
  BitVec.ofNat 32 (min (rndi (fmag fq * 2 ^ 32 * fs.den) (unitsPerOne * fs.num.natAbs)) (2 ^ 31))

/-- `rndi(fs)`: one second of samples (`46_granular.md` R201). -/
def secondOf (fs : Rat) : Nat := rndi fs.num.natAbs fs.den

/-- `rndi(val(gms) * fs / 2000)`: half a grain length in samples (`46_granular.md` R201). -/
def halfGrainOf (gms : Word) (fs : Rat) : Nat :=
  rndi (fmag gms * fs.num.natAbs) (unitsPerOne * 2000 * fs.den)

/-- `val(r)` of a pitch ratio in units of 2^-25, exact for a ratio of the legal range (`10_state.md` R53). -/
def ratio25 (r : Word) : Nat := fmag r / 2 ^ 124

end Sys2Proof.Machine
end

