-- ==== Sys2Proof/Machine/Flags.lean ====
section
/-! DEFINITION. The only flags of CSR-CORE: the fault codes and the sticky bits of `ERR` (`10_state.md` R32, R33,
`60_exceptions.md` R221). No command writes a flag as a side effect of arithmetic. -/

namespace Sys2Proof.Machine

/-- The `rsp_status` code of a fault (`60_exceptions.md` R221). -/
def faultCode : FaultCode → Byte
  | .illegalOp => 0x01#8
  | .reservedField => 0x02#8
  | .badUnit => 0x03#8
  | .unprepared => 0x04#8

/-- The `ERR` bit of a fault, bit `code - 1` (`10_state.md` R33). -/
def errBit (f : FaultCode) : Byte := 1#8 <<< ((faultCode f).toNat - 1)

/-- `ERR` after a fault: the bit is set and stays set (`60_exceptions.md` R222). -/
def raiseErr (err : Byte) (f : FaultCode) : Byte := err ||| errBit f

end Sys2Proof.Machine
end

