-- ==== Sys2Proof/Machine/Ops.lean ====
section
/-! DEFINITION. The named operations over the state: buffer memories (`20_memory.md` R70 to R77, R87), the end of a
command (`30_encoding.md` R95), taking a fault (`60_exceptions.md` R222), addressing a unit (R226, R227), and the two
port events that are not commands. There is no return from a fault, since nothing was entered (R230). -/

namespace Sys2Proof.Machine

/-- The value of channel `c`. -/
def Chans.get {α : Type} (x : Chans α) (c : Nat) : α := if c = 0 then x.c0 else x.c1

/-- `x` with channels 0..`n`-1 replaced by `f`: one pass of a loop `for c in 0 .. n-1` whose iterations touch
only their own channel (log 12). -/
def Chans.upTo {α : Type} (n : Nat) (f : Nat → α) (x : Chans α) : Chans α :=
  ⟨if 0 < n then f 0 else x.c0, if 1 < n then f 1 else x.c1⟩

/-- The two output words before a loop: `out[0] <- 0x00000000; out[1] <- 0x00000000`. -/
def silence : Chans Word := ⟨0#32, 0#32⟩

/-- What a slot that a buffer does not list reads as: +0.0, the word every PREPARE and CLEAR writes, or, since a reset, a
free value (`20_memory.md` R87, `70_reset_and_hazards.md` R242; log 4). -/
def unlistedWord (fill : Fill) (c i : Nat) : Word :=
  match fill with
  | .zero => 0#32
  | .unspecified n => Config.unspecifiedWord n c i

/-- The word of slot `i` of one channel, whose unlisted slots read as `d`. -/
def bufRead (d : Nat → Word) : Buf → Nat → Word
  | [], i => d i
  | (a, v) :: rest, i => if i = a then v else bufRead d rest i

/-- Slot `i` of one channel becomes `v`; the list keeps its canonical form. -/
def bufWrite (d : Nat → Word) : Buf → Nat → Word → Buf
  | [], i, v => if v = d i then [] else [(i, v)]
  | (a, x) :: rest, i, v =>
    if i < a then (if v = d i then (a, x) :: rest else (i, v) :: (a, x) :: rest)
    else if i = a then (if v = d i then rest else (i, v) :: rest)
    else (a, x) :: bufWrite d rest i v

/-- The canonical form: slots strictly rising, all at least `lo`, and no slot listed at what it reads unlisted. -/
def bufWfFrom (d : Nat → Word) (lo : Nat) : Buf → Bool
  | [] => true
  | (a, v) :: rest => decide (lo ≤ a) && v != d a && bufWfFrom d (a + 1) rest

/-- The canonical form of one channel. -/
def bufWf (d : Nat → Word) (b : Buf) : Bool := bufWfFrom d 0 b

/-- Every listed slot is one of the `depth` physical words (`20_memory.md` R70). -/
def bufWithin (depth : Nat) (b : Buf) : Bool := b.all fun e => decide (e.1 < depth)

/-- The canonical form of a buffer memory of `depth` words a channel. -/
def Memory.wf (depth : Nat) (m : Memory) : Bool :=
  bufWf (unlistedWord m.fill 0) m.cells.c0 && bufWf (unlistedWord m.fill 1) m.cells.c1 &&
  bufWithin depth m.cells.c0 && bufWithin depth m.cells.c1

/-- `MemRead(M, c, i)` (`00_scope.md` R10). -/
def memRead (m : Memory) (c i : Nat) : Word := bufRead (unlistedWord m.fill c) (m.cells.get c) i

/-- `MemWrite(M, c, i, v)` for every channel `c` in 0..`n`-1, at one slot `i`, with the word of that channel
(`00_scope.md` R10, `20_memory.md` R79). -/
def memWrite (m : Memory) (n i : Nat) (v : Chans Word) : Memory :=
  { m with cells := Chans.upTo n (fun c => bufWrite (unlistedWord m.fill c) (m.cells.get c) i (v.get c)) m.cells }

/-- Bulk clear: +0.0 in every slot of both channels (`20_memory.md` R87). -/
def memClear : Memory := ⟨.zero, ⟨[], []⟩⟩

/-- `ridx(w, d, cap)` = `(w - d) mod cap`, never negative (`20_memory.md` R76). -/
def ridx (w d cap : Nat) : Nat := (((w : Int) - (d : Int)) % (cap : Int)).toNat

/-- `(w + 1) mod cap` (`20_memory.md` R77). -/
def advance (w cap : Nat) : Nat := (w + 1) % cap

/-- The accepted packet leaves the command channel and its one response joins the response channel
(`30_encoding.md` R90, R95). -/
def State.answer (status : Byte) (r0 r1 : Word) (s : State) : State :=
  { s with inp := s.inp.tail, rspQ := s.rspQ ++ [⟨status, r0, r1⟩] }

/-- A command completes with status 0x00 (`30_encoding.md` R95). -/
def complete (r0 r1 : Word) (s : State) : State := s.answer 0x00#8 r0 r1

/-- Taking a fault (`60_exceptions.md` R222): the `ERR` bit is set, the response is the code with zero results, and
nothing else changes. -/
def takeFault (f : FaultCode) (s : State) : State :=
  State.answer (faultCode f) 0#32 0#32 { s with err := raiseErr s.err f }

/-- What a command does to its unit: the unit's new record and the two result words (0 where the opcode map names
none, `30_encoding.md` R95). -/
structure Reply (R : Type) where
  unit : R
  r0 : Word := 0#32
  r1 : Word := 0#32

/-- The parameters and the record of unit `u` of a kind; none where `u` is not below the instance count
(`60_exceptions.md` R226). -/
def lookupUnit {P R : Type} (params : List P) (units : List R) (u : Nat) : Option (P × R) :=
  match params[u]?, units[u]? with
  | some p, some r => some (p, r)
  | _, _ => none

/-- Steps (3) to (5) of `30_encoding.md` R101 for a command that addresses a unit: BAD_UNIT where there is no such
unit, UNPREPARED where the command needs a prepared one and it is not, else the command's effect on the record. -/
def runUnit {P R : Type} (found : Option (P × R)) (blocked : R → Bool) (put : R → State → State)
    (cmd : P → R → Reply R) (s : State) : Host.Outcome State Fault Refusal :=
  match found with
  | none => .next (takeFault .badUnit s)
  | some (p, r) =>
    if blocked r then .next (takeFault .unprepared s)
    else .next (complete (cmd p r).r0 (cmd p r).r1 (put (cmd p r).unit s))

def State.putRamp (u : Nat) (r : RampUnit) (s : State) : State := { s with ramps := s.ramps.set u r }
def State.putDl (u : Nat) (r : DLState) (s : State) : State := { s with dls := s.dls.set u r }
def State.putAp (u : Nat) (r : APState) (s : State) : State := { s with aps := s.aps.set u r }
def State.putLi (u : Nat) (r : LIState) (s : State) : State := { s with lis := s.lis.set u r }
def State.putLfo (u : Nat) (r : LFOState) (s : State) : State := { s with lfos := s.lfos.set u r }
def State.putGps (u : Nat) (r : GPSState) (s : State) : State := { s with gpss := s.gpss.set u r }

def State.rampUnit (s : State) (u : Nat) : Option (RampParams × RampUnit) := lookupUnit s.cfg.ramp s.ramps u
def State.dlUnit (s : State) (u : Nat) : Option (DLParams × DLState) := lookupUnit s.cfg.dl s.dls u
def State.apUnit (s : State) (u : Nat) : Option (APParams × APState) := lookupUnit s.cfg.ap s.aps u
def State.liUnit (s : State) (u : Nat) : Option (LIParams × LIState) := lookupUnit s.cfg.li s.lis u
def State.lfoUnit (s : State) (u : Nat) : Option (LFOParams × LFOState) := lookupUnit s.cfg.lfo s.lfos u
def State.gpsUnit (s : State) (u : Nat) : Option (GPSParams × GPSState) := lookupUnit s.cfg.gps s.gpss u

/-- A command on Ramp unit `u`; `needs` is the column P of `30_encoding.md` R97. -/
def onRamp (u : Nat) (needs : Bool) (cmd : RampParams → RampUnit → Reply RampUnit) (s : State) :
    Host.Outcome State Fault Refusal :=
  runUnit (s.rampUnit u) (fun r => needs && !r.prepared) (State.putRamp u) cmd s

/-- A command on DelayLine unit `u`. -/
def onDl (u : Nat) (needs : Bool) (cmd : DLParams → DLState → Reply DLState) (s : State) :
    Host.Outcome State Fault Refusal :=
  runUnit (s.dlUnit u) (fun r => needs && !r.prepared) (State.putDl u) cmd s

/-- A command on AllPass unit `u`. -/
def onAp (u : Nat) (needs : Bool) (cmd : APParams → APState → Reply APState) (s : State) :
    Host.Outcome State Fault Refusal :=
  runUnit (s.apUnit u) (fun r => needs && !r.prepared) (State.putAp u) cmd s

/-- A command on LeakyIntegrator unit `u`. -/
def onLi (u : Nat) (needs : Bool) (cmd : LIParams → LIState → Reply LIState) (s : State) :
    Host.Outcome State Fault Refusal :=
  runUnit (s.liUnit u) (fun r => needs && !r.prepared) (State.putLi u) cmd s

/-- A command on LFO unit `u`. -/
def onLfo (u : Nat) (needs : Bool) (cmd : LFOParams → LFOState → Reply LFOState) (s : State) :
    Host.Outcome State Fault Refusal :=
  runUnit (s.lfoUnit u) (fun r => needs && !r.prepared) (State.putLfo u) cmd s

/-- A command on GranularPitchShifter unit `u`. -/
def onGps (u : Nat) (needs : Bool) (cmd : GPSParams → GPSState → Reply GPSState) (s : State) :
    Host.Outcome State Fault Refusal :=
  runUnit (s.gpsUnit u) (fun r => needs && !r.prepared) (State.putGps u) cmd s

/-- An edge with `rsp_valid` and `rsp_ready` both 1: the oldest response leaves (`30_encoding.md` R90). With no
response pending `rsp_valid` is 0 and nothing is delivered. -/
def deliverResponse (s : State) : State := { s with inp := s.inp.tail, rspQ := s.rspQ.tail }

/-- An edge with `rst` = 1 (`70_reset_and_hazards.md` R240, R241): the reset state, undelivered responses dropped,
nothing accepted from the command channel, the buffers' contents unspecified anew. -/
def resetEdge (s : State) : State := { State.resetOf s.cfg s.fresh with inp := s.inp.tail }

end Sys2Proof.Machine
end

