-- ==== Sys2Proof/Machine/DelayLine.lean ====
section
/-! DEFINITION. The DelayLine: the access functions of `20_memory.md` R79, R81, R83, which the AllPass uses too, and
the six commands of `42_delayline.md` R130 to R135. -/

namespace Sys2Proof.Machine

/-- `DLfixed(S, n, in)` (`20_memory.md` R79): write at the write index, read `dly` behind it, advance. -/
def dlFixed (S : DLState) (n : Nat) (inp : Chans Word) : Chans Word × DLState :=
  let mem := memWrite S.mem n S.w inp
  (Chans.upTo n (fun c => memRead mem c (ridx S.w S.dly S.cap)) silence,
    { S with mem := mem, w := advance S.w S.cap })

/-- The first statement of `DLmod` (`20_memory.md` R81): a NaN or a negative modulation becomes +0.0. -/
def modInput (m : Word) : Word := if isNaN m || flt m 0#32 then 0#32 else m

/-- The integer delay `D` and the fraction `mf` of a modulated read (`20_memory.md` R81), with `D` at most `cap - 1`
and the fraction +0.0 there. -/
def modDelay (S : DLState) (mod : Word) : Nat × Word :=
  let m := modInput mod
  let mi := if isInf m then S.cap else fmag m / unitsPerOne
  let mf := if isInf m then 0#32 else rndUnits (fmag m % unitsPerOne : Nat) 1
  if S.cap - 1 ≤ S.dly + mi then (S.cap - 1, 0#32) else (S.dly + mi, mf)

/-- The interpolated word `DLmod` reads on channel `c` (`20_memory.md` R81). At modulation +0.0 it is the word of
`DLfixed` up to the sign of a zero, against the letter of R82 (b) (DEDUCED, log 19). -/
def modRead (S : DLState) (mod : Word) (c : Nat) : Word :=
  let D := (modDelay S mod).1
  lerp (memRead S.mem c (ridx S.w D S.cap)) (memRead S.mem c (ridx S.w (min (D + 1) (S.cap - 1)) S.cap))
    (modDelay S mod).2

/-- `DLmod(S, n, in, mod)` (`20_memory.md` R81): read between two slots, write the input afterward, advance. -/
def dlMod (mod : Chans Word) (S : DLState) (n : Nat) (inp : Chans Word) : Chans Word × DLState :=
  (Chans.upTo n (fun c => modRead S (mod.get c) c) silence,
    { S with mem := memWrite S.mem n S.w inp, w := advance S.w S.cap })

/-- `DLtap(S, c, k)` (`20_memory.md` R83): the word `k` behind the write index; nothing changes. -/
def dlTap (S : DLState) (c : Nat) (k : Word) : Word :=
  memRead S.mem (min c (S.nch - 1)) (ridx S.w (clampu k.toNat 1 (S.cap - 1)) S.cap)

/-- The sizing and clearing that `DL_PREPARE` and `AP_PREPARE` share (`42_delayline.md` R130, `43_allpass.md` R150):
capacity clamped to the depth, cleared buffer, write index 0, the delay `req` clamped to 1..cap-1. -/
def dlSize (S : DLState) (depth ch : Nat) (maxDelay : Word) (req : Nat) : DLState :=
  let cap := clampu maxDelay.toNat 1 (depth - 1) + 1
  { S with prepared := true, cap := cap, nch := nchMax ch, mem := memClear, w := 0, dly := clampu req 1 (cap - 1) }

/-- `DL_PREPARE` (`42_delayline.md` R130). -/
def execDlPrepare (unit ch : Nat) (maxDelaySamples : Word) (s : State) : Host.Outcome State Fault Refusal :=
  onDl unit false (fun p S =>
    let S' := dlSize S p.depth ch maxDelaySamples S.dlyReq.toNat
    { unit := S', r0 := BitVec.ofNat 32 S'.cap, r1 := BitVec.ofNat 32 S'.dly }) s

/-- `DL_SET_DELAY` (`42_delayline.md` R131): the request is kept; on a prepared unit it acts at once. -/
def execDlSetDelay (unit : Nat) (n : Word) (s : State) : Host.Outcome State Fault Refusal :=
  onDl unit false (fun _ S =>
    if S.prepared then
      let dly := clampu n.toNat 1 (S.cap - 1)
      { unit := { S with dlyReq := n, dly := dly }, r0 := BitVec.ofNat 32 dly }
    else { unit := { S with dlyReq := n } }) s

/-- `DL_CLEAR` (`42_delayline.md` R132). -/
def execDlClear (unit : Nat) (s : State) : Host.Outcome State Fault Refusal :=
  onDl unit true (fun _ S => { unit := { S with mem := memClear } }) s

/-- `DL_PROCESS` (`42_delayline.md` R133). -/
def execDlProcess (unit ch : Nat) (in0 in1 : Word) (s : State) : Host.Outcome State Fault Refusal :=
  onDl unit true (fun _ S =>
    let o := dlFixed S (nchan ch S.nch) ⟨in0, in1⟩
    { unit := o.2, r0 := o.1.c0, r1 := o.1.c1 }) s

/-- `DL_PROCESS_MOD` (`42_delayline.md` R134). -/
def execDlProcessMod (unit ch : Nat) (in0 in1 mod0 mod1 : Word) (s : State) :
    Host.Outcome State Fault Refusal :=
  onDl unit true (fun _ S =>
    let o := dlMod ⟨mod0, mod1⟩ S (nchan ch S.nch) ⟨in0, in1⟩
    { unit := o.2, r0 := o.1.c0, r1 := o.1.c1 }) s

/-- `DL_GET_SAMPLE` (`42_delayline.md` R135). -/
def execDlGetSample (unit ch : Nat) (indexBack : Word) (s : State) : Host.Outcome State Fault Refusal :=
  onDl unit true (fun _ S => { unit := S, r0 := dlTap S ch indexBack }) s

end Sys2Proof.Machine
end

