-- ==== Sys2Proof/Machine/AllPass.lean ====
section
/-! DEFINITION. The AllPass: the three forms of its step (`43_allpass.md` R156, R157, R162) and the seven commands of
R150 to R155 and R159. -/

namespace Sys2Proof.Machine

/-- The output `y` and the delay input `v` of one channel from the input `x`, the coefficient `g` and the feedback word
`fb`, by the unit's form (`43_allpass.md` R156, R157, R162). -/
def apNode (form : ApForm) (g x fb : Word) : Word × Word :=
  match form with
  | .outFirst =>
    let y := fadd (fmul g x) fb
    (y, fsub x (fmul g y))
  | .inFirst =>
    let v := fsub x (fmul g fb)
    (fadd (fmul g v) fb, v)
  | .asWritten => (fadd (fmul g x) fb, fsub x (fmul g fb))

/-- `APstep(A, n, in, mode)` (`43_allpass.md` R156, R157, R162): `step` is `DLfixed` or `DLmod`. The values of every
processed channel come first, then the private DelayLine takes one step, then `fb` is updated. -/
def apStep (form : ApForm) (step : DLState → Nat → Chans Word → Chans Word × DLState) (A : APState) (n : Nat)
    (inp : Chans Word) : Chans Word × APState :=
  let node := fun c => apNode form A.g (inp.get c) (A.fb.get c)
  let d := step A.dl n (Chans.upTo n (fun c => (node c).2) silence)
  (Chans.upTo n (fun c => (node c).1) silence,
    { A with fb := Chans.upTo n (fun c => d.1.get c) A.fb, dl := d.2 })

/-- `AP_PREPARE` (`43_allpass.md` R150). -/
def execApPrepare (unit ch : Nat) (fs : Word64) (maxDelaySamples : Word) (s : State) :
    Host.Outcome State Fault Refusal :=
  onAp unit false (fun p A =>
    let rate := fsval s.cfg.fsMax fs
    let dl := dlSize A.dl p.depth ch maxDelaySamples (ms2n A.dtMs rate)
    { unit := { A with prepared := true, fs := rate, fb := ⟨0#32, 0#32⟩, dl := dl }
      r0 := BitVec.ofNat 32 dl.cap
      r1 := BitVec.ofNat 32 dl.dly }) s

/-- `AP_SET_COEFF` (`43_allpass.md` R151). -/
def execApSetCoeff (unit : Nat) (coeff : Word) (s : State) : Host.Outcome State Fault Refusal :=
  onAp unit false (fun p A =>
    let g := clampf coeff (fneg p.gmax) p.gmax
    { unit := { A with g := g }, r0 := g }) s

/-- `AP_SET_DELAY_TIME` (`43_allpass.md` R152). -/
def execApSetDelayTime (unit : Nat) (ms : Word) (s : State) : Host.Outcome State Fault Refusal :=
  onAp unit false (fun _ A =>
    let dt := clampf ms 0#32 maxF
    if A.prepared then
      let dly := clampu (ms2n dt A.fs) 1 (A.dl.cap - 1)
      { unit := { A with dtMs := dt, dl := { A.dl with dly := dly } }, r0 := BitVec.ofNat 32 dly }
    else { unit := { A with dtMs := dt } }) s

/-- `AP_CLEAR` (`43_allpass.md` R153). -/
def execApClear (unit : Nat) (s : State) : Host.Outcome State Fault Refusal :=
  onAp unit true (fun _ A =>
    { unit := { A with fb := ⟨0#32, 0#32⟩, dl := { A.dl with mem := memClear } } }) s

/-- `AP_PROCESS` (`43_allpass.md` R154). -/
def execApProcess (unit ch : Nat) (in0 in1 : Word) (s : State) : Host.Outcome State Fault Refusal :=
  onAp unit true (fun p A =>
    let o := apStep p.form dlFixed A (nchan ch A.dl.nch) ⟨in0, in1⟩
    { unit := o.2, r0 := o.1.c0, r1 := o.1.c1 }) s

/-- `AP_PROCESS_MOD` (`43_allpass.md` R155). With modulation +0.0 its results are those of `AP_PROCESS` up to the sign of a
zero (DEDUCED, log 19). -/
def execApProcessMod (unit ch : Nat) (in0 in1 mod0 mod1 : Word) (s : State) :
    Host.Outcome State Fault Refusal :=
  onAp unit true (fun p A =>
    let o := apStep p.form (dlMod ⟨mod0, mod1⟩) A (nchan ch A.dl.nch) ⟨in0, in1⟩
    { unit := o.2, r0 := o.1.c0, r1 := o.1.c1 }) s

/-- `AP_GET_SAMPLE` (`43_allpass.md` R159). -/
def execApGetSample (unit ch : Nat) (indexBack : Word) (s : State) : Host.Outcome State Fault Refusal :=
  onAp unit true (fun _ A => { unit := A, r0 := dlTap A.dl ch indexBack }) s

end Sys2Proof.Machine
end

