-- ==== Sys2Proof/Machine/Sine.lean ====
section
/-! DEFINITION. The sine generator SINTURN (`45_lfo.md` R181). Whether a rational lies below or above the sine of a phase
is decided exactly: doubling an angle carries a comparison with its cosine over to a comparison with the cosine of the double
angle, cos 2t = 2 (cos t)^2 - 1, and at most 31 doublings bring every phase to a half turn. So R181 (c) is a decidable
property of one word, and the correctly rounded sine is a plain function. Bounds of 128 fraction bits settle nearly every
comparison, exact rationals the rest. -/

namespace Sys2Proof.Machine

/-- The order of cos(π·p/2^k) and `r`, for `p` in 0..2^k: exact, and costly where the two lie close together. -/
def cosExact : Nat → Nat → Rat → Ordering
  | 0, p, r => if p = 0 then cmp 1 r else cmp (-1) r
  | k + 1, p, r =>
    if p = 0 then cmp 1 r
    else if p = 2 ^ (k + 1) then cmp (-1) r
    else if p ≤ 2 ^ k then (if r < 0 then .gt else cosExact k p (2 * r * r - 1))
    else if 0 ≤ r then .lt
    else (cosExact k (2 ^ (k + 1) - p) (2 * r * r - 1)).swap

/-- The order of 1 (`top`) or -1 and a number between `lo` and `hi`, in units of 2^-128; none where that leaves it open. -/
def edgeGuess (top : Bool) (lo hi : Int) : Option Ordering :=
  let edge : Int := if top then 2 ^ 128 else -2 ^ 128
  if hi < edge then some .gt else if edge < lo then some .lt else none

/-- The order of cos(π·p/2^k) and a number between `lo` and `hi`, in units of 2^-128; none where that leaves it open. -/
def cosGuess : Nat → Nat → Int → Int → Option Ordering
  | 0, p, lo, hi => edgeGuess (p == 0) lo hi
  | k + 1, p, lo, hi =>
    let below := fun x : Int => 2 * x * x / 2 ^ 128 - 2 ^ 128
    if p = 0 then edgeGuess true lo hi
    else if p = 2 ^ (k + 1) then edgeGuess false lo hi
    else if p ≤ 2 ^ k then
      (if hi < 0 then some .gt else if lo < 0 then none else cosGuess k p (below lo) (below hi + 1))
    else if 0 ≤ lo then some .lt
    else if 0 ≤ hi then none
    else (cosGuess k (2 ^ (k + 1) - p) (below hi) (below lo + 1)).map Ordering.swap

/-- The order of cos(π·p/2^k) and `r`, for `p` in 0..2^k: that of the guess where it is enough. -/
def cosOrder (k p : Nat) (r : Rat) : Ordering :=
  if 1 < r then .lt
  else if r < -1 then .gt
  else (cosGuess k p ⌊r * 2 ^ 128⌋ ⌈r * 2 ^ 128⌉).getD (cosExact k p r)

/-- How far phase `p` is from the quarter turn, in units of 2^-32 turn, at most a half turn: sin(2π·p/2^32) is the
cosine of it. -/
def fromQuarter (p : Word) : Nat :=
  let q := if p.toNat < 2 ^ 30 then 2 ^ 30 - p.toNat else p.toNat - 2 ^ 30
  if q ≤ 2 ^ 31 then q else 2 ^ 32 - q

/-- The order of sin(2π·p/2^32) and `r`. -/
def sineOrder (p : Word) (r : Rat) : Ordering := cosOrder 31 (fromQuarter p) r

/-- `|val(w) - sin(2π·p/2^32)| <= tol` (`45_lfo.md` R181 (c)). -/
def sineWithin (tol : Rat) (p w : Word) : Bool :=
  sineOrder p (fval w - tol) != .lt && sineOrder p (fval w + tol) != .gt

/-- What `45_lfo.md` R181 (b), (c), (e) ask of the value `w` of a sine generator at phase `p`. -/
def sineAllowed (tol : Rat) (p w : Word) : Bool :=
  isFinite w && inRange 0xBF800000#32 0x3F800000#32 w && sineWithin tol p w &&
  (decide (2 ^ 31 < p.toNat) || !flt w 0#32) && (decide (p.toNat < 2 ^ 31) || !flt 0#32 w)

/-- The value of the word with sign 0 and bits 30:0 `b`. -/
def bitsVal (b : Nat) : Rat := fval (signed false b)

/-- The greatest bits whose value is at most the sine of phase `p`, found bit by bit from bit `i` - 1 down, starting
from `acc`. -/
def sineFloor (p : Word) : Nat → Nat → Nat
  | 0, acc => acc
  | i + 1, acc => sineFloor p i (if sineOrder p (bitsVal (acc + 2 ^ i)) = .lt then acc else acc + 2 ^ i)

/-- Bits 30:0 of the binary32 value nearest the sine of a phase of the first half turn. -/
def sineNearest (p : Word) : Nat :=
  let b := sineFloor p 30 0
  if sineOrder p ((bitsVal b + bitsVal (b + 1)) / 2) = .gt then b + 1 else b

/-- The correctly rounded sine, `rnd32(sin(2π·p/2^32))`, the one instance of SINTURN that the spec states
(`45_lfo.md` R181, `93_implementation_defined.md` U7). -/
def sineRounded (p : Word) : Word :=
  if p.toNat ≤ 2 ^ 31 then signed false (sineNearest p) else signed true (sineNearest (p - 0x80000000#32))

/-- `SINTURN(p)` of an implementation (`45_lfo.md` R181): exact at the four cardinal phases (d); elsewhere the stated
instance, or the value of a free generator wherever (b), (c) and (e) allow it (log 7). -/
def sinturn (cfg : Config) (p : Word) : Word :=
  if p = 0x00000000#32 then 0x00000000#32
  else if p = 0x40000000#32 then 0x3F800000#32
  else if p = 0x80000000#32 then 0x00000000#32
  else if p = 0xC0000000#32 then 0xBF800000#32
  else
    match cfg.sine with
    | .rounded => sineRounded p
    | .free n => if sineAllowed cfg.sinTol p (Config.sinturnRaw n p) then Config.sinturnRaw n p else sineRounded p

end Sys2Proof.Machine
end

