-- ==== Sys2Proof/Machine/Granular.lean ====
section
/-! DEFINITION. The GranularPitchShifter: the grain read of `20_memory.md` R85, the parts of the step of
`46_granular.md` R205 to R207 and the four commands of R201 to R204. Read positions count units of 2^-25 slot
(`10_state.md` R53, log 11). -/

namespace Sys2Proof.Machine

/-- `anchor(G)` = `(G.w - 2 * G.H * val(G.r)) mod G.N` (`46_granular.md` R205), in units of 2^-25 slot. -/
def anchor (G : GPSState) : Nat :=
  ((((G.w * 2 ^ 25 : Nat) : Int) - ((2 * G.H * ratio25 G.r : Nat) : Int)) % ((G.N * 2 ^ 25 : Nat) : Int)).toNat

/-- `GRread(S, c, p)` (`20_memory.md` R85). At a whole position it is the word of the slot up to the sign of a zero, so that
the identity of `46_granular.md` R209 holds up to it too (DEDUCED, log 19; the premise of R209: log 22). -/
def grainRead (G : GPSState) (c p : Nat) : Word :=
  let i0 := p / 2 ^ 25
  lerp (memRead G.mem c i0) (memRead G.mem c ((i0 + 1) % G.N)) (rndUnits ((p % 2 ^ 25 * 2 ^ 124 : Nat) : Int) 1)

/-- `GPS_PREPARE` and `GPS_CLEAR` restart the grains: cleared buffer, `k` 0, the requested ratio in force, both read
positions anchored (`46_granular.md` R201, R203). -/
def grainRestart (G : GPSState) : GPSState :=
  let G' := { G with mem := memClear, k := 0, r := G.rSet, ng := false }
  { G' with rp := ⟨anchor G', anchor G'⟩ }

/-- `GPS_PREPARE` (`46_granular.md` R201). -/
def execGpsPrepare (unit ch : Nat) (fs : Word64) (grainMs : Word) (s : State) :
    Host.Outcome State Fault Refusal :=
  onGps unit false (fun p G =>
    let rate := fsval s.cfg.fsMax fs
    let N := clampu (secondOf rate) 17 p.depth
    let H := clampu (halfGrainOf (clampf grainMs 0#32 maxF) rate) 4 ((N - 1) / 4)
    let G' := grainRestart { G with prepared := true, fs := rate, N := N, H := H, nch := nchMax ch, w := 0 }
    { unit := G', r0 := BitVec.ofNat 32 N, r1 := BitVec.ofNat 32 H }) s

/-- `GPS_SET_PITCH_RATIO` (`46_granular.md` R202): clamped to 0.25..2.0, kept for the next half-grain. -/
def execGpsSetPitchRatio (unit : Nat) (ratio : Word) (s : State) : Host.Outcome State Fault Refusal :=
  onGps unit false (fun _ G =>
    let r := clampf ratio 0x3E800000#32 0x40000000#32
    { unit := { G with rSet := r }, r0 := r }) s

/-- `GPS_CLEAR` (`46_granular.md` R203): `w`, `N`, `H`, `nch`, `fs`, `r_set` stay. -/
def execGpsClear (unit : Nat) (s : State) : Host.Outcome State Fault Refusal :=
  onGps unit true (fun _ G => { unit := grainRestart G }) s

/-- The read position of grain 0 or, for `true`, of grain 1. -/
def grainPos (rp : Chans Nat) (g : Bool) : Nat := if g then rp.c1 else rp.c0

/-- Step (2) of `GPS_PROCESS` (`46_granular.md` R204, R207): at `k` = 0 the requested ratio is latched, the grains swap
roles and the new one is anchored. Where this and the bound of R208 differ, this goes first (DEDUCED, log 18). -/
def grainStart (G : GPSState) : GPSState :=
  if G.k = 0 then
    let G' := { G with r := G.rSet, ng := !G.ng }
    { G' with rp := if G'.ng then ⟨G'.rp.c0, anchor G'⟩ else ⟨anchor G', G'.rp.c1⟩ }
  else G

/-- The envelope phase `Pk` = `floor(k * 2^30 / H)` (`46_granular.md` R204, R206). -/
def envelopePhase (G : GPSState) : Word := BitVec.ofNat 32 (G.k * 2 ^ 30 / G.H)

/-- Steps (3) and (4) on one channel: both grains read and mixed with their envelopes (`46_granular.md` R204). -/
def grainMix (cfg : Config) (G : GPSState) (c : Nat) : Word :=
  let eNew := sinturn cfg (envelopePhase G)
  let eOld := sinturn cfg (envelopePhase G + 0x40000000#32)
  fadd (fmul eOld (grainRead G c (grainPos G.rp (!G.ng)))) (fmul eNew (grainRead G c (grainPos G.rp G.ng)))

/-- Step (5): both read positions advance by the ratio in force, the indices by one (`46_granular.md` R204). -/
def grainAdvance (G : GPSState) : GPSState :=
  let next := fun p => (p + ratio25 G.r) % (G.N * 2 ^ 25)
  { G with rp := ⟨next G.rp.c0, next G.rp.c1⟩, w := (G.w + 1) % G.N, k := (G.k + 1) % G.H }

/-- `GPS_PROCESS` (`46_granular.md` R204). -/
def execGpsProcess (unit ch : Nat) (in0 in1 : Word) (s : State) : Host.Outcome State Fault Refusal :=
  onGps unit true (fun _ G =>
    let n := nchan ch G.nch
    let G' := grainStart { G with mem := memWrite G.mem n G.w ⟨in0, in1⟩ }
    let out := Chans.upTo n (grainMix s.cfg G') silence
    { unit := grainAdvance G', r0 := out.c0, r1 := out.c1 }) s

end Sys2Proof.Machine
end

