-- ==== Sys2Proof/Machine/RampOps.lean ====
section
/-! DEFINITION. The Ramp: the three shared functions of `41_ramp.md` R120 to R122 and the five commands on a
free-standing Ramp unit (R123 to R127). -/

namespace Sys2Proof.Machine

/-- `RampPrep(R, tc, fs)` (`41_ramp.md` R120): a transition in progress ends at its target. -/
def rampPrep (R : Ramp) (tc : Word) (fs : Rat) : Ramp :=
  { R with nsteps := stepsOf tc fs, cur := R.tgt, inc := 0#32, cnt := 0#32 }

/-- `RampSet(R, v, force, prep)` (`41_ramp.md` R121). -/
def rampSet (R : Ramp) (v : Word) (force prep : Bool) : Ramp :=
  if force || !prep then { R with tgt := v, cur := v, inc := 0#32, cnt := 0#32 }
  else { R with tgt := v, inc := fdiv (fsub v R.cur) (u2f R.nsteps.toNat), cnt := R.nsteps }

/-- The value after one step of a transition that is not its last (`41_ramp.md` R122): a step that would pass the
target is held at it. -/
def rampNext (R : Ramp) : Word :=
  let nv := fadd R.cur R.inc
  if (flt 0#32 R.inc && flt R.tgt nv) || (flt R.inc 0#32 && flt nv R.tgt) then R.tgt else nv

/-- The Ramp that `RampStep(R)` leaves (`41_ramp.md` R122); the value it returns is `R.cur`. -/
def rampAdvance (R : Ramp) : Ramp :=
  if R.cnt = 0#32 then R
  else if R.cnt = 1#32 then { R with cnt := 0#32, cur := R.tgt }
  else { R with cnt := R.cnt - 1#32, cur := rampNext R }

/-- `RAMP_PREPARE` (`41_ramp.md` R123). -/
def execRampPrepare (unit : Nat) (fs : Word64) (s : State) : Host.Outcome State Fault Refusal :=
  onRamp unit false (fun p r =>
    let rate := fsval s.cfg.fsMax fs
    let ramp := rampPrep r.ramp p.tcMs rate
    { unit := { r with prepared := true, fs := rate, ramp := ramp }, r0 := ramp.nsteps }) s

/-- `RAMP_SET_TARGET` (`41_ramp.md` R124): on an unprepared unit it acts as forced. -/
def execRampSetTarget (unit : Nat) (force : Bool) (value : Word) (s : State) :
    Host.Outcome State Fault Refusal :=
  onRamp unit false (fun _ r => { unit := { r with ramp := rampSet r.ramp value force r.prepared } }) s

/-- `RAMP_GET_NEXT` (`41_ramp.md` R125). -/
def execRampGetNext (unit : Nat) (s : State) : Host.Outcome State Fault Refusal :=
  onRamp unit true (fun _ r => { unit := { r with ramp := rampAdvance r.ramp }, r0 := r.ramp.cur }) s

/-- `RAMP_APPLY_GAIN` (`41_ramp.md` R126): one Ramp step whatever the channel count. -/
def execRampApplyGain (unit ch : Nat) (in0 in1 : Word) (s : State) : Host.Outcome State Fault Refusal :=
  onRamp unit true (fun _ r =>
    { unit := { r with ramp := rampAdvance r.ramp }
      r0 := fmul in0 r.ramp.cur
      r1 := if nchMax ch = 2 then fmul in1 r.ramp.cur else 0#32 }) s

/-- `RAMP_APPLY_SUM` (`41_ramp.md` R127). -/
def execRampApplySum (unit ch : Nat) (in0 in1 : Word) (s : State) : Host.Outcome State Fault Refusal :=
  onRamp unit true (fun _ r =>
    { unit := { r with ramp := rampAdvance r.ramp }
      r0 := fadd in0 r.ramp.cur
      r1 := if nchMax ch = 2 then fadd in1 r.ramp.cur else 0#32 }) s

end Sys2Proof.Machine
end

