-- ==== Sys2Proof/Machine/Integrator.lean ====
section
/-! DEFINITION. The LeakyIntegrator: the four commands of `44_integrator.md` R170 to R173, with the private
coefficient Ramp driven by the functions of `41_ramp.md` R120 to R122. -/

namespace Sys2Proof.Machine

/-- `LI_PREPARE` (`44_integrator.md` R170). -/
def execLiPrepare (unit ch : Nat) (fs : Word64) (s : State) : Host.Outcome State Fault Refusal :=
  onLi unit false (fun p L =>
    let rate := fsval s.cfg.fsMax fs
    let cr := rampPrep L.cr p.tcMs rate
    { unit := { L with prepared := true, fs := rate, nch := nchMax ch, y := ⟨0#32, 0#32⟩, cr := cr }
      r0 := cr.nsteps }) s

/-- `LI_SET_COEFF` (`44_integrator.md` R171): the coefficient is clamped to 0..1. -/
def execLiSetCoeff (unit : Nat) (force : Bool) (c : Word) (s : State) : Host.Outcome State Fault Refusal :=
  onLi unit false (fun _ L =>
    let cc := clampf c 0#32 oneF
    { unit := { L with cr := rampSet L.cr cc force L.prepared }, r0 := cc }) s

/-- `LI_CLEAR` (`44_integrator.md` R172): the coefficient Ramp is not touched. -/
def execLiClear (unit : Nat) (s : State) : Host.Outcome State Fault Refusal :=
  onLi unit true (fun _ L => { unit := { L with y := ⟨0#32, 0#32⟩ } }) s

/-- One filter step of one channel, `(c (*) x) (+) ((1.0 (-) c) (*) y)` (`44_integrator.md` R173). For the sign of
a zero at coefficient +0.0 see log 19 (DEDUCED). -/
def liFilter (c x y : Word) : Word := fadd (fmul c x) (fmul (fsub oneF c) y)

/-- `LI_PROCESS` (`44_integrator.md` R173): one coefficient, one Ramp step, for all the channels of the command. -/
def execLiProcess (unit ch : Nat) (in0 in1 : Word) (s : State) : Host.Outcome State Fault Refusal :=
  onLi unit true (fun _ L =>
    let n := nchan ch L.nch
    let inp : Chans Word := ⟨in0, in1⟩
    let y := Chans.upTo n (fun c => liFilter L.cr.cur (inp.get c) (L.y.get c)) L.y
    let out := Chans.upTo n (fun c => y.get c) silence
    { unit := { L with y := y, cr := rampAdvance L.cr }, r0 := out.c0, r1 := out.c1 }) s

end Sys2Proof.Machine
end

