-- ==== Sys2Proof/Machine/Lfo.lean ====
section
/-! DEFINITION. The LFO: the waveforms of `45_lfo.md` R180 and the seven commands of R182 to R188, with the two
private Ramps driven by the functions of `41_ramp.md` R120 to R122. -/

namespace Sys2Proof.Machine

/-- `wave(typ, p)` (`45_lfo.md` R180): `0.5 (+) (0.5 (*) SINTURN(p))`, or `rnd32(|p - 2^31| / 2^31)`. -/
def wave (cfg : Config) (typ : Waveform) (p : Word) : Word :=
  match typ with
  | .sine => fadd 0x3F000000#32 (fmul 0x3F000000#32 (sinturn cfg p))
  | .triangle => rndUnits ((((p.toNat : Int) - 2 ^ 31).natAbs * unitsPerOne : Nat) : Int) (2 ^ 31)

/-- `LFO_PREPARE` (`45_lfo.md` R182). -/
def execLfoPrepare (unit : Nat) (fs : Word64) (s : State) : Host.Outcome State Fault Refusal :=
  onLfo unit false (fun p O =>
    let rate := fsval s.cfg.fsMax fs
    let K := phaseStep O.fq rate
    { unit := { O with
        prepared := true
        fs := rate
        K := K
        P := 0#32
        depthRamp := rampPrep { O.depthRamp with tgt := ms2f O.depthMs rate } p.depthTcMs rate
        offsetRamp := rampPrep { O.offsetRamp with tgt := ms2f O.offsetMs rate } p.offsetTcMs rate }
      r0 := K }) s

/-- `LFO_SET_TYPE` (`45_lfo.md` R183). -/
def execLfoSetType (unit : Nat) (typ : Waveform) (s : State) : Host.Outcome State Fault Refusal :=
  onLfo unit false (fun _ O => { unit := { O with typ := typ } }) s

/-- `LFO_SET_FREQ` (`45_lfo.md` R184). -/
def execLfoSetFreq (unit : Nat) (hertz : Word) (s : State) : Host.Outcome State Fault Refusal :=
  onLfo unit false (fun _ O =>
    let fq := clampf hertz 0#32 maxF
    if O.prepared then { unit := { O with fq := fq, K := phaseStep fq O.fs }, r0 := phaseStep fq O.fs }
    else { unit := { O with fq := fq } }) s

/-- `LFO_SET_DEPTH` (`45_lfo.md` R185): on an unprepared unit the depth is only kept. -/
def execLfoSetDepth (unit : Nat) (force : Bool) (ms : Word) (s : State) : Host.Outcome State Fault Refusal :=
  onLfo unit false (fun _ O =>
    let d := clampf ms 0#32 maxF
    if O.prepared then
      { unit := { O with depthMs := d, depthRamp := rampSet O.depthRamp (ms2f d O.fs) force true }
        r0 := ms2f d O.fs }
    else { unit := { O with depthMs := d } }) s

/-- `LFO_SET_OFFSET` (`45_lfo.md` R186). -/
def execLfoSetOffset (unit : Nat) (force : Bool) (ms : Word) (s : State) : Host.Outcome State Fault Refusal :=
  onLfo unit false (fun _ O =>
    let d := clampf ms 0#32 maxF
    if O.prepared then
      { unit := { O with offsetMs := d, offsetRamp := rampSet O.offsetRamp (ms2f d O.fs) force true }
        r0 := ms2f d O.fs }
    else { unit := { O with offsetMs := d } }) s

/-- `LFO_CLEAR` (`45_lfo.md` R187): the phase alone. -/
def execLfoClear (unit : Nat) (s : State) : Host.Outcome State Fault Refusal :=
  onLfo unit true (fun _ O => { unit := { O with P := 0#32 } }) s

/-- The phase of output channel `c`: channel 1 is a quarter turn ahead (`45_lfo.md` R188). -/
def channelPhase (P : Word) (c : Nat) : Word := P + BitVec.ofNat 32 (c * 2 ^ 30)

/-- `LFO_NEXT` (`45_lfo.md` R188): the value of the phase before the advance; one step of each Ramp. -/
def execLfoNext (unit ch : Nat) (s : State) : Host.Outcome State Fault Refusal :=
  onLfo unit true (fun _ O =>
    let out := Chans.upTo (nchMax ch) (fun c =>
      fadd O.offsetRamp.cur (fmul O.depthRamp.cur (wave s.cfg O.typ (channelPhase O.P c)))) silence
    { unit := { O with
        P := O.P + O.K
        depthRamp := rampAdvance O.depthRamp
        offsetRamp := rampAdvance O.offsetRamp }
      r0 := out.c0
      r1 := out.c1 }) s

end Sys2Proof.Machine
end

