-- ==== Sys2Proof/Machine/System.lean ====
section
/-! DEFINITION. The two system commands (`40_sys.md` R110, R111). They have no unit and are always legal. -/

namespace Sys2Proof.Machine

/-- `NOP` (`40_sys.md` R110): completes with zeros and changes nothing. -/
def execNop (s : State) : Host.Outcome State Fault Refusal := .next (complete 0#32 0#32 s)

/-- `SYS_STATUS` (`40_sys.md` R111): `r0 <- zext_32(ERR)`; `ERR` is read, not cleared. -/
def execSysStatus (s : State) : Host.Outcome State Fault Refusal :=
  .next (complete (s.err.setWidth 32) 0#32 s)

end Sys2Proof.Machine
end

