-- ==== Sys2Proof/Machine/Dispatch.lean ====
section
/-! DEFINITION. The dispatch of a decoded command to its meaning, one arm for each constructor of `Instr`
(step (5) of `30_encoding.md` R101). -/

namespace Sys2Proof.Machine

def exec (i : Instr) (s : State) : Host.Outcome State Fault Refusal :=
  match i with
  | .nop => Sys2Proof.Machine.execNop s
  | .sysStatus => Sys2Proof.Machine.execSysStatus s
  | .rampPrepare unit fs => Sys2Proof.Machine.execRampPrepare unit fs s
  | .rampSetTarget unit force value => Sys2Proof.Machine.execRampSetTarget unit force value s
  | .rampGetNext unit => Sys2Proof.Machine.execRampGetNext unit s
  | .rampApplyGain unit ch in0 in1 => Sys2Proof.Machine.execRampApplyGain unit ch in0 in1 s
  | .rampApplySum unit ch in0 in1 => Sys2Proof.Machine.execRampApplySum unit ch in0 in1 s
  | .dlPrepare unit ch maxDelaySamples => Sys2Proof.Machine.execDlPrepare unit ch maxDelaySamples s
  | .dlSetDelay unit n => Sys2Proof.Machine.execDlSetDelay unit n s
  | .dlClear unit => Sys2Proof.Machine.execDlClear unit s
  | .dlProcess unit ch in0 in1 => Sys2Proof.Machine.execDlProcess unit ch in0 in1 s
  | .dlProcessMod unit ch in0 in1 mod0 mod1 => Sys2Proof.Machine.execDlProcessMod unit ch in0 in1 mod0 mod1 s
  | .dlGetSample unit ch indexBack => Sys2Proof.Machine.execDlGetSample unit ch indexBack s
  | .apPrepare unit ch fs maxDelaySamples => Sys2Proof.Machine.execApPrepare unit ch fs maxDelaySamples s
  | .apSetCoeff unit coeff => Sys2Proof.Machine.execApSetCoeff unit coeff s
  | .apSetDelayTime unit ms => Sys2Proof.Machine.execApSetDelayTime unit ms s
  | .apClear unit => Sys2Proof.Machine.execApClear unit s
  | .apProcess unit ch in0 in1 => Sys2Proof.Machine.execApProcess unit ch in0 in1 s
  | .apProcessMod unit ch in0 in1 mod0 mod1 => Sys2Proof.Machine.execApProcessMod unit ch in0 in1 mod0 mod1 s
  | .apGetSample unit ch indexBack => Sys2Proof.Machine.execApGetSample unit ch indexBack s
  | .liPrepare unit ch fs => Sys2Proof.Machine.execLiPrepare unit ch fs s
  | .liSetCoeff unit force c => Sys2Proof.Machine.execLiSetCoeff unit force c s
  | .liClear unit => Sys2Proof.Machine.execLiClear unit s
  | .liProcess unit ch in0 in1 => Sys2Proof.Machine.execLiProcess unit ch in0 in1 s
  | .lfoPrepare unit fs => Sys2Proof.Machine.execLfoPrepare unit fs s
  | .lfoSetType unit typ => Sys2Proof.Machine.execLfoSetType unit typ s
  | .lfoSetFreq unit hertz => Sys2Proof.Machine.execLfoSetFreq unit hertz s
  | .lfoSetDepth unit force ms => Sys2Proof.Machine.execLfoSetDepth unit force ms s
  | .lfoSetOffset unit force ms => Sys2Proof.Machine.execLfoSetOffset unit force ms s
  | .lfoClear unit => Sys2Proof.Machine.execLfoClear unit s
  | .lfoNext unit ch => Sys2Proof.Machine.execLfoNext unit ch s
  | .gpsPrepare unit ch fs grainMs => Sys2Proof.Machine.execGpsPrepare unit ch fs grainMs s
  | .gpsSetPitchRatio unit ratio => Sys2Proof.Machine.execGpsSetPitchRatio unit ratio s
  | .gpsClear unit => Sys2Proof.Machine.execGpsClear unit s
  | .gpsProcess unit ch in0 in1 => Sys2Proof.Machine.execGpsProcess unit ch in0 in1 s

end Sys2Proof.Machine
end

