-- ==== Sys2Proof/Machine/Step.lean ====
section
/-! DEFINITION. One step: the next port event is handled whole (`20_memory.md` R80, `00_scope.md` R10; log 1). -/

namespace Sys2Proof.Machine

/-- A packet is accepted: a packet that spells a command runs it, any other takes the decoder's fault
(`30_encoding.md` R101). Both leave the command channel and answer exactly once. -/
def acceptPacket (p : Packet) (s : State) : Host.Outcome State Fault Refusal :=
  match decode p with
  | .ok i => exec i s
  | .error f => .next (takeFault f s)

/-- One step. With nothing presented the block holds its state (`60_exceptions.md` R233). -/
def step (s : State) : Host.Outcome State Fault Refusal :=
  match s.inp with
  | [] => .next s
  | .command p :: _ => acceptPacket p s
  | .deliver :: _ => .next (deliverResponse s)
  | .reset :: _ => .next (resetEdge s)

/-- `s` with the packet of the bits `w` presented next on the command channel (log 1, log 20). -/
def State.withFetchWord (s : State) (nbits w : Nat) : State :=
  { s with inp := .command (Packet.ofBits nbits w) :: s.inp }

end Sys2Proof.Machine
end

