-- ==== Sys2Proof/Safety.lean ====
section
/-! DEFINITION. What a legal configuration and a good state are, in the terms the statements use: the constraints of
`00_scope.md` R7, the legal values of the tables of `10_state.md` and its invariants (R40, R41, R44, R50, R54), and the
read delays of `46_granular.md` R208. -/

namespace Sys2Proof.Machine

/-- A time constant is finite and not negative (`00_scope.md` R7, U3). -/
def legalTime (t : Word) : Bool := isFinite t && !flt t 0#32

/-- A physical depth is at least `lo` and below 2^31 (`00_scope.md` R7, U2). -/
def legalDepth (lo d : Nat) : Bool := decide (lo ≤ d) && decide (d < 2 ^ 31)

/-- The constraints of `00_scope.md` R7 (U1 to U4, U6). -/
def Config.wf (c : Config) : Bool :=
  decide (c.ramp.length ≤ 256) && decide (c.dl.length ≤ 256) && decide (c.ap.length ≤ 256) &&
  decide (c.li.length ≤ 256) && decide (c.lfo.length ≤ 256) && decide (c.gps.length ≤ 256) &&
  c.ramp.all (fun p => legalTime p.tcMs) &&
  c.dl.all (fun p => legalDepth 2 p.depth) &&
  c.ap.all (fun p => legalDepth 2 p.depth && flt 0#32 p.gmax && flt p.gmax oneF) &&
  c.li.all (fun p => legalTime p.tcMs) &&
  c.lfo.all (fun p => legalTime p.depthTcMs && legalTime p.offsetTcMs) &&
  c.gps.all (fun p => legalDepth 17 p.depth) &&
  decide (1 ≤ c.fsMax) && decide (0 ≤ c.sinTol)

/-- A stored sample rate lies in 1..FS_MAX (`10_state.md` R34). -/
def legalRate (fsMax fs : Rat) : Bool := decide (1 ≤ fs) && decide (fs ≤ fsMax)

/-- A prepared channel count is 1 or 2 (`10_state.md` R38, R45, R52). -/
def legalCount (n : Nat) : Bool := n == 1 || n == 2

/-- `cnt` is at most `nsteps`, and a prepared owner's `nsteps` is at least 1 (`10_state.md` R35). -/
def Ramp.wf (prepared : Bool) (R : Ramp) : Bool :=
  decide (R.cnt.toNat ≤ R.nsteps.toNat) && (!prepared || decide (1 ≤ R.nsteps.toNat))

/-- A Ramp unit with legal values (`10_state.md` R34, R35). -/
def RampUnit.wf (fsMax : Rat) (r : RampUnit) : Bool :=
  r.ramp.wf r.prepared && (!r.prepared || legalRate fsMax r.fs)

/-- The invariant of a DLState (`10_state.md` R40), the canonical form of its memory, and that no slot of a prepared one is
unspecified (`70_reset_and_hazards.md` R242). -/
def DLState.wf (depth : Nat) (S : DLState) : Bool :=
  Memory.wf depth S.mem &&
  (!S.prepared ||
    (decide (2 ≤ S.cap) && decide (S.cap ≤ depth) && decide (S.w < S.cap) && decide (1 ≤ S.dly) &&
      decide (S.dly ≤ S.cap - 1) && legalCount S.nch && S.mem.fill == .zero))

/-- A DelayLine unit: R40, and the delay derived from the request (`10_state.md` R41). -/
def DLState.unitWf (p : DLParams) (S : DLState) : Bool :=
  S.wf p.depth && (!S.prepared || S.dly == clampu S.dlyReq.toNat 1 (S.cap - 1))

/-- An AllPass unit (`10_state.md` R42, R44). -/
def APState.wf (fsMax : Rat) (p : APParams) (A : APState) : Bool :=
  A.dl.wf p.depth && A.dl.prepared == A.prepared && inRange (fneg p.gmax) p.gmax A.g && inRange 0#32 maxF A.dtMs &&
  (!A.prepared || (legalRate fsMax A.fs && A.dl.dly == clampu (ms2n A.dtMs A.fs) 1 (A.dl.cap - 1)))

/-- A LeakyIntegrator unit (`10_state.md` R45). -/
def LIState.wf (fsMax : Rat) (L : LIState) : Bool :=
  L.cr.wf L.prepared && inRange 0#32 oneF L.cr.tgt &&
  (!L.prepared || (legalRate fsMax L.fs && legalCount L.nch))

/-- An LFO unit (`10_state.md` R48, R49, R50): `K` and the Ramp targets are derived from the settings. -/
def LFOState.wf (fsMax : Rat) (O : LFOState) : Bool :=
  O.depthRamp.wf O.prepared && O.offsetRamp.wf O.prepared &&
  inRange 0#32 maxF O.fq && inRange 0#32 maxF O.depthMs && inRange 0#32 maxF O.offsetMs &&
  (!O.prepared || (legalRate fsMax O.fs && O.K == phaseStep O.fq O.fs &&
    O.depthRamp.tgt == ms2f O.depthMs O.fs && O.offsetRamp.tgt == ms2f O.offsetMs O.fs))

/-- A GranularPitchShifter unit (`10_state.md` R52, R54); no slot of a prepared one is unspecified. -/
def GPSState.wf (fsMax : Rat) (p : GPSParams) (G : GPSState) : Bool :=
  Memory.wf p.depth G.mem && inRange 0x3E800000#32 0x40000000#32 G.rSet &&
  (!G.prepared ||
    (legalRate fsMax G.fs && legalCount G.nch && decide (17 ≤ G.N) && decide (G.N ≤ p.depth) && decide (4 ≤ G.H) &&
      decide (G.H ≤ (G.N - 1) / 4) && decide (G.w < G.N) && decide (G.k < G.H) &&
      inRange 0x3E800000#32 0x40000000#32 G.r &&
      decide (G.rp.c0 < G.N * 2 ^ 25) && decide (G.rp.c1 < G.N * 2 ^ 25) && G.mem.fill == .zero))

/-- One record for each set of parameters, each record good. -/
def unitsWf {P R : Type} (good : P → R → Bool) (params : List P) (units : List R) : Bool :=
  params.length == units.length && (params.zip units).all (fun x => good x.1 x.2)

/-- The invariant of the machine: a legal configuration, as many units as it says, `ERR` bits 7:4 zero
(`10_state.md` R33) and every unit good. -/
def State.inv (s : State) : Bool :=
  Config.wf s.cfg && s.err &&& 0xF0#8 == 0#8 &&
  unitsWf (fun _ r => RampUnit.wf s.cfg.fsMax r) s.cfg.ramp s.ramps &&
  unitsWf DLState.unitWf s.cfg.dl s.dls &&
  unitsWf (APState.wf s.cfg.fsMax) s.cfg.ap s.aps &&
  unitsWf (fun _ L => LIState.wf s.cfg.fsMax L) s.cfg.li s.lis &&
  unitsWf (fun _ O => LFOState.wf s.cfg.fsMax O) s.cfg.lfo s.lfos &&
  unitsWf (GPSState.wf s.cfg.fsMax) s.cfg.gps s.gpss

/-- A Ramp whose value and target lie in `lo..hi` and whose increment, no NaN, leads from the value towards the target: the
shape in which `41_ramp.md` R128 finds every Ramp whose owner clamps its targets. -/
def Ramp.within (lo hi : Word) (R : Ramp) : Bool :=
  inRange lo hi R.cur && inRange lo hi R.tgt && !isNaN R.inc &&
  !(flt 0#32 R.inc && flt R.tgt R.cur) && !(flt R.inc 0#32 && flt R.cur R.tgt)

/-- The smoothed settings stay legal during their transitions: every coefficient in 0..1 (`44_integrator.md` R171), every
depth and offset finite and not negative (`45_lfo.md` R189). -/
def State.smoothed (s : State) : Bool :=
  s.lis.all (fun L => L.cr.within 0#32 oneF) &&
  s.lfos.all (fun O => O.depthRamp.within 0#32 maxF && O.offsetRamp.within 0#32 maxF)

/-- The delay of a read position behind the write index, `(G.w - G.rp[j]) mod G.N`, in units of 2^-25 slot
(`46_granular.md` R208). -/
def grainDelay (G : GPSState) (g : Bool) : Int :=
  (((G.w * 2 ^ 25 : Nat) : Int) - (grainPos G.rp g : Int)) % ((G.N * 2 ^ 25 : Nat) : Int)

/-- `46_granular.md` R208: the delay lies in `2 .. 4H`. -/
def grainReadSafe (G : GPSState) (g : Bool) : Bool :=
  decide (2 * 2 ^ 25 ≤ grainDelay G g) && decide (grainDelay G g ≤ 4 * (G.H : Int) * 2 ^ 25)

/-- Where the grains stand after at least one step since PREPARE or CLEAR (the proof sketch of `46_granular.md` R208):
the delay of the new grain is `2H·r + k·(1 - r)`; that of the old one lies between `1.25H` and `3H`, plus `k·(1 - r)`. At `k` = 0
the grain about to become the old one is the newer. -/
def grainsPlaced (G : GPSState) : Bool :=
  let drift : Int := (G.k : Int) * (2 ^ 25 - (ratio25 G.r : Int))
  let old : Bool := if G.k = 0 then G.ng else !G.ng
  decide (5 * (G.H : Int) * 2 ^ 25 ≤ 4 * (grainDelay G old - drift)) &&
  decide (grainDelay G old - drift ≤ 3 * (G.H : Int) * 2 ^ 25) &&
  (G.k == 0 || grainDelay G G.ng == 2 * (G.H : Int) * (ratio25 G.r : Int) + drift)

end Sys2Proof.Machine
end

