-- ==== Sys2Proof/Certificates/Slice0/Obligations.lean ====
section
/-! DEFINITION. The statements for the provers. `Sys2Proof.Claims` holds the words they use, written from the rules of
`spec/` and, where that is possible, not through the model's own functions: a rational floor for a count, a remainder for a
slot, the two lists of records for a unit. A result is stated as an equation `exec i s = .next t` with `t` a record
update of `s`: what the update does not name is unchanged (the frame), and the equation says that the command completes. -/

namespace Sys2Proof.Claims

open Sys2Proof.Machine

/-- `s` with the accepted packet gone and the response (0x00, `r0`, `r1`) added (`30_encoding.md` R90, R95). -/
def answered (r0 r1 : Word) (s : State) : State :=
  { s with inp := s.inp.tail, rspQ := s.rspQ ++ [⟨0x00#8, r0, r1⟩] }

/-- `s` after the fault `code`, whose `ERR` bit is `bit` (`60_exceptions.md` R221, R222). -/
def faulted (code bit : Byte) (s : State) : State :=
  { s with err := s.err ||| bit, inp := s.inp.tail, rspQ := s.rspQ ++ [⟨code, 0x00000000#32, 0x00000000#32⟩] }

/-- The opcodes that `60_exceptions.md` R224 lists as legal. -/
def legalOp (op : Nat) : Prop :=
  op = 0x00 ∨ op = 0x01 ∨ (0x10 ≤ op ∧ op ≤ 0x14) ∨ (0x20 ≤ op ∧ op ≤ 0x25) ∨ (0x30 ≤ op ∧ op ≤ 0x36) ∨
    (0x40 ≤ op ∧ op ≤ 0x43) ∨ (0x50 ≤ op ∧ op ≤ 0x56) ∨ (0x60 ≤ op ∧ op ≤ 0x63)

/-- The must-be-zero mask of a legal opcode: the column fmt of `30_encoding.md` R97 through the masks of R93. -/
def reservedMask (op : Nat) : Word :=
  if op ∈ [0x00, 0x01] then 0x00FFFFFF#32
  else if op ∈ [0x11, 0x41, 0x51, 0x53, 0x54] then 0x0000FFFE#32
  else if op ∈ [0x10, 0x12, 0x21, 0x22, 0x31, 0x32, 0x33, 0x42, 0x50, 0x52, 0x55, 0x61, 0x62] then 0x0000FFFF#32
  else 0x000000FF#32

/-- The instance count of a kind (`00_scope.md` R7). -/
def instances (c : Config) : Kind → Nat
  | .ramp => c.ramp.length
  | .dl => c.dl.length
  | .ap => c.ap.length
  | .li => c.li.length
  | .lfo => c.lfo.length
  | .gps => c.gps.length

/-- The `prepared` bit of a unit, none where there is no such unit. -/
def preparedBit (s : State) : Kind → Nat → Option Bool
  | .ramp, u => s.ramps[u]?.map (·.prepared)
  | .dl, u => s.dls[u]?.map (·.prepared)
  | .ap, u => s.aps[u]?.map (·.prepared)
  | .li, u => s.lis[u]?.map (·.prepared)
  | .lfo, u => s.lfos[u]?.map (·.prepared)
  | .gps, u => s.gpss[u]?.map (·.prepared)

/-- The two states hold the same record for a unit. -/
def sameUnit (s t : State) : Kind → Nat → Prop
  | .ramp, u => s.ramps[u]? = t.ramps[u]?
  | .dl, u => s.dls[u]? = t.dls[u]?
  | .ap, u => s.aps[u]? = t.aps[u]?
  | .li, u => s.lis[u]? = t.lis[u]?
  | .lfo, u => s.lfos[u]? = t.lfos[u]?
  | .gps, u => s.gpss[u]? = t.gpss[u]?

/-- The two states agree on the parameters, on `ERR` and on every unit. -/
def sameMachine (s t : State) : Prop :=
  s.cfg = t.cfg ∧ s.err = t.err ∧ s.ramps = t.ramps ∧ s.dls = t.dls ∧ s.aps = t.aps ∧ s.lis = t.lis ∧
    s.lfos = t.lfos ∧ s.gpss = t.gpss

/-- `rndi(q)` (`00_scope.md` R15). -/
def roundHalfUp (q : Rat) : Int := ⌊q + 1 / 2⌋

/-- `rnd32(q)` of a rational (`00_scope.md` R12), by the model's rounding. -/
def rnd32 (q : Rat) : Word := rndUnits (q.num * 2 ^ 149) q.den

/-- The rational value of a finite binary64 word (`00_scope.md` R11). -/
def val64 (v : Word64) : Rat :=
  let mag : Rat := if dexp v = 0 then dfrac v / 2 ^ 1074 else (2 ^ 52 + dfrac v) * 2 ^ dexp v / 2 ^ 1075
  if v.getLsbD 63 then -mag else mag

/-- The value between `lo` and `hi` nearest to `n` (`00_scope.md` R14). -/
def clampN (n lo hi : Nat) : Nat := min (max n lo) hi

/-- The slot `d` behind the write index `w` of a buffer of `cap` slots (`20_memory.md` R76). -/
def behind (w d cap : Nat) : Nat := (w + cap - d) % cap

/-- The remainder `0 ≤ r < n` of a rational (`46_granular.md` R204). -/
def ratMod (q : Rat) (n : Nat) : Rat := q - n * (⌊q / n⌋ : Rat)

/-- A read position in slots (`10_state.md` R53). -/
def slots (rp : Nat) : Rat := rp / 2 ^ 25

/-- Channel `c` of a pair of words. -/
def pick (a b : Word) (c : Nat) : Word := if c = 0 then a else b

/-- The buffer `m'` is `m` with the words `v c` stored at slot `i` of the channels below `n`. -/
def storedAt (depth : Nat) (m m' : Memory) (n i : Nat) (v : Nat → Word) : Prop :=
  Memory.wf depth m' = true ∧
    ∀ c j, c < 2 → memRead m' c j = if c < n ∧ j = i then v c else memRead m c j

/-- Every slot of the buffer reads +0.0 (`20_memory.md` R87). -/
def cleared (m : Memory) : Prop := ∀ c j, memRead m c j = 0x00000000#32

/-- The delay `D` and the fraction `mf` of a modulated read (`20_memory.md` R81): a modulation that is a NaN or below
+0.0 counts as +0.0, its whole part lengthens the delay, and the sum saturates at `cap - 1` with the fraction +0.0. -/
def modulated (S : DLState) (m : Word) (D : Nat) (mf : Word) : Prop :=
  let m' := if isNaN m = true ∨ flt m 0x00000000#32 = true then 0x00000000#32 else m
  if m' = 0x7F800000#32 ∨ (S.cap : Int) - 1 ≤ S.dly + ⌊fval m'⌋ then D = S.cap - 1 ∧ mf = 0x00000000#32
  else (D : Int) = S.dly + ⌊fval m'⌋ ∧ isFinite mf = true ∧ fsign mf = false ∧ fval mf = fval m' - ⌊fval m'⌋

/-- The word a modulated read returns on channel `c` (`20_memory.md` R81). -/
def interpolated (S : DLState) (c D : Nat) (mf : Word) : Word :=
  lerp (memRead S.mem c (behind S.w D S.cap)) (memRead S.mem c (behind S.w (min (D + 1) (S.cap - 1)) S.cap)) mf

/-- The output `y` and the delay input `v` of an AllPass channel (`43_allpass.md` R156, R157, R162). -/
def apWords (form : ApForm) (g x fb y v : Word) : Prop :=
  match form with
  | .outFirst => y = fadd (fmul g x) fb ∧ v = fsub x (fmul g y)
  | .inFirst => v = fsub x (fmul g fb) ∧ y = fadd (fmul g v) fb
  | .asWritten => y = fadd (fmul g x) fb ∧ v = fsub x (fmul g fb)

/-- A prepared GranularPitchShifter whose two grains stand `2H·r` behind the write index (`46_granular.md` R205). -/
def anchored (G : GPSState) : Prop :=
  slots G.rp.c0 = ratMod ((G.w : Rat) - 2 * G.H * fval G.r) G.N ∧
    slots G.rp.c1 = ratMod ((G.w : Rat) - 2 * G.H * fval G.r) G.N

/-- The word a grain at the position `p` (in slots) reads on channel `c` (`20_memory.md` R85). -/
def grainWord (m : Memory) (N c : Nat) (p : Rat) : Word :=
  lerp (memRead m c ⌊p⌋.toNat) (memRead m c ((⌊p⌋.toNat + 1) % N)) (rnd32 (p - ⌊p⌋))

/-- The first half-grain after PREPARE or CLEAR, played at the ratio with which the grains were anchored: both stand
`2H·r + k·(1 - r)` behind the write index (the proof sketch of `46_granular.md` R208), and before the first step no other
ratio has been requested (log 18). -/
def freshGrains (G : GPSState) : Prop :=
  (∀ g, grainDelay G g = 2 * (G.H : Int) * ratio25 G.r + (G.k : Int) * (2 ^ 25 - ratio25 G.r)) ∧
    (G.k = 0 → G.r = G.rSet)

/-- One `GPS_PROCESS` on the grain counters of a unit: the start of a half-grain and the advance. -/
def grainTurn (G : GPSState) : GPSState := grainAdvance (grainStart G)

/-- The words written out in `30_encoding.md` to `46_granular.md` as examples, with the commands they stand for. -/
def sampleWords : List (Packet × Instr) :=
  [ (⟨0x01000000#32, 7#32, 7#32, 7#32, 7#32⟩, .sysStatus),
    (⟨0x10000000#32, 0#32, 0x408F4000#32, 0#32, 0#32⟩, .rampPrepare 0 0x408F400000000000#64),
    (⟨0x11000000#32, 0x3F800000#32, 0#32, 0#32, 0#32⟩, .rampSetTarget 0 false 0x3F800000#32),
    (⟨0x20000100#32, 10#32, 0#32, 0#32, 0#32⟩, .dlPrepare 0 1 10#32),
    (⟨0x23000100#32, 0x3F800000#32, 0#32, 0#32, 0#32⟩, .dlProcess 0 1 0x3F800000#32 0#32),
    (⟨0x30000100#32, 0#32, 0x408F4000#32, 8#32, 0#32⟩, .apPrepare 0 1 0x408F400000000000#64 8#32),
    (⟨0x41000001#32, 0x3FC00000#32, 0#32, 0#32, 0#32⟩, .liSetCoeff 0 true 0x3FC00000#32),
    (⟨0x56000200#32, 0#32, 0#32, 0#32, 0#32⟩, .lfoNext 0 2),
    (⟨0x60000100#32, 0#32, 0x40E77000#32, 0x41200000#32, 0#32⟩, .gpsPrepare 0 1 0x40E7700000000000#64 0x41200000#32) ]

end Sys2Proof.Claims

open Sys2Proof Sys2Proof.Machine Sys2Proof.Claims

/-! ### Decoding and the step -/

/-- Decode inverts encode on every well-formed command (`30_encoding.md` R92 to R94, R97). -/
def Obligations.DecodeInvertsEncode : Prop :=
  ∀ i : Instr, i.wellFormed = true → decode (encode i) = .ok i

/-- A packet that decodes spells a well-formed command whose own packet has the same `cmd_word`: the word has no bit that
the command does not keep (`30_encoding.md` R98). -/
def Obligations.DecodedCommandKeepsEveryWordBit : Prop :=
  ∀ (p : Packet) (i : Instr), decode p = .ok i → i.wellFormed = true ∧ (encode i).word = p.word

/-- Packets that the spec writes out decode to the commands it says they are. -/
def Obligations.SpecPacketsDecode : Prop :=
  ∀ x ∈ sampleWords, decode x.1 = .ok x.2

/-- A step with a packet that decodes to `i` presented next is `exec` of `i` (`30_encoding.md` R101); the packet leaves
the command channel inside `exec`. -/
def Obligations.StepRunsTheDecodedCommand : Prop :=
  ∀ (s : State) (p : Packet) (rest : List PortEvent) (i : Instr),
    s.inp = .command p :: rest → decode p = .ok i → step s = exec i s

/-- The two other port events and the idle port (`30_encoding.md` R90, `60_exceptions.md` R233). -/
def Obligations.DeliveryAndIdleKeepTheMachine : Prop :=
  ∀ (s : State) (rest : List PortEvent),
    (s.inp = [] → step s = .next s) ∧
    (s.inp = .deliver :: rest → step s = .next { s with inp := rest, rspQ := s.rspQ.tail })

/-- Every accepted packet takes one step to a next state, leaves the channel and gives exactly one response, last in the
queue, of one of the five status codes (`30_encoding.md` R90, R101, `60_exceptions.md` R221). -/
def Obligations.EveryPacketGetsOneResponse : Prop :=
  ∀ (s : State) (p : Packet) (rest : List PortEvent), s.inp = .command p :: rest →
    ∃ (t : State) (r : Response), step s = .next t ∧ t.inp = rest ∧ t.rspQ = s.rspQ ++ [r] ∧ r.status.toNat ≤ 4

/-! ### Faults -/

/-- `60_exceptions.md` R224: ILLEGAL_OP is raised exactly for the opcodes that are not legal, whatever the other fields. -/
def Obligations.IllegalOpIsReported : Prop :=
  ∀ (s : State) (p : Packet) (rest : List PortEvent), s.inp = .command p :: rest →
    (¬ legalOp (p.word.toNat / 2 ^ 24) → step s = .next (faulted 0x01#8 0x01#8 s)) ∧
    (legalOp (p.word.toNat / 2 ^ 24) → decode p ≠ .error .illegalOp)

/-- `60_exceptions.md` R225: RESERVED_FIELD is raised exactly where a legal opcode's must-be-zero mask meets a 1; the
data words play no part. -/
def Obligations.ReservedFieldIsReported : Prop :=
  ∀ (s : State) (p : Packet) (rest : List PortEvent), s.inp = .command p :: rest →
    legalOp (p.word.toNat / 2 ^ 24) →
    (p.word &&& reservedMask (p.word.toNat / 2 ^ 24) ≠ 0#32 → step s = .next (faulted 0x02#8 0x02#8 s)) ∧
    (p.word &&& reservedMask (p.word.toNat / 2 ^ 24) = 0#32 → ∃ i, decode p = .ok i)

/-- `60_exceptions.md` R226: BAD_UNIT is raised exactly where the unit index is not below the instance count of the
command's kind; the system commands have no unit. -/
def Obligations.BadUnitIsReported : Prop :=
  ∀ (s : State) (p : Packet) (rest : List PortEvent) (i : Instr),
    s.inp = .command p :: rest → decode p = .ok i →
    (∀ k u, i.target = some (k, u) → instances s.cfg k ≤ u → step s = .next (faulted 0x03#8 0x04#8 s)) ∧
    (s.inv = true → (∀ k u, i.target = some (k, u) → u < instances s.cfg k) →
      ∀ t, step s = .next t → ∃ r, t.rspQ = s.rspQ ++ [r] ∧ r.status ≠ 0x03#8)

/-- `60_exceptions.md` R227: UNPREPARED is raised exactly where a command marked P meets a unit whose `prepared` bit is
0, and only a reset clears that bit. -/
def Obligations.UnpreparedIsReported : Prop :=
  (∀ (i : Instr) (s : State) (k : Kind) (u : Nat), i.target = some (k, u) → u < instances s.cfg k →
    (i.needsPrepared = true → preparedBit s k u = some false → exec i s = .next (faulted 0x04#8 0x08#8 s)) ∧
    ((i.needsPrepared = false ∨ preparedBit s k u = some true) →
      ∀ t, exec i s = .next t → ∃ r, t.rspQ = s.rspQ ++ [r] ∧ r.status ≠ 0x04#8)) ∧
  (∀ (s t : State) (k : Kind) (u : Nat), step s = .next t → s.inp.head? ≠ some .reset →
    preparedBit s k u = some true → preparedBit t k u = some true)

/-- `60_exceptions.md` R222: a command whose response is not 0 has changed nothing but the `ERR` bit of its code, so that
every later command runs as after a NOP, but for that bit. -/
def Obligations.FaultsArePrecise : Prop :=
  ∀ (s t : State) (p : Packet) (rest : List PortEvent) (r : Response),
    s.inp = .command p :: rest → step s = .next t → t.rspQ = s.rspQ ++ [r] → r.status ≠ 0x00#8 →
    t = faulted r.status (1#8 <<< (r.status.toNat - 1)) s ∧ r.status.toNat ≤ 4 ∧
    (∀ q : Packet, decode q = .ok .nop →
      step { s with inp := .command q :: rest } =
        .next { t with err := s.err, rspQ := s.rspQ ++ [⟨0x00#8, 0x00000000#32, 0x00000000#32⟩] })

/-- `10_state.md` R33: an `ERR` bit stays set until reset, and bits 7:4 are never set. -/
def Obligations.ErrBitsAreSticky : Prop :=
  ∀ (s t : State), step s = .next t →
    (s.inp.head? ≠ some .reset → s.err &&& t.err = s.err) ∧
    (s.inp.head? = some .reset → t.err = 0x00#8) ∧
    (s.err &&& 0xF0#8 = 0x00#8 → t.err &&& 0xF0#8 = 0x00#8)

/-- `40_sys.md` R110, R111: NOP answers zeros, SYS_STATUS the mask, and neither changes anything. -/
def Obligations.NopAndStatusComplete : Prop :=
  ∀ s : State, exec .nop s = .next (answered 0x00000000#32 0x00000000#32 s) ∧
    exec .sysStatus s = .next (answered (s.err.zeroExtend 32) 0x00000000#32 s)

/-! ### Reset and the invariants -/

/-- What a reset edge leaves: the values that `10_state.md` R58 and `70_reset_and_hazards.md` R240, R241 give, in as many
units as the parameters say; no response is pending any more. The fields that R58 calls unspecified are not stated. -/
def Obligations.ResetLeavesTheStatedValues : Prop :=
  ∀ (s : State) (rest : List PortEvent), s.inp = .reset :: rest →
    ∃ t, step s = .next t ∧ t.cfg = s.cfg ∧ t.err = 0x00#8 ∧ t.inp = rest ∧ t.rspQ = [] ∧
      t.ramps.length = s.cfg.ramp.length ∧ t.dls.length = s.cfg.dl.length ∧ t.aps.length = s.cfg.ap.length ∧
      t.lis.length = s.cfg.li.length ∧ t.lfos.length = s.cfg.lfo.length ∧ t.gpss.length = s.cfg.gps.length ∧
      (∀ r ∈ t.ramps, r.prepared = false ∧ r.ramp.cur = 0x00000000#32 ∧ r.ramp.tgt = 0x00000000#32 ∧
        r.ramp.inc = 0x00000000#32 ∧ r.ramp.cnt = 0#32) ∧
      (∀ S ∈ t.dls, S.prepared = false ∧ S.dlyReq = 1#32) ∧
      (∀ A ∈ t.aps, A.prepared = false ∧ A.dl.prepared = false ∧ A.g = 0x00000000#32 ∧ A.dtMs = 0x00000000#32 ∧
        A.fb = ⟨0x00000000#32, 0x00000000#32⟩) ∧
      (∀ L ∈ t.lis, L.prepared = false ∧ L.y = ⟨0x00000000#32, 0x00000000#32⟩ ∧ L.cr.cur = 0x3F800000#32 ∧
        L.cr.tgt = 0x3F800000#32 ∧ L.cr.inc = 0x00000000#32 ∧ L.cr.cnt = 0#32) ∧
      (∀ O ∈ t.lfos, O.prepared = false ∧ O.typ = .sine ∧ O.fq = 0x00000000#32 ∧ O.P = 0#32 ∧
        O.depthMs = 0x00000000#32 ∧ O.offsetMs = 0x00000000#32 ∧
        O.depthRamp.cur = 0x00000000#32 ∧ O.depthRamp.tgt = 0x00000000#32 ∧ O.depthRamp.inc = 0x00000000#32 ∧
        O.depthRamp.cnt = 0#32 ∧ O.offsetRamp.cur = 0x00000000#32 ∧ O.offsetRamp.tgt = 0x00000000#32 ∧
        O.offsetRamp.inc = 0x00000000#32 ∧ O.offsetRamp.cnt = 0#32) ∧
      (∀ G ∈ t.gpss, G.prepared = false ∧ G.rSet = 0x3F800000#32)

/-- The invariants hold at reset, with the default parameters (log 6). -/
def Obligations.ResetSatisfiesTheInvariants : Prop :=
  State.reset.inv = true ∧ State.reset.smoothed = true

/-- They hold after reset of every implementation with legal parameters (`00_scope.md` R7), whatever unspecified contents
its buffers hold (log 4). -/
def Obligations.EveryLegalConfigurationResetsWell : Prop :=
  ∀ (c : Config) (first : Nat), Config.wf c = true →
    (State.resetOf c first).inv = true ∧ (State.resetOf c first).smoothed = true

/-- Every step from a state that meets the invariant leads to one that does (`10_state.md` R40, R41, R44, R50, R54;
memories in canonical form). -/
def Obligations.StepKeepsTheInvariant : Prop :=
  ∀ s t : State, s.inv = true → step s = .next t → t.inv = true

/-- Every step keeps the smoothed coefficients in 0..1 and the smoothed depths and offsets finite and not negative. -/
def Obligations.StepKeepsSmoothedValuesLegal : Prop :=
  ∀ s t : State, s.inv = true → s.smoothed = true → step s = .next t → t.smoothed = true

/-! ### Arithmetic and operand forms -/

/-- `rnd32` (`00_scope.md` R12): a finite result is a nearest binary32 value, the even one of two; from 2^128 - 2^103 in
magnitude on the result is the infinity of the sign of `q`; and the sign of a result is that of `q`. -/
def Obligations.RoundingIsToNearestEven : Prop :=
  ∀ q : Rat,
    (|q| < 2 ^ 128 - 2 ^ 103 → isFinite (rnd32 q) = true ∧
      ∀ v : Word, isFinite v = true → |fval (rnd32 q) - q| ≤ |fval v - q| ∧
        (|fval (rnd32 q) - q| = |fval v - q| → fval v = fval (rnd32 q) ∨ (rnd32 q).getLsbD 0 = false)) ∧
    (2 ^ 128 - 2 ^ 103 ≤ q → rnd32 q = 0x7F800000#32) ∧
    (q ≤ -(2 ^ 128 - 2 ^ 103) → rnd32 q = 0xFF800000#32) ∧
    fsign (rnd32 q) = decide (q < 0)

/-- The four operators round the exact result once (`00_scope.md` R12): on finite operands, with the signs of exact zeros
and the division by zero as IEEE 754 gives them; a NaN operand gives the canonical NaN. -/
def Obligations.OperatorsRoundTheExactResult : Prop :=
  (∀ a b : Word, isFinite a = true → isFinite b = true →
    fadd a b = (if fval a + fval b ≠ 0 then rnd32 (fval a + fval b)
      else if fsign a = true ∧ fsign b = true then 0x80000000#32 else 0x00000000#32) ∧
    fsub a b = (if fval a - fval b ≠ 0 then rnd32 (fval a - fval b)
      else if fsign a = true ∧ fsign b = false then 0x80000000#32 else 0x00000000#32) ∧
    fmul a b = (if fval a * fval b ≠ 0 then rnd32 (fval a * fval b)
      else if fsign a ≠ fsign b then 0x80000000#32 else 0x00000000#32) ∧
    fdiv a b = (if fval b = 0 then
        (if fval a = 0 then 0x7FC00000#32 else if fsign a ≠ fsign b then 0xFF800000#32 else 0x7F800000#32)
      else if fval a ≠ 0 then rnd32 (fval a / fval b)
      else if fsign a ≠ fsign b then 0x80000000#32 else 0x00000000#32)) ∧
  (∀ a b : Word, isNaN a = true ∨ isNaN b = true →
    fadd a b = 0x7FC00000#32 ∧ fsub a b = 0x7FC00000#32 ∧ fmul a b = 0x7FC00000#32 ∧ fdiv a b = 0x7FC00000#32)

/-- The operators on infinities, as IEEE 754 gives them (`00_scope.md` R12). -/
def Obligations.OperatorsOnInfinities : Prop :=
  ∀ a b : Word, isInf a = true →
    (isFinite b = true →
      fadd a b = a ∧ fadd b a = a ∧ fsub a b = a ∧ fsub b a = fneg a ∧
      fmul a b = fmul b a ∧
      fmul a b = (if fval b = 0 then 0x7FC00000#32 else if fsign a ≠ fsign b then 0xFF800000#32 else 0x7F800000#32) ∧
      fdiv a b = (if fsign a ≠ fsign b then 0xFF800000#32 else 0x7F800000#32) ∧
      fdiv b a = (if fsign a ≠ fsign b then 0x80000000#32 else 0x00000000#32)) ∧
    (isInf b = true →
      fadd a b = (if fsign a ≠ fsign b then 0x7FC00000#32 else a) ∧
      fsub a b = (if fsign a ≠ fsign b then a else 0x7FC00000#32) ∧
      fmul a b = (if fsign a ≠ fsign b then 0xFF800000#32 else 0x7F800000#32) ∧
      fdiv a b = 0x7FC00000#32)

/-- Comparisons (`00_scope.md` R12) are those of the values; the infinities lie outermost; with a NaN they are false. -/
def Obligations.ComparisonsAreOfTheValues : Prop :=
  ∀ a b : Word,
    (isFinite a = true → isFinite b = true →
      (flt a b = true ↔ fval a < fval b) ∧ (feq a b = true ↔ fval a = fval b)) ∧
    (isFinite a = true → isInf b = true →
      flt a b = !fsign b ∧ flt b a = fsign b ∧ feq a b = false ∧ feq b a = false) ∧
    (isInf a = true → isInf b = true → flt a b = (fsign a && !fsign b) ∧ (feq a b = true ↔ a = b)) ∧
    (isNaN a = true ∨ isNaN b = true → flt a b = false ∧ feq a b = false)

/-- `clampf` (`00_scope.md` R13). -/
def Obligations.FloatClampFollowsR13 : Prop :=
  ∀ x lo hi : Word, isFinite lo = true → isFinite hi = true → fval lo ≤ fval hi →
    (isNaN x = true → clampf x lo hi = lo) ∧
    (flt x lo = true → clampf x lo hi = lo) ∧
    (flt hi x = true → clampf x lo hi = hi) ∧
    (isNaN x = false → flt x lo = false → flt hi x = false → clampf x lo hi = x) ∧
    inRange lo hi (clampf x lo hi) = true

/-- The conversions of a time or a rate to a count (`00_scope.md` R15, R16, `10_state.md` R36, R49, `46_granular.md`
R201), exact up to one rounding, for a stored rate of at least 1. -/
def Obligations.TimesConvertExactly : Prop :=
  ∀ (t : Word) (fs : Rat), isFinite t = true → 0 ≤ fval t → 1 ≤ fs →
    (ms2n t fs : Int) = roundHalfUp (fval t * fs / 1000) ∧
    ms2f t fs = (if rnd32 (fval t * fs / 1000) = 0x7F800000#32 then 0x7F7FFFFF#32 else rnd32 (fval t * fs / 1000)) ∧
    ((stepsOf t fs).toNat : Int) = min (max (roundHalfUp (fval t * fs / 1000)) 1) (2 ^ 32 - 1) ∧
    ((phaseStep t fs).toNat : Int) = min (roundHalfUp (fval t * 2 ^ 32 / fs)) (2 ^ 31) ∧
    (secondOf fs : Int) = roundHalfUp fs ∧
    (halfGrainOf t fs : Int) = roundHalfUp (fval t * fs / 2000)

/-- `fsval` (`00_scope.md` R17): NaN and values below 1 give 1, values above `FS_MAX` give `FS_MAX`, others themselves. -/
def Obligations.SampleRateOperandIsClamped : Prop :=
  ∀ (fsMax : Rat) (v : Word64), 1 ≤ fsMax →
    (dexp v = 2047 → fsval fsMax v = if dfrac v = 0 ∧ v.getLsbD 63 = false then fsMax else 1) ∧
    (dexp v < 2047 → fsval fsMax v = if val64 v < 1 then 1 else if fsMax < val64 v then fsMax else val64 v)

/-- The waveforms (`45_lfo.md` R180, R189), in every implementation: the triangle is `|p - 2^31| / 2^31` rounded once, the
sine `0.5 + 0.5·SINTURN`; both lie in +0.0..1.0, and the values at the cardinal phases are exact. -/
def Obligations.WaveformsStayInRange : Prop :=
  ∀ cfg : Config,
    (∀ p : Word, wave cfg .sine p = fadd 0x3F000000#32 (fmul 0x3F000000#32 (sinturn cfg p)) ∧
      wave cfg .triangle p = rnd32 (|(p.toNat : Rat) - 2 ^ 31| / 2 ^ 31)) ∧
    (∀ (typ : Waveform) (p : Word),
      inRange 0x00000000#32 0x3F800000#32 (wave cfg typ p) = true ∧ fsign (wave cfg typ p) = false) ∧
    wave cfg .sine 0x00000000#32 = 0x3F000000#32 ∧ wave cfg .sine 0x40000000#32 = 0x3F800000#32 ∧
    wave cfg .sine 0x80000000#32 = 0x3F000000#32 ∧ wave cfg .sine 0xC0000000#32 = 0x00000000#32 ∧
    wave cfg .triangle 0x00000000#32 = 0x3F800000#32 ∧ wave cfg .triangle 0x40000000#32 = 0x3F000000#32 ∧
    wave cfg .triangle 0x80000000#32 = 0x00000000#32 ∧ wave cfg .triangle 0xC0000000#32 = 0x3F000000#32

/-- The properties (b) to (e) that `45_lfo.md` R181 gives every sine generator hold of the model's, in every implementation:
whichever generator it has (log 7), off the cardinal phases as on them, for every `SIN_TOL` that R181 says a generator can
meet. -/
def Obligations.SineGeneratorKeepsItsProperties : Prop :=
  ∀ cfg : Config,
    (∀ p : Word, inRange 0xBF800000#32 0x3F800000#32 (sinturn cfg p) = true ∧
      (1 / 2 ^ 25 ≤ cfg.sinTol →
        |((fval (sinturn cfg p) : Rat) : ℝ) - Real.sin (2 * Real.pi * p.toNat / 2 ^ 32)| ≤ (cfg.sinTol : ℝ)) ∧
      (p.toNat ≤ 2 ^ 31 → flt (sinturn cfg p) 0x00000000#32 = false) ∧
      (2 ^ 31 ≤ p.toNat → flt 0x00000000#32 (sinturn cfg p) = false)) ∧
    sinturn cfg 0x00000000#32 = 0x00000000#32 ∧ sinturn cfg 0x40000000#32 = 0x3F800000#32 ∧
    sinturn cfg 0x80000000#32 = 0x00000000#32 ∧ sinturn cfg 0xC0000000#32 = 0xBF800000#32

/-! ### Ramp -/

/-- What `RampPrep`, `RampSet` and one `RampStep` leave (`41_ramp.md` R120 to R122). -/
def Obligations.RampFunctionsFollowTheSpec : Prop :=
  ∀ (R : Ramp) (tc v : Word) (fs : Rat) (force prep : Bool),
    rampPrep R tc fs = ⟨BitVec.ofNat 32 (clampN (ms2n tc fs) 1 (2 ^ 32 - 1)), R.tgt, R.tgt, 0x00000000#32, 0#32⟩ ∧
    ((force = true ∨ prep = false) → rampSet R v force prep = ⟨R.nsteps, v, v, 0x00000000#32, 0#32⟩) ∧
    (force = false → prep = true → rampSet R v force prep =
      ⟨R.nsteps, R.cur, v, fdiv (fsub v R.cur) (u2f R.nsteps.toNat), R.nsteps⟩) ∧
    (R.cnt.toNat = 0 → rampAdvance R = R) ∧
    (R.cnt.toNat = 1 → rampAdvance R = ⟨R.nsteps, R.tgt, R.tgt, R.inc, 0#32⟩) ∧
    (1 < R.cnt.toNat → rampAdvance R =
      ⟨R.nsteps,
        (if (flt 0x00000000#32 R.inc = true ∧ flt R.tgt (fadd R.cur R.inc) = true) ∨
            (flt R.inc 0x00000000#32 = true ∧ flt (fadd R.cur R.inc) R.tgt = true)
          then R.tgt else fadd R.cur R.inc),
        R.tgt, R.inc, BitVec.ofNat 32 (R.cnt.toNat - 1)⟩)

/-- `RAMP_PREPARE` and `RAMP_SET_TARGET` (`41_ramp.md` R123, R124). -/
def Obligations.RampSettersComplete : Prop :=
  ∀ (s : State) (u : Nat) (p : RampParams) (r : RampUnit), s.cfg.ramp[u]? = some p → s.ramps[u]? = some r →
    (∀ fs : Word64, let rate := fsval s.cfg.fsMax fs
      exec (.rampPrepare u fs) s = .next (answered (rampPrep r.ramp p.tcMs rate).nsteps 0x00000000#32
        { s with ramps := s.ramps.set u ⟨true, rate, rampPrep r.ramp p.tcMs rate⟩ })) ∧
    (∀ (force : Bool) (value : Word),
      exec (.rampSetTarget u force value) s = .next (answered 0x00000000#32 0x00000000#32
        { s with ramps := s.ramps.set u ⟨r.prepared, r.fs, rampSet r.ramp value force r.prepared⟩ }))

/-- `RAMP_GET_NEXT`, `RAMP_APPLY_GAIN`, `RAMP_APPLY_SUM` (`41_ramp.md` R125 to R127): the value before the advance, and
one step whatever the channel count. -/
def Obligations.RampStepsComplete : Prop :=
  ∀ (s : State) (u ch : Nat) (in0 in1 : Word) (p : RampParams) (r : RampUnit),
    s.cfg.ramp[u]? = some p → s.ramps[u]? = some r → r.prepared = true →
    let s' := { s with ramps := s.ramps.set u ⟨true, r.fs, rampAdvance r.ramp⟩ }
    exec (.rampGetNext u) s = .next (answered r.ramp.cur 0x00000000#32 s') ∧
    exec (.rampApplyGain u ch in0 in1) s = .next (answered (fmul in0 r.ramp.cur)
      (if 2 ≤ ch then fmul in1 r.ramp.cur else 0x00000000#32) s') ∧
    exec (.rampApplySum u ch in0 in1) s = .next (answered (fadd in0 r.ramp.cur)
      (if 2 ≤ ch then fadd in1 r.ramp.cur else 0x00000000#32) s')

/-- `41_ramp.md` R128: after a set that is not forced, from a finite value to a finite target, the successive values
(`at' k` is what call `k` + 1 of `RampStep` returns) start at the old one, never turn back, never pass the target, and are
the target itself from call `nsteps` + 1 on, from call 2 on where the distance overflows; after a forced set the very next
value is the target. -/
def Obligations.RampReachesItsTargetMonotonically : Prop :=
  ∀ (R : Ramp) (v : Word), isFinite R.cur = true → isFinite v = true → 1 ≤ R.nsteps.toNat →
    let at' : Nat → Word := fun k => (rampAdvance^[k] (rampSet R v false true)).cur
    at' 0 = R.cur ∧
    (∀ k, isFinite (at' k) = true) ∧
    (fval R.cur ≤ fval v → ∀ k, fval (at' k) ≤ fval (at' (k + 1)) ∧ fval (at' k) ≤ fval v) ∧
    (fval v ≤ fval R.cur → ∀ k, fval (at' (k + 1)) ≤ fval (at' k) ∧ fval v ≤ fval (at' k)) ∧
    (∀ k, R.nsteps.toNat ≤ k → at' k = v) ∧
    (isInf (fsub v R.cur) = true → at' 1 = v) ∧
    (∀ prep, (rampSet R v true prep).cur = v)

/-! ### DelayLine -/

/-- `DL_PREPARE` (`42_delayline.md` R130). -/
def Obligations.DelayLinePrepareCompletes : Prop :=
  ∀ (s : State) (u ch : Nat) (m : Word) (p : DLParams) (S : DLState),
    s.cfg.dl[u]? = some p → s.dls[u]? = some S → 2 ≤ p.depth →
    let cap := clampN m.toNat 1 (p.depth - 1) + 1
    let dly := clampN S.dlyReq.toNat 1 (cap - 1)
    ∃ mem', cleared mem' ∧ Memory.wf p.depth mem' = true ∧
      exec (.dlPrepare u ch m) s = .next (answered (BitVec.ofNat 32 cap) (BitVec.ofNat 32 dly)
        { s with dls := s.dls.set u ⟨true, clampN ch 1 2, cap, 0, S.dlyReq, dly, mem'⟩ })

/-- `DL_SET_DELAY` and `DL_CLEAR` (`42_delayline.md` R131, R132). -/
def Obligations.DelayLineSetAndClearComplete : Prop :=
  ∀ (s : State) (u : Nat) (n : Word) (p : DLParams) (S : DLState),
    s.cfg.dl[u]? = some p → s.dls[u]? = some S →
    (S.prepared = false →
      exec (.dlSetDelay u n) s = .next (answered 0x00000000#32 0x00000000#32
        { s with dls := s.dls.set u { S with dlyReq := n } })) ∧
    (S.prepared = true → 2 ≤ S.cap →
      exec (.dlSetDelay u n) s = .next (answered (BitVec.ofNat 32 (clampN n.toNat 1 (S.cap - 1))) 0x00000000#32
        { s with dls := s.dls.set u { S with dlyReq := n, dly := clampN n.toNat 1 (S.cap - 1) } })) ∧
    (S.prepared = true →
      ∃ mem', cleared mem' ∧ Memory.wf p.depth mem' = true ∧
        exec (.dlClear u) s = .next (answered 0x00000000#32 0x00000000#32
          { s with dls := s.dls.set u { S with mem := mem' } }))

/-- `DL_PROCESS` (`42_delayline.md` R133, `20_memory.md` R79): the inputs go to the slot at the write index, the outputs
come from `dly` slots behind it, as they stood before. -/
def Obligations.DelayLineProcessCompletes : Prop :=
  ∀ (s : State) (u ch : Nat) (in0 in1 : Word) (p : DLParams) (S : DLState),
    s.cfg.dl[u]? = some p → s.dls[u]? = some S → S.prepared = true → DLState.wf p.depth S = true →
    let n := clampN ch 1 S.nch
    let out := fun c => if c < n then memRead S.mem c (behind S.w S.dly S.cap) else 0x00000000#32
    ∃ mem', storedAt p.depth S.mem mem' n S.w (pick in0 in1) ∧
      exec (.dlProcess u ch in0 in1) s = .next (answered (out 0) (out 1)
        { s with dls := s.dls.set u { S with mem := mem', w := (S.w + 1) % S.cap } })

/-- `DL_PROCESS_MOD` (`42_delayline.md` R134, `20_memory.md` R81). -/
def Obligations.DelayLineProcessModCompletes : Prop :=
  ∀ (s : State) (u ch : Nat) (in0 in1 mod0 mod1 : Word) (p : DLParams) (S : DLState),
    s.cfg.dl[u]? = some p → s.dls[u]? = some S → S.prepared = true → DLState.wf p.depth S = true →
    let n := clampN ch 1 S.nch
    ∃ (mem' : Memory) (D : Nat → Nat) (mf : Nat → Word),
      (∀ c, modulated S (pick mod0 mod1 c) (D c) (mf c)) ∧
      storedAt p.depth S.mem mem' n S.w (pick in0 in1) ∧
      exec (.dlProcessMod u ch in0 in1 mod0 mod1) s =
        .next (answered (interpolated S 0 (D 0) (mf 0))
          (if 1 < n then interpolated S 1 (D 1) (mf 1) else 0x00000000#32)
          { s with dls := s.dls.set u { S with mem := mem', w := (S.w + 1) % S.cap } })

/-- `DL_GET_SAMPLE` and `AP_GET_SAMPLE` (`42_delayline.md` R135, `43_allpass.md` R159, `20_memory.md` R83): the word
`indexBack` slots behind the write index, and no unit changes. -/
def Obligations.TapsCompleteAndChangeNoUnit : Prop :=
  ∀ (s : State) (u ch : Nat) (k : Word),
    let tap := fun S : DLState =>
      memRead S.mem (min ch (S.nch - 1)) (behind S.w (clampN k.toNat 1 (S.cap - 1)) S.cap)
    (∀ (p : DLParams) (S : DLState), s.cfg.dl[u]? = some p → s.dls[u]? = some S → S.prepared = true →
      DLState.wf p.depth S = true → exec (.dlGetSample u ch k) s = .next (answered (tap S) 0x00000000#32 s)) ∧
    (∀ (p : APParams) (A : APState), s.cfg.ap[u]? = some p → s.aps[u]? = some A → A.prepared = true →
      A.dl.prepared = true → DLState.wf p.depth A.dl = true →
      exec (.apGetSample u ch k) s = .next (answered (tap A.dl) 0x00000000#32 s))

/-- `20_memory.md` R84: the tap at `dly` taken before a fixed step is the word that step returns, and taken after it the
word the next step returns. -/
def Obligations.TapAgreesWithTheStep : Prop :=
  ∀ (depth : Nat) (S : DLState) (n c : Nat) (x y : Chans Word), depth < 2 ^ 31 → S.prepared = true →
    DLState.wf depth S = true → n ≤ S.nch → c < n →
    dlTap S c (BitVec.ofNat 32 S.dly) = (dlFixed S n x).1.get c ∧
    dlTap (dlFixed S n x).2 c (BitVec.ofNat 32 S.dly) = (dlFixed (dlFixed S n x).2 n y).1.get c

/-- `20_memory.md` R78, `42_delayline.md` R133, R138, as a run of commands: on a cleared DelayLine the output of step `k`
is the input of step `k - dly`, or +0.0 where there is none. -/
def Obligations.DelayLineDelaysByItsSetting : Prop :=
  ∀ (s : State) (u ch : Nat) (p : DLParams) (S : DLState) (xs : List (Chans Word)),
    u < 256 → ch < 256 → s.cfg.dl[u]? = some p → s.dls[u]? = some S → S.prepared = true →
    DLState.wf p.depth S = true → cleared S.mem →
    s.inp = xs.map (fun x => .command (encode (.dlProcess u ch x.c0 x.c1))) →
    let out := fun k c => if c < clampN ch 1 S.nch ∧ S.dly ≤ k then ((xs[k - S.dly]?).map (fun x => x.get c)).getD 0#32 else 0#32
    ∃ t, core.run xs.length s = .next t ∧
      t.rspQ = s.rspQ ++ (List.range xs.length).map (fun k => ⟨0x00#8, out k 0, out k 1⟩)

/-! ### AllPass -/

/-- `AP_PREPARE` (`43_allpass.md` R150). -/
def Obligations.AllPassPrepareCompletes : Prop :=
  ∀ (s : State) (u ch : Nat) (fs : Word64) (m : Word) (p : APParams) (A : APState),
    s.cfg.ap[u]? = some p → s.aps[u]? = some A → 2 ≤ p.depth →
    let rate := fsval s.cfg.fsMax fs
    let cap := clampN m.toNat 1 (p.depth - 1) + 1
    let dly := clampN (ms2n A.dtMs rate) 1 (cap - 1)
    ∃ mem', cleared mem' ∧ Memory.wf p.depth mem' = true ∧
      exec (.apPrepare u ch fs m) s = .next (answered (BitVec.ofNat 32 cap) (BitVec.ofNat 32 dly)
        { s with aps := s.aps.set u ⟨true, rate, A.g, A.dtMs, ⟨0x00000000#32, 0x00000000#32⟩,
          ⟨true, clampN ch 1 2, cap, 0, A.dl.dlyReq, dly, mem'⟩⟩ })

/-- `AP_SET_COEFF` and `AP_SET_DELAY_TIME` (`43_allpass.md` R151, R152). -/
def Obligations.AllPassSettersComplete : Prop :=
  ∀ (s : State) (u : Nat) (x : Word) (p : APParams) (A : APState),
    s.cfg.ap[u]? = some p → s.aps[u]? = some A →
    (let g := clampf x (p.gmax ^^^ 0x80000000#32) p.gmax;
      exec (.apSetCoeff u x) s = .next (answered g 0x00000000#32 { s with aps := s.aps.set u { A with g := g } })) ∧
    (A.prepared = false →
      exec (.apSetDelayTime u x) s = .next (answered 0x00000000#32 0x00000000#32
        { s with aps := s.aps.set u { A with dtMs := clampf x 0x00000000#32 0x7F7FFFFF#32 } })) ∧
    (A.prepared = true → 2 ≤ A.dl.cap →
      let dt := clampf x 0x00000000#32 0x7F7FFFFF#32
      let dly := clampN (ms2n dt A.fs) 1 (A.dl.cap - 1)
      exec (.apSetDelayTime u x) s = .next (answered (BitVec.ofNat 32 dly) 0x00000000#32
        { s with aps := s.aps.set u { A with dtMs := dt, dl := { A.dl with dly := dly } } }))

/-- `AP_CLEAR` (`43_allpass.md` R153): the buffer and both feedback words. -/
def Obligations.AllPassClearCompletes : Prop :=
  ∀ (s : State) (u : Nat) (p : APParams) (A : APState),
    s.cfg.ap[u]? = some p → s.aps[u]? = some A → A.prepared = true →
    ∃ mem', cleared mem' ∧ Memory.wf p.depth mem' = true ∧
      exec (.apClear u) s = .next (answered 0x00000000#32 0x00000000#32
        { s with aps := s.aps.set u { A with fb := ⟨0x00000000#32, 0x00000000#32⟩, dl := { A.dl with mem := mem' } } })

/-- `AP_PROCESS` in its three forms (`43_allpass.md` R154, R156, R157, R162). -/
def Obligations.AllPassProcessCompletes : Prop :=
  ∀ (s : State) (u ch : Nat) (in0 in1 : Word) (p : APParams) (A : APState),
    s.cfg.ap[u]? = some p → s.aps[u]? = some A → A.prepared = true → A.dl.prepared = true →
    DLState.wf p.depth A.dl = true →
    let n := clampN ch 1 A.dl.nch
    let d := fun c => if c < n then memRead A.dl.mem c (behind A.dl.w A.dl.dly A.dl.cap) else A.fb.get c
    ∃ (mem' : Memory) (y v : Nat → Word),
      (∀ c, apWords p.form A.g (pick in0 in1 c) (A.fb.get c) (y c) (v c)) ∧
      storedAt p.depth A.dl.mem mem' n A.dl.w v ∧
      exec (.apProcess u ch in0 in1) s = .next (answered (y 0) (if 1 < n then y 1 else 0x00000000#32)
        { s with aps := s.aps.set u { A with fb := ⟨d 0, d 1⟩, dl := { A.dl with mem := mem', w := (A.dl.w + 1) % A.dl.cap } } })

/-- `AP_PROCESS_MOD` (`43_allpass.md` R155): the private DelayLine takes a modulated step instead. -/
def Obligations.AllPassProcessModCompletes : Prop :=
  ∀ (s : State) (u ch : Nat) (in0 in1 mod0 mod1 : Word) (p : APParams) (A : APState),
    s.cfg.ap[u]? = some p → s.aps[u]? = some A → A.prepared = true → A.dl.prepared = true →
    DLState.wf p.depth A.dl = true →
    let n := clampN ch 1 A.dl.nch
    ∃ (mem' : Memory) (y v mf : Nat → Word) (D : Nat → Nat),
      (∀ c, apWords p.form A.g (pick in0 in1 c) (A.fb.get c) (y c) (v c)) ∧
      (∀ c, modulated A.dl (pick mod0 mod1 c) (D c) (mf c)) ∧
      storedAt p.depth A.dl.mem mem' n A.dl.w v ∧
      exec (.apProcessMod u ch in0 in1 mod0 mod1) s =
        .next (answered (y 0) (if 1 < n then y 1 else 0x00000000#32)
          { s with aps := s.aps.set u { A with
                fb := ⟨interpolated A.dl 0 (D 0) (mf 0),
                  if 1 < n then interpolated A.dl 1 (D 1) (mf 1) else A.fb.c1⟩
                dl := { A.dl with mem := mem', w := (A.dl.w + 1) % A.dl.cap } } })

/-! ### LeakyIntegrator -/

/-- `LI_PREPARE`, `LI_SET_COEFF` and `LI_CLEAR` (`44_integrator.md` R170 to R172). -/
def Obligations.IntegratorSettersComplete : Prop :=
  ∀ (s : State) (u : Nat) (p : LIParams) (L : LIState), s.cfg.li[u]? = some p → s.lis[u]? = some L →
    (∀ (ch : Nat) (fs : Word64), let rate := fsval s.cfg.fsMax fs
      exec (.liPrepare u ch fs) s = .next (answered (rampPrep L.cr p.tcMs rate).nsteps 0x00000000#32
        { s with lis := s.lis.set u ⟨true, rate, clampN ch 1 2, ⟨0x00000000#32, 0x00000000#32⟩,
          rampPrep L.cr p.tcMs rate⟩ })) ∧
    (∀ (force : Bool) (x : Word), let c := clampf x 0x00000000#32 0x3F800000#32
      exec (.liSetCoeff u force x) s = .next (answered c 0x00000000#32
        { s with lis := s.lis.set u { L with cr := rampSet L.cr c force L.prepared } })) ∧
    (L.prepared = true →
      exec (.liClear u) s = .next (answered 0x00000000#32 0x00000000#32
        { s with lis := s.lis.set u { L with y := ⟨0x00000000#32, 0x00000000#32⟩ } }))

/-- `LI_PROCESS` (`44_integrator.md` R173): one coefficient and one Ramp step for all the channels. -/
def Obligations.IntegratorProcessCompletes : Prop :=
  ∀ (s : State) (u ch : Nat) (in0 in1 : Word) (p : LIParams) (L : LIState),
    s.cfg.li[u]? = some p → s.lis[u]? = some L → L.prepared = true → legalCount L.nch = true →
    let y := fun c => fadd (fmul L.cr.cur (pick in0 in1 c)) (fmul (fsub 0x3F800000#32 L.cr.cur) (L.y.get c))
    let two : Prop := 2 ≤ ch ∧ L.nch = 2
    exec (.liProcess u ch in0 in1) s = .next (answered (y 0) (if two then y 1 else 0x00000000#32)
      { s with lis := s.lis.set u { L with y := ⟨y 0, if two then y 1 else L.y.c1⟩, cr := rampAdvance L.cr } })

/-- `44_integrator.md` R175 (a), (b), (c) on one channel. At coefficient 1.0 a finite memory makes the filter pass its input,
except that -0.0 with a memory of positive sign gives +0.0; an infinite or NaN memory makes it a NaN. At +0.0 a finite input
leaves the memory, except, in the model's reading (log 19; R175 (b) names no exception), that a memory of -0.0 with an input
of positive sign gives +0.0; an infinite or NaN input makes it a NaN. A NaN input or memory always gives a NaN. -/
def Obligations.IntegratorCornerCoefficients : Prop :=
  (∀ x y : Word, isFinite y = true → isNaN x = false → liFilter 0x3F800000#32 x y =
    if x = 0x80000000#32 ∧ fsign y = false then 0x00000000#32 else x) ∧
  (∀ x y : Word, isFinite y = false → isNaN (liFilter 0x3F800000#32 x y) = true) ∧
  (∀ x y : Word, isFinite x = true → isNaN y = false → liFilter 0x00000000#32 x y =
    if y = 0x80000000#32 ∧ fsign x = false then 0x00000000#32 else y) ∧
  (∀ x y : Word, isFinite x = false → isNaN (liFilter 0x00000000#32 x y) = true) ∧
  (∀ c x y : Word, isNaN x = true ∨ isNaN y = true → isNaN (liFilter c x y) = true)

/-! ### LFO -/

/-- `LFO_PREPARE` (`45_lfo.md` R182). -/
def Obligations.LfoPrepareCompletes : Prop :=
  ∀ (s : State) (u : Nat) (fs : Word64) (p : LFOParams) (O : LFOState),
    s.cfg.lfo[u]? = some p → s.lfos[u]? = some O →
    let rate := fsval s.cfg.fsMax fs
    let K := phaseStep O.fq rate
    exec (.lfoPrepare u fs) s = .next (answered K 0x00000000#32
      { s with lfos := s.lfos.set u { O with
            prepared := true, fs := rate, K := K, P := 0#32
            depthRamp := ⟨stepsOf p.depthTcMs rate, ms2f O.depthMs rate, ms2f O.depthMs rate, 0x00000000#32, 0#32⟩
            offsetRamp := ⟨stepsOf p.offsetTcMs rate, ms2f O.offsetMs rate, ms2f O.offsetMs rate,
              0x00000000#32, 0#32⟩ } })

/-- `LFO_SET_TYPE`, `LFO_SET_FREQ`, `LFO_SET_DEPTH`, `LFO_SET_OFFSET` (`45_lfo.md` R183 to R186), on prepared and on
unprepared units. -/
def Obligations.LfoSettersComplete : Prop :=
  ∀ (s : State) (u : Nat) (force : Bool) (typ : Waveform) (x : Word) (p : LFOParams) (O : LFOState),
    s.cfg.lfo[u]? = some p → s.lfos[u]? = some O →
    let v := clampf x 0x00000000#32 0x7F7FFFFF#32
    exec (.lfoSetType u typ) s = .next (answered 0x00000000#32 0x00000000#32
      { s with lfos := s.lfos.set u { O with typ := typ } }) ∧
    (O.prepared = false →
      exec (.lfoSetFreq u x) s = .next (answered 0x00000000#32 0x00000000#32
        { s with lfos := s.lfos.set u { O with fq := v } }) ∧
      exec (.lfoSetDepth u force x) s = .next (answered 0x00000000#32 0x00000000#32
        { s with lfos := s.lfos.set u { O with depthMs := v } }) ∧
      exec (.lfoSetOffset u force x) s = .next (answered 0x00000000#32 0x00000000#32
        { s with lfos := s.lfos.set u { O with offsetMs := v } })) ∧
    (O.prepared = true →
      exec (.lfoSetFreq u x) s = .next (answered (phaseStep v O.fs) 0x00000000#32
        { s with lfos := s.lfos.set u { O with fq := v, K := phaseStep v O.fs } }) ∧
      exec (.lfoSetDepth u force x) s = .next (answered (ms2f v O.fs) 0x00000000#32
        { s with lfos := s.lfos.set u { O with depthMs := v, depthRamp := rampSet O.depthRamp (ms2f v O.fs) force true } }) ∧
      exec (.lfoSetOffset u force x) s = .next (answered (ms2f v O.fs) 0x00000000#32
        { s with lfos := s.lfos.set u { O with offsetMs := v, offsetRamp := rampSet O.offsetRamp (ms2f v O.fs) force true } }))

/-- `LFO_CLEAR` and `LFO_NEXT` (`45_lfo.md` R187, R188): the value of the phase before the advance, channel 1 a quarter
turn ahead, one step of each Ramp whatever the channel count. -/
def Obligations.LfoClearAndNextComplete : Prop :=
  ∀ (s : State) (u ch : Nat) (p : LFOParams) (O : LFOState),
    s.cfg.lfo[u]? = some p → s.lfos[u]? = some O → O.prepared = true →
    let out := fun P : Nat => fadd O.offsetRamp.cur (fmul O.depthRamp.cur (wave s.cfg O.typ (BitVec.ofNat 32 P)))
    exec (.lfoClear u) s = .next (answered 0x00000000#32 0x00000000#32
      { s with lfos := s.lfos.set u { O with P := 0#32 } }) ∧
    exec (.lfoNext u ch) s = .next (answered (out O.P.toNat)
      (if 2 ≤ ch then out ((O.P.toNat + 2 ^ 30) % 2 ^ 32) else 0x00000000#32)
      { s with lfos := s.lfos.set u { O with
            P := BitVec.ofNat 32 ((O.P.toNat + O.K.toNat) % 2 ^ 32)
            depthRamp := rampAdvance O.depthRamp
            offsetRamp := rampAdvance O.offsetRamp } })

/-- `45_lfo.md` R189: while the smoothed settings are legal, an `LFO_NEXT` output is no NaN and not negative. -/
def Obligations.LfoOutputIsNeverNegative : Prop :=
  ∀ (s t : State) (u ch : Nat) (O : LFOState), s.smoothed = true → s.lfos[u]? = some O → O.prepared = true →
    exec (.lfoNext u ch) s = .next t →
    ∃ r, t.rspQ = s.rspQ ++ [r] ∧ isNaN r.r0 = false ∧ flt r.r0 0x00000000#32 = false ∧
      isNaN r.r1 = false ∧ flt r.r1 0x00000000#32 = false

/-! ### GranularPitchShifter -/

/-- `GPS_PREPARE` (`46_granular.md` R201): sizes, cleared buffer, both grains at `2H·r` behind the write index. -/
def Obligations.GranularPrepareCompletes : Prop :=
  ∀ (s : State) (u ch : Nat) (fs : Word64) (ms : Word) (p : GPSParams) (G : GPSState),
    s.cfg.gps[u]? = some p → s.gpss[u]? = some G → 17 ≤ p.depth → inRange 0x3E800000#32 0x40000000#32 G.rSet = true →
    let rate := fsval s.cfg.fsMax fs
    let N := clampN (secondOf rate) 17 p.depth
    let H := clampN (halfGrainOf (clampf ms 0x00000000#32 0x7F7FFFFF#32) rate) 4 ((N - 1) / 4)
    ∃ G', cleared G'.mem ∧ Memory.wf p.depth G'.mem = true ∧ anchored G' ∧
      G' = { G with prepared := true, fs := rate, nch := clampN ch 1 2, N := N, H := H, w := 0, k := 0, r := G.rSet,
                    ng := false, rp := G'.rp, mem := G'.mem } ∧
      exec (.gpsPrepare u ch fs ms) s = .next (answered (BitVec.ofNat 32 N) (BitVec.ofNat 32 H)
        { s with gpss := s.gpss.set u G' })

/-- `GPS_SET_PITCH_RATIO` and `GPS_CLEAR` (`46_granular.md` R202, R203). -/
def Obligations.GranularSetAndClearComplete : Prop :=
  ∀ (s : State) (u : Nat) (x : Word) (p : GPSParams) (G : GPSState),
    s.cfg.gps[u]? = some p → s.gpss[u]? = some G →
    (let r := clampf x 0x3E800000#32 0x40000000#32;
      exec (.gpsSetPitchRatio u x) s = .next (answered r 0x00000000#32
        { s with gpss := s.gpss.set u { G with rSet := r } })) ∧
    (G.prepared = true → GPSState.wf s.cfg.fsMax p G = true →
      ∃ G', cleared G'.mem ∧ Memory.wf p.depth G'.mem = true ∧ anchored G' ∧
        G' = { G with k := 0, r := G.rSet, ng := false, rp := G'.rp, mem := G'.mem } ∧
        exec (.gpsClear u) s = .next (answered 0x00000000#32 0x00000000#32 { s with gpss := s.gpss.set u G' }))

/-- `GPS_PROCESS` (`46_granular.md` R204 to R207): write, latch and anchor at the start of a half-grain, mix the two
grains with their envelopes, advance. -/
def Obligations.GranularProcessCompletes : Prop :=
  ∀ (s : State) (u ch : Nat) (in0 in1 : Word) (p : GPSParams) (G : GPSState),
    s.cfg.gps[u]? = some p → s.gpss[u]? = some G → G.prepared = true → GPSState.wf s.cfg.fsMax p G = true →
    let n := clampN ch 1 G.nch
    let r := if G.k = 0 then G.rSet else G.r
    let new := if G.k = 0 then !G.ng else G.ng
    let posOld := slots (if new then G.rp.c0 else G.rp.c1)
    let posNew := if G.k = 0 then ratMod ((G.w : Rat) - 2 * G.H * fval r) G.N
      else slots (if new then G.rp.c1 else G.rp.c0)
    let Pk := G.k * 2 ^ 30 / G.H
    ∃ (mem' : Memory) (rp' : Chans Nat), storedAt p.depth G.mem mem' n G.w (pick in0 in1) ∧
      slots (if new then rp'.c1 else rp'.c0) = ratMod (posNew + fval r) G.N ∧
      slots (if new then rp'.c0 else rp'.c1) = ratMod (posOld + fval r) G.N ∧
      let out := fun c => fadd (fmul (sinturn s.cfg (BitVec.ofNat 32 (Pk + 2 ^ 30))) (grainWord mem' G.N c posOld))
        (fmul (sinturn s.cfg (BitVec.ofNat 32 Pk)) (grainWord mem' G.N c posNew))
      exec (.gpsProcess u ch in0 in1) s = .next (answered (out 0) (if 1 < n then out 1 else 0x00000000#32)
        { s with gpss := s.gpss.set u { G with r := r, ng := new, rp := rp', mem := mem', w := (G.w + 1) % G.N, k := (G.k + 1) % G.H } })

/-- The envelopes (`46_granular.md` R206): both weights lie in +0.0..1.0 at every step of a half-grain, and at its first
step the new grain has weight +0.0 and the old one 1.0. -/
def Obligations.EnvelopeWeightsStayInRange : Prop :=
  ∀ (cfg : Config) (p : GPSParams) (G : GPSState), G.prepared = true → GPSState.wf cfg.fsMax p G = true →
    (envelopePhase G).toNat < 2 ^ 30 ∧
    inRange 0x00000000#32 0x3F800000#32 (sinturn cfg (envelopePhase G)) = true ∧
    inRange 0x00000000#32 0x3F800000#32 (sinturn cfg (envelopePhase G + 0x40000000#32)) = true ∧
    (G.k = 0 → sinturn cfg (envelopePhase G) = 0x00000000#32 ∧
      sinturn cfg (envelopePhase G + 0x40000000#32) = 0x3F800000#32)

/-- The safety bounds of `46_granular.md` R208 where they hold (log 18): once a whole half-grain has run since PREPARE or
CLEAR the grains are placed; from then on every step reads both grains at delays 2..4H and leaves them placed, whatever
ratio is requested in between. -/
def Obligations.PlacedGrainsStaySafe : Prop :=
  ∀ (fsMax : Rat) (p : GPSParams) (G : GPSState), G.prepared = true → GPSState.wf fsMax p G = true →
    (G.k = 0 → grainsPlaced (grainTurn^[G.H] G) = true) ∧
    (grainsPlaced G = true → grainReadSafe (grainStart G) false = true ∧ grainReadSafe (grainStart G) true = true ∧
      grainsPlaced (grainTurn G) = true ∧ ∀ r : Word, grainsPlaced { G with rSet := r } = true)

/-- `46_granular.md` R208 as it is written, for every sequence of commands from reset. Expected to FAIL: a ratio set
between PREPARE and the first step moves the old grain, anchored with the earlier ratio, out of the bounds (log 18). -/
def Obligations.GrainReadsSafeAfterAnyCommands : Prop :=
  ∀ (ps : List Packet) (t : State),
    core.run ps.length { State.reset with inp := ps.map .command } = .next t →
    ∀ G ∈ t.gpss, G.prepared = true → 4 * G.H ≤ G.N - 1 ∧
      grainReadSafe (grainStart G) false = true ∧ grainReadSafe (grainStart G) true = true

/-! ### The whole machine -/

/-- `10_state.md` R30: a command changes no unit but the one it addresses, and its effect on that unit and its response
depend on no other unit. -/
def Obligations.UnitsAreIsolated : Prop :=
  (∀ (i : Instr) (s t : State), exec i s = .next t →
    t.cfg = s.cfg ∧ ∀ k u, i.target ≠ some (k, u) → sameUnit s t k u) ∧
  (∀ (i : Instr) (s s' t t' : State) (k : Kind) (u : Nat), i.target = some (k, u) →
    exec i s = .next t → exec i s' = .next t' → s.cfg = s'.cfg → s.rspQ = s'.rspQ → sameUnit s s' k u →
    sameUnit t t' k u ∧ t.rspQ = t'.rspQ)

/-- `70_reset_and_hazards.md` R253: commands to different units may change places; only their responses change places
with them. -/
def Obligations.CommandsToDifferentUnitsCommute : Prop :=
  ∀ (i j : Instr) (s a b c d : State) (x y : Kind × Nat), i.target = some x → j.target = some y → x ≠ y →
    exec i s = .next a → exec j a = .next b → exec j s = .next c → exec i c = .next d →
    sameMachine b d ∧ b.inp = d.inp ∧
      ∃ p q, b.rspQ = s.rspQ ++ [p, q] ∧ d.rspQ = s.rspQ ++ [q, p]

/-- A PREPARE command may be repeated (`41_ramp.md` R123, `70_reset_and_hazards.md` R246): the same PREPARE twice leaves the
machine as it leaves it once, and answers the same words. -/
def Obligations.PrepareIsIdempotent : Prop :=
  ∀ (i : Instr) (s a b : State),
    ((∃ u fs, i = .rampPrepare u fs) ∨ (∃ u ch m, i = .dlPrepare u ch m) ∨ (∃ u ch fs m, i = .apPrepare u ch fs m) ∨
      (∃ u ch fs, i = .liPrepare u ch fs) ∨ (∃ u fs, i = .lfoPrepare u fs) ∨
      (∃ u ch fs ms, i = .gpsPrepare u ch fs ms)) →
    exec i s = .next a → exec i a = .next b →
    sameMachine a b ∧ ∃ r, a.rspQ = s.rspQ ++ [r] ∧ b.rspQ = s.rspQ ++ [r, r]

/-! ### GranularPitchShifter: the first half-grain -/

/-- The safety bounds of `46_granular.md` R208 in the first half-grain after PREPARE or CLEAR, on the condition that no other
ratio is requested before its first step (`freshGrains`, log 18): a restart leaves fresh grains; from fresh grains every step reads both at delays 2..4H, at most N - 1, and leaves them fresh
or, at the end of the half-grain, placed; and from the first step on a newly requested ratio leaves them fresh. -/
def Obligations.FreshGrainsReadSafely : Prop :=
  (∀ G : GPSState, 4 ≤ G.H → 4 * G.H < G.N → inRange 0x3E800000#32 0x40000000#32 G.rSet = true →
    freshGrains (grainRestart G)) ∧
  (∀ (fsMax : Rat) (p : GPSParams) (G : GPSState), G.prepared = true → GPSState.wf fsMax p G = true → freshGrains G →
    4 * G.H ≤ G.N - 1 ∧ grainReadSafe (grainStart G) false = true ∧ grainReadSafe (grainStart G) true = true ∧
    (G.k + 1 < G.H → freshGrains (grainTurn G)) ∧ (G.k + 1 = G.H → grainsPlaced (grainTurn G) = true) ∧
    (G.k ≠ 0 → ∀ r : Word, freshGrains { G with rSet := r }))
end

