-- ==== Sys2Proof/Laws/Float.lean ====
section
/-! SUPPORT. The binary32 operators: the pattern of a word, the order of values, exactness of rounding on a value that is
already representable, and the range of a clamp. -/

namespace Sys2Proof.Machine

/-- Bits 30:0 are the exponent and the fraction. -/
theorem fbits_eq (v : Word) : fbits v = fexp v * 2 ^ 23 + ffrac v := by
  simp only [fbits, fexp, ffrac, BitVec.extractLsb'_toNat, Nat.shiftRight_eq_div_pow]
  omega

theorem ffrac_lt (v : Word) : ffrac v < 2 ^ 23 := by
  have := (v.extractLsb' 0 23).isLt
  simpa [ffrac] using this

theorem fexp_lt (v : Word) : fexp v < 2 ^ 8 := by
  have := (v.extractLsb' 23 8).isLt
  simpa [fexp] using this

theorem fbits_lt (v : Word) : fbits v < 2 ^ 31 := by
  have := (v.extractLsb' 0 31).isLt
  simpa [fbits] using this

/-- A word is its sign and its bits 30:0. -/
theorem signed_fbits (v : Word) : signed (fsign v) (fbits v) = v := by
  have hs : fsign v = decide (2 ^ 31 ≤ v.toNat) := by
    have := BitVec.msb_eq_decide v
    simpa [fsign, BitVec.msb_eq_getLsbD_last] using this
  have hb : fbits v = v.toNat % 2 ^ 31 := by
    simp [fbits, BitVec.extractLsb'_toNat]
  have hlt := v.isLt
  apply BitVec.eq_of_toNat_eq
  unfold signed
  rw [hs, hb]
  simp only [BitVec.toNat_ofNat]
  split
  · rename_i h
    simp only [decide_eq_true_eq] at h
    omega
  · rename_i h
    simp only [decide_eq_true_eq, not_le] at h
    omega

/-- The sign of a word put together from a sign and bits 30:0. -/
theorem fsign_signed (neg : Bool) {bits : Nat} (h : bits < 2 ^ 31) : fsign (signed neg bits) = neg := by
  have hs : ∀ v : Word, fsign v = decide (2 ^ 31 ≤ v.toNat) := by
    intro v
    have := BitVec.msb_eq_decide v
    simpa [fsign, BitVec.msb_eq_getLsbD_last] using this
  rw [hs]
  cases neg <;> simp only [signed, BitVec.toNat_ofNat] <;> simp <;> omega

/-- Bits 30:0 of a word put together from a sign and bits 30:0. -/
theorem fbits_signed (neg : Bool) {bits : Nat} (h : bits < 2 ^ 31) : fbits (signed neg bits) = bits := by
  simp only [fbits, BitVec.extractLsb'_toNat, Nat.shiftRight_eq_div_pow]
  cases neg <;> simp only [signed, BitVec.toNat_ofNat] <;> simp <;> omega

/-- A word with bits 30:0 below those of infinity is finite, so is no NaN. -/
theorem isNaN_signed (neg : Bool) {bits : Nat} (h : bits ≤ 0x7F800000) : isNaN (signed neg bits) = false := by
  have h1 := fbits_eq (signed neg bits)
  rw [fbits_signed neg (by omega)] at h1
  have h2 := ffrac_lt (signed neg bits)
  simp only [isNaN, Bool.and_eq_false_iff, beq_eq_false_iff_ne, bne_eq_false_iff_eq]
  omega

/-- Rounding never goes past infinity. -/
theorem roundMag_le (n d : Nat) : roundMag n d ≤ 0x7F800000 := by
  unfold roundMag
  dsimp only
  split <;> omega

/-- Rounding gives no NaN. -/
theorem isNaN_rndUnits (z : Int) (d : Nat) : isNaN (rndUnits z d) = false :=
  isNaN_signed _ (roundMag_le _ _)

/-- A division without remainder rounds to its quotient. -/
theorem roundEven_mul (q : Nat) {d : Nat} (h : 0 < d) : roundEven (q * d) d = q := by
  unfold roundEven
  simp only [Nat.mul_div_cancel _ h, Nat.mul_mod_left, Nat.mul_zero]
  simp [h]

/-- A value that is already a multiple `m * 2 ^ e` of its last place rounds to itself: `m` has 24 bits, or fewer with
`e` = 0. -/
theorem roundMag_exact {m e : Nat} (hm : m < 2 ^ 24) (hn : 2 ^ 23 ≤ m ∨ e = 0) (hf : e * 2 ^ 23 + m < 0x7F800000) :
    roundMag (m * 2 ^ e) 1 = e * 2 ^ 23 + m := by
  have hsh : Nat.log2 (m * 2 ^ e / 1) - 23 = e := by
    rw [Nat.div_one]
    rcases hn with h | h
    · have hne : m * 2 ^ e ≠ 0 := by positivity
      have hlog : Nat.log2 (m * 2 ^ e) = e + 23 := by
        rw [Nat.log2_eq_iff hne]
        constructor
        · rw [pow_add, Nat.mul_comm]; exact Nat.mul_le_mul_right _ h
        · rw [show e + 23 + 1 = 24 + e by omega, pow_add]; exact Nat.mul_lt_mul_of_pos_right hm (by positivity)
      omega
    · subst h
      by_cases h0 : m = 0
      · subst h0; simp
      · have : Nat.log2 (m * 2 ^ 0) < 24 := by
          rw [Nat.log2_lt (by simpa using h0)]; simpa using hm
        omega
  unfold roundMag
  dsimp only
  rw [hsh, Nat.one_mul, roundEven_mul m (by positivity), if_pos hf]

/-- Rounding a finite word's own magnitude gives its bits back: an exact result is not changed by rounding. -/
theorem roundMag_fmag {v : Word} (h : isFinite v = true) : roundMag (fmag v) 1 = fbits v := by
  have he := fexp_lt v
  have hf := ffrac_lt v
  have hne : fexp v ≠ 255 := by simpa [isFinite] using h
  rw [fbits_eq]
  unfold fmag
  split
  · rename_i h0
    have := roundMag_exact (m := ffrac v) (e := 0) (by omega) (.inr rfl) (by omega)
    simpa [h0] using this
  · rename_i h0
    rw [roundMag_exact (by omega) (.inl (by omega)) (by omega)]
    omega

/-- The magnitude of finite words is strictly monotonic in their bits. -/
theorem fmag_lt_fmag {a b : Word} (h : fbits a < fbits b) : fmag a < fmag b := by
  have ha := ffrac_lt a
  have hb := ffrac_lt b
  rw [fbits_eq, fbits_eq] at h
  have hle : fexp a ≤ fexp b := by omega
  unfold fmag
  by_cases hb0 : fexp b = 0
  · have ha0 : fexp a = 0 := by omega
    simp only [ha0, hb0, if_true]; omega
  · simp only [hb0, if_false]
    by_cases ha0 : fexp a = 0
    · simp only [ha0, if_true]
      calc ffrac a < 2 ^ 23 + ffrac b := by omega
        _ = (2 ^ 23 + ffrac b) * 1 := by omega
        _ ≤ _ := Nat.mul_le_mul_left _ Nat.one_le_two_pow
    · simp only [ha0, if_false]
      by_cases heq : fexp a = fexp b
      · rw [heq]
        exact Nat.mul_lt_mul_of_pos_right (by omega) (by positivity)
      · have hp : 2 ^ (fexp a - 1) * 2 ≤ 2 ^ (fexp b - 1) := by
          rw [← pow_succ]; exact Nat.pow_le_pow_right (by omega) (by omega)
        calc (2 ^ 23 + ffrac a) * 2 ^ (fexp a - 1) < 2 ^ 24 * 2 ^ (fexp a - 1) :=
              Nat.mul_lt_mul_of_pos_right (by omega) (by positivity)
          _ = 2 ^ 23 * (2 ^ (fexp a - 1) * 2) := by ring
          _ ≤ 2 ^ 23 * 2 ^ (fexp b - 1) := Nat.mul_le_mul_left _ hp
          _ ≤ _ := Nat.mul_le_mul_right _ (by omega)

/-- The order of magnitudes is the order of bits 30:0. -/
theorem fmag_lt_iff (a b : Word) : fmag a < fmag b ↔ fbits a < fbits b := by
  refine ⟨fun h => ?_, fmag_lt_fmag⟩
  by_contra hc
  rcases Nat.lt_or_ge (fbits b) (fbits a) with h1 | h1
  · have := fmag_lt_fmag h1; omega
  · have he : fbits a = fbits b := by omega
    have ha := fbits_eq a
    have hb := fbits_eq b
    have h3 := ffrac_lt a
    have h4 := ffrac_lt b
    have h5 : fexp a = fexp b := by omega
    have h6 : ffrac a = ffrac b := by omega
    unfold fmag at h
    rw [h5, h6] at h
    omega

/-- A finite word is zero in magnitude exactly where its bits 30:0 are. -/
theorem fmag_eq_zero_iff (v : Word) : fmag v = 0 ↔ fbits v = 0 := by
  have hf := ffrac_lt v
  rw [fbits_eq]
  unfold fmag
  split
  · omega
  · constructor
    · intro h
      have : 0 < (2 ^ 23 + ffrac v) * 2 ^ (fexp v - 1) := by positivity
      omega
    · intro h; omega

/-- The key by which words are compared orders finite words as their values (`00_scope.md` R12). -/
theorem fkey_lt_iff (a b : Word) : fkey a < fkey b ↔ funits a < funits b := by
  have h1 := fmag_lt_iff a b
  have h2 := fmag_lt_iff b a
  have h3 := fmag_eq_zero_iff a
  have h4 := fmag_eq_zero_iff b
  unfold fkey funits
  cases fsign a <;> cases fsign b <;> simp <;> omega

/-- `a < b` on finite words is the order of their values (`00_scope.md` R12). -/
theorem flt_iff_fval {a b : Word} (ha : isFinite a = true) (hb : isFinite b = true) :
    flt a b = true ↔ fval a < fval b := by
  have na : isNaN a = false := by simp only [isFinite, bne_iff_ne] at ha; simp [isNaN, ha]
  have nb : isNaN b = false := by simp only [isFinite, bne_iff_ne] at hb; simp [isNaN, hb]
  have hu : (0 : Rat) < (unitsPerOne : Rat) := by
    have : 0 < unitsPerOne := by decide
    exact_mod_cast this
  simp only [flt, na, nb, Bool.not_false, Bool.true_and, decide_eq_true_eq, fkey_lt_iff, fval, Rat.mkRat_eq_div]
  rw [div_lt_div_iff_of_pos_right hu]
  exact_mod_cast Iff.rfl

/-- No word is below itself. -/
@[simp] theorem flt_self (a : Word) : flt a a = false := by simp [flt]

/-- A clamp between two bounds in order gives a value in range (`00_scope.md` R13). -/
theorem clampf_inRange {x lo hi : Word} (hl : isNaN lo = false) (hh : isNaN hi = false) (h : flt hi lo = false) :
    inRange lo hi (clampf x lo hi) = true := by
  unfold clampf
  split
  · simp [inRange, hl, h]
  · rename_i hx
    split
    · simp [inRange, hl, h]
    · rename_i h1
      split
      · simp [inRange, hh, h]
      · rename_i h2
        simp [inRange, hx, h1, h2]

/-- `ms2f` gives a finite word that is not negative (`00_scope.md` R16). -/
theorem ms2f_inRange (t : Word) (fs : Rat) : inRange 0#32 maxF (ms2f t fs) = true := by
  unfold ms2f
  dsimp only
  split
  · rename_i h
    have hn := isNaN_signed false (bits := roundMag (fmag t * fs.num.natAbs) (1000 * fs.den)) (by omega)
    have hk : fkey (signed false (roundMag (fmag t * fs.num.natAbs) (1000 * fs.den))) =
        roundMag (fmag t * fs.num.natAbs) (1000 * fs.den) := by
      simp [fkey, fsign_signed false (show roundMag (fmag t * fs.num.natAbs) (1000 * fs.den) < 2 ^ 31 by omega),
        fbits_signed false (show roundMag (fmag t * fs.num.natAbs) (1000 * fs.den) < 2 ^ 31 by omega)]
    have h0 : fkey 0#32 = 0 := by decide
    have hm : fkey maxF = 0x7F7FFFFF := by decide
    simp only [inRange, hn, Bool.not_false, Bool.true_and, Bool.and_eq_true, Bool.not_eq_true']
    constructor
    · simp only [flt, hk, h0, Bool.and_eq_false_iff, decide_eq_false_iff_not]; right; omega
    · simp only [flt, hk, hm, Bool.and_eq_false_iff, decide_eq_false_iff_not]; right; omega
  · decide

end Sys2Proof.Machine
end

