-- ==== Sys2Proof/Laws/State.lean ====
section
/-! SUPPORT. One lemma for each field under each named update of the state, true by rfl, so that no later proof
unfolds a record update. -/

namespace Sys2Proof.Machine

@[simp] theorem answer_cfg (st : Byte) (r0 r1 : Word) (s : State) : (s.answer st r0 r1).cfg = s.cfg := rfl
@[simp] theorem answer_err (st : Byte) (r0 r1 : Word) (s : State) : (s.answer st r0 r1).err = s.err := rfl
@[simp] theorem answer_ramps (st : Byte) (r0 r1 : Word) (s : State) : (s.answer st r0 r1).ramps = s.ramps := rfl
@[simp] theorem answer_dls (st : Byte) (r0 r1 : Word) (s : State) : (s.answer st r0 r1).dls = s.dls := rfl
@[simp] theorem answer_aps (st : Byte) (r0 r1 : Word) (s : State) : (s.answer st r0 r1).aps = s.aps := rfl
@[simp] theorem answer_lis (st : Byte) (r0 r1 : Word) (s : State) : (s.answer st r0 r1).lis = s.lis := rfl
@[simp] theorem answer_lfos (st : Byte) (r0 r1 : Word) (s : State) : (s.answer st r0 r1).lfos = s.lfos := rfl
@[simp] theorem answer_gpss (st : Byte) (r0 r1 : Word) (s : State) : (s.answer st r0 r1).gpss = s.gpss := rfl
@[simp] theorem answer_inp (st : Byte) (r0 r1 : Word) (s : State) : (s.answer st r0 r1).inp = s.inp.tail := rfl
@[simp] theorem answer_rspQ (st : Byte) (r0 r1 : Word) (s : State) : (s.answer st r0 r1).rspQ = s.rspQ ++ [⟨st, r0, r1⟩] := rfl
@[simp] theorem answer_fresh (st : Byte) (r0 r1 : Word) (s : State) : (s.answer st r0 r1).fresh = s.fresh := rfl

@[simp] theorem complete_cfg (r0 r1 : Word) (s : State) : (complete r0 r1 s).cfg = s.cfg := rfl
@[simp] theorem complete_err (r0 r1 : Word) (s : State) : (complete r0 r1 s).err = s.err := rfl
@[simp] theorem complete_ramps (r0 r1 : Word) (s : State) : (complete r0 r1 s).ramps = s.ramps := rfl
@[simp] theorem complete_dls (r0 r1 : Word) (s : State) : (complete r0 r1 s).dls = s.dls := rfl
@[simp] theorem complete_aps (r0 r1 : Word) (s : State) : (complete r0 r1 s).aps = s.aps := rfl
@[simp] theorem complete_lis (r0 r1 : Word) (s : State) : (complete r0 r1 s).lis = s.lis := rfl
@[simp] theorem complete_lfos (r0 r1 : Word) (s : State) : (complete r0 r1 s).lfos = s.lfos := rfl
@[simp] theorem complete_gpss (r0 r1 : Word) (s : State) : (complete r0 r1 s).gpss = s.gpss := rfl
@[simp] theorem complete_inp (r0 r1 : Word) (s : State) : (complete r0 r1 s).inp = s.inp.tail := rfl
@[simp] theorem complete_rspQ (r0 r1 : Word) (s : State) : (complete r0 r1 s).rspQ = s.rspQ ++ [⟨0x00#8, r0, r1⟩] := rfl
@[simp] theorem complete_fresh (r0 r1 : Word) (s : State) : (complete r0 r1 s).fresh = s.fresh := rfl

@[simp] theorem takeFault_cfg (f : FaultCode) (s : State) : (takeFault f s).cfg = s.cfg := rfl
@[simp] theorem takeFault_err (f : FaultCode) (s : State) : (takeFault f s).err = raiseErr s.err f := rfl
@[simp] theorem takeFault_ramps (f : FaultCode) (s : State) : (takeFault f s).ramps = s.ramps := rfl
@[simp] theorem takeFault_dls (f : FaultCode) (s : State) : (takeFault f s).dls = s.dls := rfl
@[simp] theorem takeFault_aps (f : FaultCode) (s : State) : (takeFault f s).aps = s.aps := rfl
@[simp] theorem takeFault_lis (f : FaultCode) (s : State) : (takeFault f s).lis = s.lis := rfl
@[simp] theorem takeFault_lfos (f : FaultCode) (s : State) : (takeFault f s).lfos = s.lfos := rfl
@[simp] theorem takeFault_gpss (f : FaultCode) (s : State) : (takeFault f s).gpss = s.gpss := rfl
@[simp] theorem takeFault_inp (f : FaultCode) (s : State) : (takeFault f s).inp = s.inp.tail := rfl
@[simp] theorem takeFault_rspQ (f : FaultCode) (s : State) : (takeFault f s).rspQ = s.rspQ ++ [⟨faultCode f, 0#32, 0#32⟩] := rfl
@[simp] theorem takeFault_fresh (f : FaultCode) (s : State) : (takeFault f s).fresh = s.fresh := rfl

@[simp] theorem putRamp_cfg (u : Nat) (r : RampUnit) (s : State) : (s.putRamp u r).cfg = s.cfg := rfl
@[simp] theorem putRamp_err (u : Nat) (r : RampUnit) (s : State) : (s.putRamp u r).err = s.err := rfl
@[simp] theorem putRamp_ramps (u : Nat) (r : RampUnit) (s : State) : (s.putRamp u r).ramps = s.ramps.set u r := rfl
@[simp] theorem putRamp_dls (u : Nat) (r : RampUnit) (s : State) : (s.putRamp u r).dls = s.dls := rfl
@[simp] theorem putRamp_aps (u : Nat) (r : RampUnit) (s : State) : (s.putRamp u r).aps = s.aps := rfl
@[simp] theorem putRamp_lis (u : Nat) (r : RampUnit) (s : State) : (s.putRamp u r).lis = s.lis := rfl
@[simp] theorem putRamp_lfos (u : Nat) (r : RampUnit) (s : State) : (s.putRamp u r).lfos = s.lfos := rfl
@[simp] theorem putRamp_gpss (u : Nat) (r : RampUnit) (s : State) : (s.putRamp u r).gpss = s.gpss := rfl
@[simp] theorem putRamp_inp (u : Nat) (r : RampUnit) (s : State) : (s.putRamp u r).inp = s.inp := rfl
@[simp] theorem putRamp_rspQ (u : Nat) (r : RampUnit) (s : State) : (s.putRamp u r).rspQ = s.rspQ := rfl
@[simp] theorem putRamp_fresh (u : Nat) (r : RampUnit) (s : State) : (s.putRamp u r).fresh = s.fresh := rfl

@[simp] theorem putDl_cfg (u : Nat) (r : DLState) (s : State) : (s.putDl u r).cfg = s.cfg := rfl
@[simp] theorem putDl_err (u : Nat) (r : DLState) (s : State) : (s.putDl u r).err = s.err := rfl
@[simp] theorem putDl_ramps (u : Nat) (r : DLState) (s : State) : (s.putDl u r).ramps = s.ramps := rfl
@[simp] theorem putDl_dls (u : Nat) (r : DLState) (s : State) : (s.putDl u r).dls = s.dls.set u r := rfl
@[simp] theorem putDl_aps (u : Nat) (r : DLState) (s : State) : (s.putDl u r).aps = s.aps := rfl
@[simp] theorem putDl_lis (u : Nat) (r : DLState) (s : State) : (s.putDl u r).lis = s.lis := rfl
@[simp] theorem putDl_lfos (u : Nat) (r : DLState) (s : State) : (s.putDl u r).lfos = s.lfos := rfl
@[simp] theorem putDl_gpss (u : Nat) (r : DLState) (s : State) : (s.putDl u r).gpss = s.gpss := rfl
@[simp] theorem putDl_inp (u : Nat) (r : DLState) (s : State) : (s.putDl u r).inp = s.inp := rfl
@[simp] theorem putDl_rspQ (u : Nat) (r : DLState) (s : State) : (s.putDl u r).rspQ = s.rspQ := rfl
@[simp] theorem putDl_fresh (u : Nat) (r : DLState) (s : State) : (s.putDl u r).fresh = s.fresh := rfl

@[simp] theorem putAp_cfg (u : Nat) (r : APState) (s : State) : (s.putAp u r).cfg = s.cfg := rfl
@[simp] theorem putAp_err (u : Nat) (r : APState) (s : State) : (s.putAp u r).err = s.err := rfl
@[simp] theorem putAp_ramps (u : Nat) (r : APState) (s : State) : (s.putAp u r).ramps = s.ramps := rfl
@[simp] theorem putAp_dls (u : Nat) (r : APState) (s : State) : (s.putAp u r).dls = s.dls := rfl
@[simp] theorem putAp_aps (u : Nat) (r : APState) (s : State) : (s.putAp u r).aps = s.aps.set u r := rfl
@[simp] theorem putAp_lis (u : Nat) (r : APState) (s : State) : (s.putAp u r).lis = s.lis := rfl
@[simp] theorem putAp_lfos (u : Nat) (r : APState) (s : State) : (s.putAp u r).lfos = s.lfos := rfl
@[simp] theorem putAp_gpss (u : Nat) (r : APState) (s : State) : (s.putAp u r).gpss = s.gpss := rfl
@[simp] theorem putAp_inp (u : Nat) (r : APState) (s : State) : (s.putAp u r).inp = s.inp := rfl
@[simp] theorem putAp_rspQ (u : Nat) (r : APState) (s : State) : (s.putAp u r).rspQ = s.rspQ := rfl
@[simp] theorem putAp_fresh (u : Nat) (r : APState) (s : State) : (s.putAp u r).fresh = s.fresh := rfl

@[simp] theorem putLi_cfg (u : Nat) (r : LIState) (s : State) : (s.putLi u r).cfg = s.cfg := rfl
@[simp] theorem putLi_err (u : Nat) (r : LIState) (s : State) : (s.putLi u r).err = s.err := rfl
@[simp] theorem putLi_ramps (u : Nat) (r : LIState) (s : State) : (s.putLi u r).ramps = s.ramps := rfl
@[simp] theorem putLi_dls (u : Nat) (r : LIState) (s : State) : (s.putLi u r).dls = s.dls := rfl
@[simp] theorem putLi_aps (u : Nat) (r : LIState) (s : State) : (s.putLi u r).aps = s.aps := rfl
@[simp] theorem putLi_lis (u : Nat) (r : LIState) (s : State) : (s.putLi u r).lis = s.lis.set u r := rfl
@[simp] theorem putLi_lfos (u : Nat) (r : LIState) (s : State) : (s.putLi u r).lfos = s.lfos := rfl
@[simp] theorem putLi_gpss (u : Nat) (r : LIState) (s : State) : (s.putLi u r).gpss = s.gpss := rfl
@[simp] theorem putLi_inp (u : Nat) (r : LIState) (s : State) : (s.putLi u r).inp = s.inp := rfl
@[simp] theorem putLi_rspQ (u : Nat) (r : LIState) (s : State) : (s.putLi u r).rspQ = s.rspQ := rfl
@[simp] theorem putLi_fresh (u : Nat) (r : LIState) (s : State) : (s.putLi u r).fresh = s.fresh := rfl

@[simp] theorem putLfo_cfg (u : Nat) (r : LFOState) (s : State) : (s.putLfo u r).cfg = s.cfg := rfl
@[simp] theorem putLfo_err (u : Nat) (r : LFOState) (s : State) : (s.putLfo u r).err = s.err := rfl
@[simp] theorem putLfo_ramps (u : Nat) (r : LFOState) (s : State) : (s.putLfo u r).ramps = s.ramps := rfl
@[simp] theorem putLfo_dls (u : Nat) (r : LFOState) (s : State) : (s.putLfo u r).dls = s.dls := rfl
@[simp] theorem putLfo_aps (u : Nat) (r : LFOState) (s : State) : (s.putLfo u r).aps = s.aps := rfl
@[simp] theorem putLfo_lis (u : Nat) (r : LFOState) (s : State) : (s.putLfo u r).lis = s.lis := rfl
@[simp] theorem putLfo_lfos (u : Nat) (r : LFOState) (s : State) : (s.putLfo u r).lfos = s.lfos.set u r := rfl
@[simp] theorem putLfo_gpss (u : Nat) (r : LFOState) (s : State) : (s.putLfo u r).gpss = s.gpss := rfl
@[simp] theorem putLfo_inp (u : Nat) (r : LFOState) (s : State) : (s.putLfo u r).inp = s.inp := rfl
@[simp] theorem putLfo_rspQ (u : Nat) (r : LFOState) (s : State) : (s.putLfo u r).rspQ = s.rspQ := rfl
@[simp] theorem putLfo_fresh (u : Nat) (r : LFOState) (s : State) : (s.putLfo u r).fresh = s.fresh := rfl

@[simp] theorem putGps_cfg (u : Nat) (r : GPSState) (s : State) : (s.putGps u r).cfg = s.cfg := rfl
@[simp] theorem putGps_err (u : Nat) (r : GPSState) (s : State) : (s.putGps u r).err = s.err := rfl
@[simp] theorem putGps_ramps (u : Nat) (r : GPSState) (s : State) : (s.putGps u r).ramps = s.ramps := rfl
@[simp] theorem putGps_dls (u : Nat) (r : GPSState) (s : State) : (s.putGps u r).dls = s.dls := rfl
@[simp] theorem putGps_aps (u : Nat) (r : GPSState) (s : State) : (s.putGps u r).aps = s.aps := rfl
@[simp] theorem putGps_lis (u : Nat) (r : GPSState) (s : State) : (s.putGps u r).lis = s.lis := rfl
@[simp] theorem putGps_lfos (u : Nat) (r : GPSState) (s : State) : (s.putGps u r).lfos = s.lfos := rfl
@[simp] theorem putGps_gpss (u : Nat) (r : GPSState) (s : State) : (s.putGps u r).gpss = s.gpss.set u r := rfl
@[simp] theorem putGps_inp (u : Nat) (r : GPSState) (s : State) : (s.putGps u r).inp = s.inp := rfl
@[simp] theorem putGps_rspQ (u : Nat) (r : GPSState) (s : State) : (s.putGps u r).rspQ = s.rspQ := rfl
@[simp] theorem putGps_fresh (u : Nat) (r : GPSState) (s : State) : (s.putGps u r).fresh = s.fresh := rfl

@[simp] theorem deliverResponse_cfg (s : State) : (deliverResponse s).cfg = s.cfg := rfl
@[simp] theorem deliverResponse_err (s : State) : (deliverResponse s).err = s.err := rfl
@[simp] theorem deliverResponse_ramps (s : State) : (deliverResponse s).ramps = s.ramps := rfl
@[simp] theorem deliverResponse_dls (s : State) : (deliverResponse s).dls = s.dls := rfl
@[simp] theorem deliverResponse_aps (s : State) : (deliverResponse s).aps = s.aps := rfl
@[simp] theorem deliverResponse_lis (s : State) : (deliverResponse s).lis = s.lis := rfl
@[simp] theorem deliverResponse_lfos (s : State) : (deliverResponse s).lfos = s.lfos := rfl
@[simp] theorem deliverResponse_gpss (s : State) : (deliverResponse s).gpss = s.gpss := rfl
@[simp] theorem deliverResponse_inp (s : State) : (deliverResponse s).inp = s.inp.tail := rfl
@[simp] theorem deliverResponse_rspQ (s : State) : (deliverResponse s).rspQ = s.rspQ.tail := rfl
@[simp] theorem deliverResponse_fresh (s : State) : (deliverResponse s).fresh = s.fresh := rfl

@[simp] theorem resetEdge_cfg (s : State) : (resetEdge s).cfg = s.cfg := rfl
@[simp] theorem resetEdge_err (s : State) : (resetEdge s).err = 0#8 := rfl
@[simp] theorem resetEdge_ramps (s : State) : (resetEdge s).ramps = s.cfg.ramp.map fun _ => RampUnit.reset := rfl
@[simp] theorem resetEdge_dls (s : State) : (resetEdge s).dls = s.cfg.dl.mapIdx fun u _ => DLState.reset (s.fresh + u) := rfl
@[simp] theorem resetEdge_aps (s : State) :
    (resetEdge s).aps = s.cfg.ap.mapIdx fun u _ => APState.reset (s.fresh + s.cfg.dl.length + u) := rfl
@[simp] theorem resetEdge_lis (s : State) : (resetEdge s).lis = s.cfg.li.map fun _ => LIState.reset := rfl
@[simp] theorem resetEdge_lfos (s : State) : (resetEdge s).lfos = s.cfg.lfo.map fun _ => LFOState.reset := rfl
@[simp] theorem resetEdge_gpss (s : State) : (resetEdge s).gpss =
    s.cfg.gps.mapIdx fun u _ => GPSState.reset (s.fresh + s.cfg.dl.length + s.cfg.ap.length + u) := rfl
@[simp] theorem resetEdge_inp (s : State) : (resetEdge s).inp = s.inp.tail := rfl
@[simp] theorem resetEdge_rspQ (s : State) : (resetEdge s).rspQ = [] := rfl
@[simp] theorem resetEdge_fresh (s : State) :
    (resetEdge s).fresh = s.fresh + s.cfg.dl.length + s.cfg.ap.length + s.cfg.gps.length := rfl

@[simp] theorem withFetchWord_cfg (nbits w : Nat) (s : State) : (s.withFetchWord nbits w).cfg = s.cfg := rfl
@[simp] theorem withFetchWord_err (nbits w : Nat) (s : State) : (s.withFetchWord nbits w).err = s.err := rfl
@[simp] theorem withFetchWord_ramps (nbits w : Nat) (s : State) : (s.withFetchWord nbits w).ramps = s.ramps := rfl
@[simp] theorem withFetchWord_dls (nbits w : Nat) (s : State) : (s.withFetchWord nbits w).dls = s.dls := rfl
@[simp] theorem withFetchWord_aps (nbits w : Nat) (s : State) : (s.withFetchWord nbits w).aps = s.aps := rfl
@[simp] theorem withFetchWord_lis (nbits w : Nat) (s : State) : (s.withFetchWord nbits w).lis = s.lis := rfl
@[simp] theorem withFetchWord_lfos (nbits w : Nat) (s : State) : (s.withFetchWord nbits w).lfos = s.lfos := rfl
@[simp] theorem withFetchWord_gpss (nbits w : Nat) (s : State) : (s.withFetchWord nbits w).gpss = s.gpss := rfl
@[simp] theorem withFetchWord_inp (nbits w : Nat) (s : State) : (s.withFetchWord nbits w).inp = .command (Packet.ofBits nbits w) :: s.inp := rfl
@[simp] theorem withFetchWord_rspQ (nbits w : Nat) (s : State) : (s.withFetchWord nbits w).rspQ = s.rspQ := rfl
@[simp] theorem withFetchWord_fresh (nbits w : Nat) (s : State) : (s.withFetchWord nbits w).fresh = s.fresh := rfl

@[simp] theorem dlSize_prepared (S : DLState) (depth ch : Nat) (m : Word) (req : Nat) :
    (dlSize S depth ch m req).prepared = true := rfl
@[simp] theorem dlSize_nch (S : DLState) (depth ch : Nat) (m : Word) (req : Nat) :
    (dlSize S depth ch m req).nch = nchMax ch := rfl
@[simp] theorem dlSize_cap (S : DLState) (depth ch : Nat) (m : Word) (req : Nat) :
    (dlSize S depth ch m req).cap = clampu m.toNat 1 (depth - 1) + 1 := rfl
@[simp] theorem dlSize_w (S : DLState) (depth ch : Nat) (m : Word) (req : Nat) :
    (dlSize S depth ch m req).w = 0 := rfl
@[simp] theorem dlSize_dlyReq (S : DLState) (depth ch : Nat) (m : Word) (req : Nat) :
    (dlSize S depth ch m req).dlyReq = S.dlyReq := rfl
@[simp] theorem dlSize_dly (S : DLState) (depth ch : Nat) (m : Word) (req : Nat) :
    (dlSize S depth ch m req).dly = clampu req 1 (clampu m.toNat 1 (depth - 1)) := rfl
@[simp] theorem dlSize_mem (S : DLState) (depth ch : Nat) (m : Word) (req : Nat) :
    (dlSize S depth ch m req).mem = memClear := rfl

@[simp] theorem memWrite_fill (m : Memory) (n i : Nat) (v : Chans Word) : (memWrite m n i v).fill = m.fill := rfl
@[simp] theorem memClear_fill : memClear.fill = .zero := rfl
@[simp] theorem Memory.reset_fill (n : Nat) : (Memory.reset n).fill = .unspecified n := rfl

@[simp] theorem Chans.get_zero {α : Type} (x : Chans α) : x.get 0 = x.c0 := rfl
@[simp] theorem Chans.get_one {α : Type} (x : Chans α) : x.get 1 = x.c1 := rfl
@[simp] theorem Chans.upTo_c0 {α : Type} (n : Nat) (f : Nat → α) (x : Chans α) :
    (Chans.upTo n f x).c0 = if 0 < n then f 0 else x.c0 := rfl
@[simp] theorem Chans.upTo_c1 {α : Type} (n : Nat) (f : Nat → α) (x : Chans α) :
    (Chans.upTo n f x).c1 = if 1 < n then f 1 else x.c1 := rfl

/-- A channel below 2 is replaced by `f` exactly where it is below `n`. -/
theorem Chans.get_upTo {α : Type} (n : Nat) (f : Nat → α) (x : Chans α) {c : Nat} (hc : c < 2) :
    (Chans.upTo n f x).get c = if c < n then f c else x.get c := by
  match c, hc with
  | 0, _ => rfl
  | 1, _ => rfl

end Sys2Proof.Machine
end

