-- ==== Sys2Proof/Laws/Memory.lean ====
section
/-! SUPPORT. What the buffer memory operations do: a read after a write, the canonical form, and the index
arithmetic of `20_memory.md` R76 and R77. -/

namespace Sys2Proof.Machine

/-- A write gives its word back at its slot and leaves every other slot alone. -/
theorem bufRead_bufWrite {d : Nat → Word} {lo : Nat} {b : Buf} (hb : bufWfFrom d lo b = true) (i j : Nat) (v : Word) :
    bufRead d (bufWrite d b i v) j = if j = i then v else bufRead d b j := by
  induction b generalizing lo with
  | nil =>
    by_cases hv : v = d i
    · by_cases hj : j = i <;> simp [bufWrite, bufRead, hv, hj]
    · simp [bufWrite, bufRead, hv]
  | cons e rest ih =>
    obtain ⟨a, x⟩ := e
    simp only [bufWfFrom, Bool.and_eq_true, decide_eq_true_eq] at hb
    obtain ⟨⟨-, -⟩, hr⟩ := hb
    have absent : ∀ {l : Nat} {r : Buf} {k : Nat}, bufWfFrom d l r = true → k < l → bufRead d r k = d k := by
      intro l r
      induction r generalizing l with
      | nil => intros; rfl
      | cons f r ih' =>
        intro k hw hk
        simp only [bufWfFrom, Bool.and_eq_true, decide_eq_true_eq] at hw
        have hne : k ≠ f.1 := by omega
        simp only [bufRead, hne, if_false]
        exact ih' hw.2 (by omega)
    unfold bufWrite
    split
    · rename_i hlt
      split
      · rename_i hv
        by_cases hj : j = i
        · subst hj
          have hne : j ≠ a := by omega
          simp only [bufRead, hne, if_false, if_true]
          rw [absent hr (by omega), hv]
        · simp [hj]
      · simp [bufRead]
    · split
      · rename_i hia
        subst hia
        split
        · rename_i hv
          by_cases hj : j = i
          · subst hj
            rw [absent hr (by omega)]; simp [hv]
          · simp [bufRead, hj]
        · by_cases hj : j = i <;> simp [bufRead, hj]
      · rename_i hlt hne
        simp only [bufRead]
        rw [ih hr]
        by_cases hj : j = a
        · have : j ≠ i := by omega
          subst hj; simp [this]
        · simp [hj]

/-- A write keeps the canonical form. -/
theorem bufWfFrom_bufWrite {d : Nat → Word} {lo : Nat} {b : Buf} (hb : bufWfFrom d lo b = true) {i : Nat} (hi : lo ≤ i)
    (v : Word) : bufWfFrom d lo (bufWrite d b i v) = true := by
  have raise : ∀ {l m : Nat} {r : Buf}, bufWfFrom d m r = true → l ≤ m → bufWfFrom d l r = true := by
    intro l m r hw hlm
    cases r with
    | nil => rfl
    | cons f r =>
      simp only [bufWfFrom, Bool.and_eq_true, decide_eq_true_eq] at hw ⊢
      exact ⟨⟨by omega, hw.1.2⟩, hw.2⟩
  induction b generalizing lo with
  | nil =>
    unfold bufWrite
    split
    · rfl
    · rename_i hv
      simp [bufWfFrom, hi, hv]
  | cons e rest ih =>
    obtain ⟨a, x⟩ := e
    have hb' := hb
    simp only [bufWfFrom, Bool.and_eq_true, decide_eq_true_eq] at hb'
    obtain ⟨⟨hlo, hx⟩, hr⟩ := hb'
    unfold bufWrite
    split
    · rename_i hlt
      split
      · exact hb
      · rename_i hv
        simp only [bufWfFrom, Bool.and_eq_true, decide_eq_true_eq]
        exact ⟨⟨hi, by simpa using hv⟩, ⟨⟨by omega, hx⟩, hr⟩⟩
    · split
      · rename_i hia
        subst hia
        split
        · exact raise hr (by omega)
        · rename_i hv
          simp only [bufWfFrom, Bool.and_eq_true, decide_eq_true_eq]
          exact ⟨⟨hi, by simpa using hv⟩, hr⟩
      · simp only [bufWfFrom, Bool.and_eq_true, decide_eq_true_eq]
        exact ⟨⟨hlo, hx⟩, ih hr (by omega)⟩

/-- A write inside the memory keeps every listed slot inside it. -/
theorem bufWithin_bufWrite (d : Nat → Word) {depth : Nat} {b : Buf} (hb : bufWithin depth b = true) {i : Nat}
    (hi : i < depth) (v : Word) : bufWithin depth (bufWrite d b i v) = true := by
  induction b with
  | nil => unfold bufWrite; split <;> simp [bufWithin, hi]
  | cons e rest ih =>
    obtain ⟨a, x⟩ := e
    simp only [bufWithin, List.all_cons, Bool.and_eq_true, decide_eq_true_eq] at hb ih
    unfold bufWrite
    split
    · split <;> simp [bufWithin, hb.1, hi] <;> simpa using hb.2
    · split
      · split
        · exact hb.2
        · simp only [bufWithin, List.all_cons, Bool.and_eq_true, decide_eq_true_eq]; exact ⟨hi, hb.2⟩
      · simp only [bufWithin, List.all_cons, Bool.and_eq_true, decide_eq_true_eq]
        exact ⟨hb.1, ih hb.2⟩

/-- The parts of the canonical form, for either channel. -/
theorem Memory.wf_iff (depth : Nat) (m : Memory) :
    Memory.wf depth m = true ↔
      (bufWf (unlistedWord m.fill 0) m.cells.c0 = true ∧ bufWf (unlistedWord m.fill 1) m.cells.c1 = true) ∧
        bufWithin depth m.cells.c0 = true ∧ bufWithin depth m.cells.c1 = true := by
  simp only [Memory.wf, Bool.and_eq_true]; tauto

/-- Every channel of a canonical memory is canonical. -/
theorem Memory.wf_get {depth : Nat} {m : Memory} (h : Memory.wf depth m = true) {c : Nat} (hc : c < 2) :
    bufWf (unlistedWord m.fill c) (m.cells.get c) = true ∧ bufWithin depth (m.cells.get c) = true := by
  rw [Memory.wf_iff] at h
  match c, hc with
  | 0, _ => exact ⟨h.1.1, h.2.1⟩
  | 1, _ => exact ⟨h.1.2, h.2.2⟩

/-- `MemWrite` inside the memory keeps the canonical form. -/
theorem memWrite_wf {depth : Nat} {m : Memory} (h : Memory.wf depth m = true) (n : Nat) {i : Nat} (hi : i < depth)
    (v : Chans Word) : Memory.wf depth (memWrite m n i v) = true := by
  have one : ∀ c, c < 2 → bufWf (unlistedWord m.fill c) (bufWrite (unlistedWord m.fill c) (m.cells.get c) i (v.get c)) = true ∧
      bufWithin depth (bufWrite (unlistedWord m.fill c) (m.cells.get c) i (v.get c)) = true := fun c hc =>
    ⟨bufWfFrom_bufWrite (Memory.wf_get h hc).1 (Nat.zero_le _) _, bufWithin_bufWrite _ (Memory.wf_get h hc).2 hi _⟩
  rw [Memory.wf_iff] at *
  simp only [memWrite, Chans.upTo_c0, Chans.upTo_c1]
  refine ⟨⟨?_, ?_⟩, ?_, ?_⟩
  · split
    · exact (one 0 (by omega)).1
    · exact h.1.1
  · split
    · exact (one 1 (by omega)).1
    · exact h.1.2
  · split
    · exact (one 0 (by omega)).2
    · exact h.2.1
  · split
    · exact (one 1 (by omega)).2
    · exact h.2.2

/-- The cleared memory is canonical, whatever the depth. -/
theorem memClear_wf (depth : Nat) : Memory.wf depth memClear = true := rfl

/-- A reset memory is canonical, whatever the depth. -/
theorem reset_mem_wf (depth n : Nat) : Memory.wf depth (Memory.reset n) = true := rfl

/-- Every slot of a cleared memory reads +0.0 (`20_memory.md` R87). -/
@[simp] theorem memRead_memClear (c i : Nat) : memRead memClear c i = 0#32 := by
  unfold memRead memClear Chans.get; split <;> rfl

/-- Every slot of a reset memory reads a free value (`70_reset_and_hazards.md` R242, log 4). -/
@[simp] theorem memRead_reset (n c i : Nat) : memRead (Memory.reset n) c i = Config.unspecifiedWord n c i := by
  unfold memRead Memory.reset Chans.get; split <;> rfl

/-- A read after `MemWrite`: the written word at slot `i` of the first `n` channels, and what it was elsewhere. -/
theorem memRead_memWrite {depth : Nat} {m : Memory} (h : Memory.wf depth m = true) (n i : Nat) (v : Chans Word)
    {c : Nat} (hc : c < 2) (j : Nat) :
    memRead (memWrite m n i v) c j = if c < n ∧ j = i then v.get c else memRead m c j := by
  simp only [memRead, memWrite, Chans.get_upTo n _ m.cells hc]
  by_cases hn : c < n
  · simp only [hn, if_true, true_and]
    exact bufRead_bufWrite (Memory.wf_get h hc).1 i j (v.get c)
  · simp [hn]

/-- A read index is a slot of the buffer (`20_memory.md` R76). -/
theorem ridx_lt {cap : Nat} (h : 0 < cap) (w d : Nat) : ridx w d cap < cap := by
  have h1 := Int.emod_nonneg ((w : Int) - d) (b := cap) (by omega)
  have h2 := Int.emod_lt_of_pos ((w : Int) - d) (b := (cap : Int)) (by omega)
  unfold ridx; omega

/-- A read at an offset of 1..cap-1 is never at the write index (`20_memory.md` R76). -/
theorem ridx_ne {cap w d : Nat} (hw : w < cap) (h1 : 1 ≤ d) (h2 : d ≤ cap - 1) : ridx w d cap ≠ w := by
  unfold ridx
  intro he
  have h3 := Int.emod_nonneg ((w : Int) - d) (b := (cap : Int)) (by omega)
  have h4 : ((w : Int) - d) % cap = w := by omega
  have h5 := Int.emod_add_mul_ediv ((w : Int) - d) cap
  rw [h4] at h5
  have h6 : (cap : Int) * (((w : Int) - d) / cap) = -d := by omega
  have h7 : (cap : Int) ∣ (d : Int) := ⟨-(((w : Int) - d) / cap), by rw [mul_neg]; omega⟩
  have h8 := Int.le_of_dvd (by omega) h7
  omega

/-- The advanced write index is a slot of the buffer (`20_memory.md` R77). -/
theorem advance_lt {cap : Nat} (h : 0 < cap) (w : Nat) : advance w cap < cap := Nat.mod_lt _ h

end Sys2Proof.Machine
end

