-- ==== Sys2Proof/Laws/Ops.lean ====
section
/-! SUPPORT. What the shared operations can do, said once: the outcome of a command on a unit, the lookup of a unit,
the clamps, and what an update of one unit does to the lists of units. -/

namespace Sys2Proof.Machine

/-- A command on a unit has exactly three outcomes, all of them next states (`30_encoding.md` R101 steps 3 to 5). -/
theorem runUnit_cases {P R : Type} (found : Option (P × R)) (blocked : R → Bool) (put : R → State → State)
    (cmd : P → R → Reply R) (s : State) :
    (found = none ∧ runUnit found blocked put cmd s = .next (takeFault .badUnit s)) ∨
    (∃ p r, found = some (p, r) ∧ blocked r = true ∧
      runUnit found blocked put cmd s = .next (takeFault .unprepared s)) ∨
    (∃ p r, found = some (p, r) ∧ blocked r = false ∧
      runUnit found blocked put cmd s = .next (complete (cmd p r).r0 (cmd p r).r1 (put (cmd p r).unit s))) := by
  match found with
  | none => exact .inl ⟨rfl, rfl⟩
  | some (p, r) =>
    cases hb : blocked r
    · exact .inr (.inr ⟨p, r, rfl, hb, by simp [runUnit, hb]⟩)
    · exact .inr (.inl ⟨p, r, rfl, hb, by simp [runUnit, hb]⟩)

/-- A command on a unit that exists and is not blocked completes with its reply. -/
theorem runUnit_completes {P R : Type} {found : Option (P × R)} {blocked : R → Bool} (put : R → State → State)
    (cmd : P → R → Reply R) (s : State) {p : P} {r : R} (hf : found = some (p, r)) (hb : blocked r = false) :
    runUnit found blocked put cmd s = .next (complete (cmd p r).r0 (cmd p r).r1 (put (cmd p r).unit s)) := by
  subst hf; simp [runUnit, hb]

/-- A command on a unit that does not exist takes BAD_UNIT. -/
theorem runUnit_badUnit {P R : Type} {found : Option (P × R)} (blocked : R → Bool) (put : R → State → State)
    (cmd : P → R → Reply R) (s : State) (hf : found = none) :
    runUnit found blocked put cmd s = .next (takeFault .badUnit s) := by
  subst hf; rfl

/-- A lookup answers exactly where both lists have the place. -/
theorem lookupUnit_eq_some {P R : Type} {params : List P} {units : List R} {u : Nat} {p : P} {r : R} :
    lookupUnit params units u = some (p, r) ↔ params[u]? = some p ∧ units[u]? = some r := by
  unfold lookupUnit
  constructor
  · intro h
    split at h
    · rename_i p' r' hp hr
      simp only [Option.some.injEq, Prod.mk.injEq] at h
      exact ⟨by rw [hp, h.1], by rw [hr, h.2]⟩
    · cases h
  · rintro ⟨hp, hr⟩; simp [hp, hr]

/-- A lookup past the end of the parameters finds no unit (`60_exceptions.md` R226). -/
theorem lookupUnit_none_of_le {P R : Type} {params : List P} (units : List R) {u : Nat} (h : params.length ≤ u) :
    lookupUnit params units u = none := by
  unfold lookupUnit
  rw [List.getElem?_eq_none h]

/-- `clampu` lies between its bounds (`00_scope.md` R14). -/
theorem clampu_mem {n lo hi : Nat} (h : lo ≤ hi) : lo ≤ clampu n lo hi ∧ clampu n lo hi ≤ hi := by
  unfold clampu; split <;> [omega; (split <;> omega)]

/-- `clampu` keeps a value that lies between its bounds. -/
theorem clampu_of_mem {n lo hi : Nat} (h1 : lo ≤ n) (h2 : n ≤ hi) : clampu n lo hi = n := by
  unfold clampu; split <;> [omega; (split <;> omega)]

/-- `clampu` to 1..hi in terms of minimum and maximum. -/
theorem clampu_eq_min_max {n lo hi : Nat} (h : lo ≤ hi) : clampu n lo hi = min (max n lo) hi := by
  unfold clampu; split <;> [omega; (split <;> omega)]

/-- A prepared channel count is 1 or 2. -/
theorem nchMax_cases (ch : Nat) : nchMax ch = 1 ∨ nchMax ch = 2 := by
  have := clampu_mem (n := ch) (lo := 1) (hi := 2) (by omega)
  unfold nchMax; omega

/-- A processed channel count is at least 1 and at most the prepared one (`00_scope.md` R19). -/
theorem nchan_mem {ch nch : Nat} (h : 1 ≤ nch) : 1 ≤ nchan ch nch ∧ nchan ch nch ≤ nch := clampu_mem h

/-- What `unitsWf` says of one unit. -/
theorem unitsWf_get {P R : Type} {good : P → R → Bool} {params : List P} {units : List R}
    (h : unitsWf good params units = true) {u : Nat} {p : P} {r : R} (hf : lookupUnit params units u = some (p, r)) :
    good p r = true := by
  obtain ⟨hp, hr⟩ := lookupUnit_eq_some.mp hf
  simp only [unitsWf, Bool.and_eq_true, List.all_eq_true] at h
  refine h.2 (p, r) (List.mem_iff_getElem?.mpr ⟨u, ?_⟩)
  simp [List.getElem?_zip_eq_some, hp, hr]

/-- Replacing one good unit by a good unit keeps `unitsWf`. -/
theorem unitsWf_set {P R : Type} {good : P → R → Bool} {params : List P} {units : List R}
    (h : unitsWf good params units = true) {u : Nat} {p : P} {r r' : R}
    (hf : lookupUnit params units u = some (p, r)) (hg : good p r' = true) :
    unitsWf good params (units.set u r') = true := by
  obtain ⟨hp, -⟩ := lookupUnit_eq_some.mp hf
  simp only [unitsWf, Bool.and_eq_true, List.all_eq_true, beq_iff_eq, List.length_set] at h ⊢
  refine ⟨h.1, fun x hx => ?_⟩
  obtain ⟨v, hv⟩ := List.mem_iff_getElem?.mp hx
  rw [List.getElem?_zip_eq_some] at hv
  obtain ⟨h1, h2⟩ := hv
  rw [List.getElem?_set] at h2
  split at h2
  · rename_i huv
    subst huv
    split at h2
    · rw [hp] at h1
      cases h1; cases h2
      simp [hg]
    · cases h2
  · exact h.2 x (List.mem_iff_getElem?.mpr ⟨v, List.getElem?_zip_eq_some.mpr ⟨h1, h2⟩⟩)

/-- Good records made one for each set of parameters, from its place. -/
theorem unitsWf_mapIdx {P R : Type} {good : P → R → Bool} (params : List P) (r : Nat → R)
    (h : ∀ p ∈ params, ∀ u, good p (r u) = true) : unitsWf good params (params.mapIdx fun u _ => r u) = true := by
  simp only [unitsWf, List.length_mapIdx, BEq.rfl, Bool.true_and, List.all_eq_true]
  intro x hx
  obtain ⟨v, hv⟩ := List.mem_iff_getElem?.mp hx
  rw [List.getElem?_zip_eq_some] at hv
  obtain ⟨h1, h2⟩ := hv
  rw [List.getElem?_mapIdx, h1] at h2
  simp only [Option.map_some, Option.some.injEq] at h2
  rw [← h2]
  exact h _ (List.mem_of_getElem? h1) v

/-- One good record for every set of parameters. -/
theorem unitsWf_map {P R : Type} {good : P → R → Bool} (params : List P) (r : R) (h : ∀ p ∈ params, good p r = true) :
    unitsWf good params (params.map fun _ => r) = true := by
  have e : (params.map fun _ => r) = params.mapIdx fun _ _ => r := by
    apply List.ext_getElem?; intro i; simp only [List.getElem?_map, List.getElem?_mapIdx]
  rw [e]
  exact unitsWf_mapIdx params (fun _ => r) (fun p hp _ => h p hp)

end Sys2Proof.Machine
end

