-- ==== Sys2Proof/Laws/Rounding.lean ====
section
/-! SUPPORT. Rounding: monotonic, within half of a last place, exact on representable values; and what that says of the
operators on values in order. -/

namespace Sys2Proof.Machine

/-- A whole number nearest `n / d`: within one half, even on a tie. -/
theorem roundEven_near (n : Nat) {d : Nat} (h : 0 < d) :
    2 * (roundEven n d * d) ≤ 2 * n + d ∧ 2 * n ≤ 2 * (roundEven n d * d) + d ∧
      (2 * (roundEven n d * d) = 2 * n + d ∨ 2 * n = 2 * (roundEven n d * d) + d → roundEven n d % 2 = 0) := by
  have hdm := Nat.div_add_mod n d
  have hlt := Nat.mod_lt n h
  unfold roundEven
  dsimp only
  generalize n / d = q at hdm ⊢
  generalize n % d = r at hdm hlt ⊢
  subst hdm
  have hc : d * q = q * d := Nat.mul_comm _ _
  split
  · refine ⟨by omega, by omega, fun hh => by omega⟩
  · split
    · rw [Nat.add_mul]
      refine ⟨by omega, by omega, fun hh => by omega⟩
    · rename_i h1 h2
      have h3 : 2 * r = d := by omega
      rcases Nat.mod_two_eq_zero_or_one q with hq | hq
      · rw [hq, Nat.add_zero]
        exact ⟨by omega, by omega, fun _ => hq⟩
      · rw [hq, Nat.add_mul]
        exact ⟨by omega, by omega, fun _ => by omega⟩

/-- Rounding to a whole number keeps the order of values. -/
theorem roundEven_mono {n₁ d₁ n₂ d₂ : Nat} (h₁ : 0 < d₁) (h₂ : 0 < d₂) (h : n₁ * d₂ ≤ n₂ * d₁) :
    roundEven n₁ d₁ ≤ roundEven n₂ d₂ := by
  obtain ⟨a1, -, a3⟩ := roundEven_near n₁ h₁
  obtain ⟨-, b2, b3⟩ := roundEven_near n₂ h₂
  generalize roundEven n₁ d₁ = x at *
  generalize roundEven n₂ d₂ = y at *
  by_contra hxy
  have hy : y + 1 ≤ x := by omega
  have e1 : 2 * (x * d₁ * d₂) ≤ 2 * (n₁ * d₂) + d₁ * d₂ := by nlinarith
  have e2 : 2 * (n₂ * d₁) ≤ 2 * (y * d₂ * d₁) + d₂ * d₁ := by nlinarith
  have e3 : (y + 1) * (d₁ * d₂) ≤ x * (d₁ * d₂) := Nat.mul_le_mul_right _ hy
  have p : 0 < d₁ * d₂ := Nat.mul_pos h₁ h₂
  have hx : x = y + 1 := by
    by_contra hne
    have : (y + 2) * (d₁ * d₂) ≤ x * (d₁ * d₂) := Nat.mul_le_mul_right _ (by omega)
    nlinarith
  subst hx
  have t1 : 2 * ((y + 1) * d₁) = 2 * n₁ + d₁ := by
    refine le_antisymm a1 ?_
    have : (2 * n₁ + d₁) * d₂ ≤ 2 * ((y + 1) * d₁) * d₂ := by nlinarith
    exact Nat.le_of_mul_le_mul_right this h₂
  have t2 : 2 * n₂ = 2 * (y * d₂) + d₂ := by
    refine le_antisymm b2 ?_
    have : (2 * (y * d₂) + d₂) * d₁ ≤ 2 * n₂ * d₁ := by nlinarith
    exact Nat.le_of_mul_le_mul_right this h₁
  have := a3 (.inl t1)
  have := b3 (.inr t2)
  omega

/-- The exponent shift of `roundMag`, and the bounds it gives on the value in units of its last place. -/
theorem roundMag_shift (n : Nat) {d : Nat} (h : 0 < d) :
    n < d * 2 ^ (Nat.log2 (n / d) - 23) * 2 ^ 24 ∧
    (0 < Nat.log2 (n / d) - 23 → d * 2 ^ (Nat.log2 (n / d) - 23) * 2 ^ 23 ≤ n) := by
  have hlt : n < d * (n / d + 1) := Nat.lt_mul_div_succ n h
  constructor
  · have : n / d + 1 ≤ 2 ^ (Nat.log2 (n / d) - 23 + 24) := by
      calc n / d + 1 ≤ 2 ^ (Nat.log2 (n / d) + 1) := Nat.lt_log2_self
        _ ≤ _ := Nat.pow_le_pow_right (by omega) (by omega)
    calc n < d * (n / d + 1) := hlt
      _ ≤ d * 2 ^ (Nat.log2 (n / d) - 23 + 24) := Nat.mul_le_mul_left _ this
      _ = _ := by rw [pow_add]; ring
  · intro hs
    have hne : n / d ≠ 0 := by
      intro h0; rw [h0] at hs; simp at hs
    have : 2 ^ (Nat.log2 (n / d) - 23 + 23) ≤ n / d := by
      rw [Nat.sub_add_cancel (by omega)]; exact Nat.log2_self_le hne
    calc d * 2 ^ (Nat.log2 (n / d) - 23) * 2 ^ 23 = d * 2 ^ (Nat.log2 (n / d) - 23 + 23) := by rw [pow_add]; ring
      _ ≤ d * (n / d) := Nat.mul_le_mul_left _ this
      _ ≤ n := Nat.mul_div_le n d

/-- Rounding keeps the order of values (`00_scope.md` R12). -/
theorem roundMag_mono {n₁ d₁ n₂ d₂ : Nat} (h₁ : 0 < d₁) (h₂ : 0 < d₂) (h : n₁ * d₂ ≤ n₂ * d₁) :
    roundMag n₁ d₁ ≤ roundMag n₂ d₂ := by
  have hq : n₁ / d₁ ≤ n₂ / d₂ := by
    rw [Nat.le_div_iff_mul_le h₂]
    refine Nat.le_of_mul_le_mul_right ?_ h₁
    calc n₁ / d₁ * d₂ * d₁ = n₁ / d₁ * d₁ * d₂ := by ring
      _ ≤ n₁ * d₂ := Nat.mul_le_mul_right _ (Nat.div_mul_le_self _ _)
      _ ≤ _ := h
  have hs : Nat.log2 (n₁ / d₁) - 23 ≤ Nat.log2 (n₂ / d₂) - 23 := by
    have : Nat.log2 (n₁ / d₁) ≤ Nat.log2 (n₂ / d₂) := by
      simp only [Nat.log2_eq_log_two]
      exact Nat.log_mono_right hq
    omega
  obtain ⟨a, -⟩ := roundMag_shift n₁ h₁
  obtain ⟨-, b⟩ := roundMag_shift n₂ h₂
  have key : (Nat.log2 (n₁ / d₁) - 23) * 2 ^ 23 + roundEven n₁ (d₁ * 2 ^ (Nat.log2 (n₁ / d₁) - 23)) ≤
      (Nat.log2 (n₂ / d₂) - 23) * 2 ^ 23 + roundEven n₂ (d₂ * 2 ^ (Nat.log2 (n₂ / d₂) - 23)) := by
    generalize Nat.log2 (n₁ / d₁) - 23 = s₁ at *
    generalize Nat.log2 (n₂ / d₂) - 23 = s₂ at *
    have p1 : 0 < d₁ * 2 ^ s₁ := by positivity
    have p2 : 0 < d₂ * 2 ^ s₂ := by positivity
    rcases Nat.eq_or_lt_of_le hs with he | hl
    · subst he
      refine Nat.add_le_add_left (roundEven_mono p1 p2 ?_) _
      calc n₁ * (d₂ * 2 ^ s₁) = n₁ * d₂ * 2 ^ s₁ := by ring
        _ ≤ n₂ * d₁ * 2 ^ s₁ := Nat.mul_le_mul_right _ h
        _ = _ := by ring
    · have u1 : roundEven n₁ (d₁ * 2 ^ s₁) ≤ 2 ^ 24 := by
        have := roundEven_mono (n₁ := n₁) (n₂ := 2 ^ 24 * (d₁ * 2 ^ s₁)) p1 p1 (Nat.mul_le_mul_right _ (by
          rw [Nat.mul_comm]; exact a.le))
        rwa [roundEven_mul _ p1] at this
      have u2 : 2 ^ 23 ≤ roundEven n₂ (d₂ * 2 ^ s₂) := by
        have := roundEven_mono (n₁ := 2 ^ 23 * (d₂ * 2 ^ s₂)) (n₂ := n₂) p2 p2 (Nat.mul_le_mul_right _ (by
          rw [Nat.mul_comm]; exact b (by omega)))
        rwa [roundEven_mul _ p2] at this
      omega
  unfold roundMag
  dsimp only
  split <;> split <;> omega

/-- A value at most that of a finite word rounds to bits at most that word's. -/
theorem roundMag_le_fbits {n d : Nat} {v : Word} (hd : 0 < d) (hv : isFinite v = true) (h : n ≤ fmag v * d) :
    roundMag n d ≤ fbits v := by
  rw [← roundMag_fmag hv]
  exact roundMag_mono hd Nat.one_pos (by omega)

/-- A value at least that of a finite word rounds to bits at least that word's. -/
theorem fbits_le_roundMag {n d : Nat} {v : Word} (hd : 0 < d) (hv : isFinite v = true) (h : fmag v * d ≤ n) :
    fbits v ≤ roundMag n d := by
  rw [← roundMag_fmag hv]
  exact roundMag_mono Nat.one_pos hd (by omega)

/-- The key of a word put together from a sign and bits. -/
theorem fkey_signed (neg : Bool) {bits : Nat} (h : bits < 2 ^ 31) :
    fkey (signed neg bits) = if neg then -(bits : Int) else bits := by
  simp [fkey, fsign_signed neg h, fbits_signed neg h]

/-- The key of a rounded whole number of units. -/
theorem fkey_rndUnits (z : Int) (d : Nat) :
    fkey (rndUnits z d) = if z < 0 then -(roundMag z.natAbs d : Int) else roundMag z.natAbs d := by
  have := roundMag_le z.natAbs d
  rw [rndUnits, fkey_signed _ (by omega)]
  by_cases h : z < 0 <;> simp [h]

/-- Rounding keeps the order of signed values. -/
theorem fkey_rndUnits_mono {x y : Int} (h : x ≤ y) : fkey (rndUnits x 1) ≤ fkey (rndUnits y 1) := by
  rw [fkey_rndUnits, fkey_rndUnits]
  by_cases hx : x < 0 <;> by_cases hy : y < 0
  · simp only [hx, hy, if_true]
    have := roundMag_mono (n₁ := y.natAbs) (n₂ := x.natAbs) Nat.one_pos Nat.one_pos (by omega)
    omega
  · simp only [hx, hy, if_true, if_false]; omega
  · omega
  · simp only [hx, hy, if_false]
    have := roundMag_mono (n₁ := x.natAbs) (n₂ := y.natAbs) Nat.one_pos Nat.one_pos (by omega)
    omega

/-- Rounding a finite word's own value gives its key back. -/
theorem fkey_rndUnits_funits {v : Word} (h : isFinite v = true) : fkey (rndUnits (funits v) 1) = fkey v := by
  rw [fkey_rndUnits]
  have h0 := fmag_eq_zero_iff v
  have h1 := roundMag_fmag h
  have hu : (funits v).natAbs = fmag v := by unfold funits; split <;> simp
  rw [hu, h1]
  unfold funits fkey
  split <;> split <;> omega

/-- The sum of two finite words has the key of the rounded exact sum; which zero an exact zero is the key does not see. -/
theorem fkey_fadd {a b : Word} (ha : isFinite a = true) (hb : isFinite b = true) :
    fkey (fadd a b) = fkey (rndUnits (funits a + funits b) 1) := by
  have na : isNaN a = false := by simp only [isFinite, bne_iff_ne] at ha; simp [isNaN, ha]
  have nb : isNaN b = false := by simp only [isFinite, bne_iff_ne] at hb; simp [isNaN, hb]
  have ia : isInf a = false := by simp only [isFinite, bne_iff_ne] at ha; simp [isInf, ha]
  have ib : isInf b = false := by simp only [isFinite, bne_iff_ne] at hb; simp [isInf, hb]
  unfold fadd
  simp only [na, nb, ia, ib, Bool.or_self, Bool.false_eq_true, if_false]
  split
  · rename_i h
    rw [h, fkey_signed _ (by omega), fkey_rndUnits]
    have : roundMag 0 1 = 0 := by decide
    simp [this]
  · rfl

/-- The sum of two finite words is no NaN. -/
theorem isNaN_fadd {a b : Word} (ha : isFinite a = true) (hb : isFinite b = true) : isNaN (fadd a b) = false := by
  have na : isNaN a = false := by simp only [isFinite, bne_iff_ne] at ha; simp [isNaN, ha]
  have nb : isNaN b = false := by simp only [isFinite, bne_iff_ne] at hb; simp [isNaN, hb]
  have ia : isInf a = false := by simp only [isFinite, bne_iff_ne] at ha; simp [isInf, ha]
  have ib : isInf b = false := by simp only [isFinite, bne_iff_ne] at hb; simp [isInf, hb]
  unfold fadd
  simp only [na, nb, ia, ib, Bool.or_self, Bool.false_eq_true, if_false]
  split
  · exact isNaN_signed _ (by omega)
  · exact isNaN_rndUnits _ _

/-- Adding a finite value that is not negative does not lower a finite value (`41_ramp.md` R128). -/
theorem fkey_le_fadd {a b : Word} (ha : isFinite a = true) (hb : isFinite b = true) (h : 0 ≤ fkey b) :
    fkey a ≤ fkey (fadd a b) := by
  rw [fkey_fadd ha hb, ← fkey_rndUnits_funits ha]
  refine fkey_rndUnits_mono ?_
  have := fkey_lt_iff b 0#32
  have h0 : fkey 0#32 = 0 := by decide
  have h1 : funits 0#32 = 0 := by decide
  omega

/-- Adding a finite value that is not positive does not raise a finite value (`41_ramp.md` R128). -/
theorem fadd_le_fkey {a b : Word} (ha : isFinite a = true) (hb : isFinite b = true) (h : fkey b ≤ 0) :
    fkey (fadd a b) ≤ fkey a := by
  rw [fkey_fadd ha hb, ← fkey_rndUnits_funits ha]
  refine fkey_rndUnits_mono ?_
  have := fkey_lt_iff 0#32 b
  have h0 : fkey 0#32 = 0 := by decide
  have h1 : funits 0#32 = 0 := by decide
  omega

/-- The exponent of a word put together from a sign and bits 30:0. -/
theorem fexp_signed (neg : Bool) {bits : Nat} (h : bits < 2 ^ 31) : fexp (signed neg bits) = bits / 2 ^ 23 := by
  have h1 := fbits_eq (signed neg bits)
  rw [fbits_signed neg h] at h1
  have h2 := ffrac_lt (signed neg bits)
  omega

/-- The fraction of a word put together from a sign and bits 30:0. -/
theorem ffrac_signed (neg : Bool) {bits : Nat} (h : bits < 2 ^ 31) : ffrac (signed neg bits) = bits % 2 ^ 23 := by
  have h1 := fbits_eq (signed neg bits)
  rw [fbits_signed neg h] at h1
  have h2 := ffrac_lt (signed neg bits)
  omega

/-- Bits below those of infinity make a finite word. -/
theorem isFinite_signed (neg : Bool) {bits : Nat} (h : bits < 0x7F800000) : isFinite (signed neg bits) = true := by
  simp only [isFinite, bne_iff_ne]
  rw [fexp_signed neg (by omega)]
  omega

/-- The magnitude of the pattern that `roundMag` writes for `m * 2 ^ e` units. -/
theorem fmag_signed (neg : Bool) {m e : Nat} (hm : m < 2 ^ 24) (hn : 2 ^ 23 ≤ m ∨ e = 0)
    (hf : e * 2 ^ 23 + m < 0x7F800000) : fmag (signed neg (e * 2 ^ 23 + m)) = m * 2 ^ e := by
  have hb : e * 2 ^ 23 + m < 2 ^ 31 := by omega
  unfold fmag
  rw [fexp_signed neg hb, ffrac_signed neg hb]
  split
  · have : m < 2 ^ 23 ∧ e = 0 := by omega
    obtain ⟨h1, rfl⟩ := this; simp; omega
  · have h1 : (e * 2 ^ 23 + m) / 2 ^ 23 - 1 = e := by omega
    rw [h1]; congr 1; omega

/-- A product of a 24-bit number and a power of two has a form with a full mantissa or the least exponent. -/
theorem exists_normal (M : Nat) (hM : M < 2 ^ 24) (e : Nat) :
    ∃ m e', m < 2 ^ 24 ∧ (2 ^ 23 ≤ m ∨ e' = 0) ∧ m * 2 ^ e' = M * 2 ^ e ∧ e' ≤ e := by
  induction e generalizing M with
  | zero => exact ⟨M, 0, hM, .inr rfl, rfl, le_rfl⟩
  | succ e ih =>
    by_cases h : 2 ^ 23 ≤ M
    · exact ⟨M, e + 1, hM, .inl h, rfl, le_rfl⟩
    · obtain ⟨m, e', a, b, c, d⟩ := ih (2 * M) (by omega)
      exact ⟨m, e', a, b, by rw [c, pow_succ]; ring, by omega⟩

/-- A representable magnitude below that of infinity rounds to itself. -/
theorem fmag_roundMag_exact (neg : Bool) {M e : Nat} (hM : M < 2 ^ 24) (hlt : M * 2 ^ e < 2 ^ 277) :
    fmag (signed neg (roundMag (M * 2 ^ e) 1)) = M * 2 ^ e ∧ roundMag (M * 2 ^ e) 1 < 0x7F800000 := by
  obtain ⟨m, e', a, b, c, -⟩ := exists_normal M hM e
  rw [← c] at hlt ⊢
  have hf : e' * 2 ^ 23 + m < 0x7F800000 := by
    rcases b with b | b
    · have : 2 ^ (23 + e') < 2 ^ 277 := by
        calc 2 ^ (23 + e') = 2 ^ 23 * 2 ^ e' := pow_add ..
          _ ≤ m * 2 ^ e' := Nat.mul_le_mul_right _ b
          _ < _ := hlt
      have := (Nat.pow_lt_pow_iff_right (by norm_num)).1 this
      omega
    · subst b; omega
  rw [roundMag_exact a b hf]
  exact ⟨fmag_signed neg a b hf, hf⟩

/-- Every magnitude is a 24-bit number times a power of two. -/
theorem exists_fmag_eq (v : Word) : ∃ M e, M < 2 ^ 24 ∧ fmag v = M * 2 ^ e := by
  have := ffrac_lt v
  unfold fmag
  split
  · exact ⟨ffrac v, 0, by omega, by simp⟩
  · exact ⟨_, _, by omega, rfl⟩

/-- So is the fraction of a value (`20_memory.md` R82 (a)). -/
theorem exists_fmag_mod_eq (v : Word) : ∃ M e, M < 2 ^ 24 ∧ fmag v % 2 ^ 149 = M * 2 ^ e := by
  obtain ⟨M, e, h, h2⟩ := exists_fmag_eq v
  rw [h2]
  by_cases he : e ≤ 149
  · refine ⟨M % 2 ^ (149 - e), e, lt_of_le_of_lt (Nat.mod_le _ _) h, ?_⟩
    rw [show (2 : Nat) ^ 149 = 2 ^ (149 - e) * 2 ^ e by rw [← pow_add]; congr 1; omega, Nat.mul_mod_mul_right]
  · refine ⟨0, 0, by omega, ?_⟩
    rw [show e = 149 + (e - 149) by omega, pow_add, ← Nat.mul_assoc, Nat.mul_right_comm, Nat.mul_mod_left]; simp

/-- A value in units of 2^-149. -/
theorem fval_eq_units (v : Word) : fval v = (funits v : Rat) / 2 ^ 149 := by
  rw [fval, Rat.mkRat_eq_div, unitsPerOne]; push_cast; rfl

/-- A value that is not negative, or is a zero, is its magnitude. -/
theorem fval_eq_fmag {v : Word} (h : fsign v = false ∨ fbits v = 0) : fval v = (fmag v : Rat) / 2 ^ 149 := by
  rw [fval_eq_units, funits]
  rcases h with h | h
  · simp [h]
  · rw [← fmag_eq_zero_iff] at h; simp [h]

/-- The whole part of a value that is not negative. -/
theorem floor_fval {v : Word} (h : fsign v = false ∨ fbits v = 0) : ⌊fval v⌋ = ((fmag v / 2 ^ 149 : Nat) : Int) := by
  rw [fval_eq_fmag h]
  have := Rat.floor_intCast_div_natCast (fmag v) (2 ^ 149)
  push_cast at this ⊢
  exact this

end Sys2Proof.Machine
end

