-- ==== Sys2Proof/Laws/Step.lean ====
section
/-! SUPPORT. What a step can do, said once: the four kinds of port event, and for each kind of unit the one shape that
every command on it has. -/

namespace Sys2Proof.Machine

theorem step_idle {s : State} (h : s.inp = []) : step s = .next s := by simp [step, h]

theorem step_command {s : State} {p : Packet} {rest : List PortEvent} (h : s.inp = .command p :: rest) :
    step s = acceptPacket p s := by simp [step, h]

theorem step_deliver {s : State} {rest : List PortEvent} (h : s.inp = .deliver :: rest) :
    step s = .next (deliverResponse s) := by simp [step, h]

theorem step_reset {s : State} {rest : List PortEvent} (h : s.inp = .reset :: rest) :
    step s = .next (resetEdge s) := by simp [step, h]

theorem acceptPacket_ok {p : Packet} {i : Instr} (h : decode p = .ok i) (s : State) : acceptPacket p s = exec i s := by
  simp [acceptPacket, h]

theorem acceptPacket_error {p : Packet} {f : FaultCode} (h : decode p = .error f) (s : State) :
    acceptPacket p s = .next (takeFault f s) := by simp [acceptPacket, h]

/-- Every Ramp command is one call of `onRamp`; its effect reads the parameters of the implementation and nothing else of the state. -/
theorem exec_onRamp {i : Instr} {u : Nat} (h : i.target = some (.ramp, u)) :
    ∃ cmd : Config → RampParams → RampUnit → Reply RampUnit,
      ∀ s, exec i s = onRamp u i.needsPrepared (cmd s.cfg) s := by
  cases i <;> simp only [Instr.target, Option.some.injEq, Prod.mk.injEq, reduceCtorEq, false_and, true_and] at h <;>
    (subst h; constructor; intro s
     simp only [exec, execRampPrepare, execRampSetTarget, execRampGetNext, execRampApplyGain, execRampApplySum, Instr.needsPrepared]
     (try generalize s.cfg = c)
     rfl)

/-- Every DelayLine command is one call of `onDl`. -/
theorem exec_onDl {i : Instr} {u : Nat} (h : i.target = some (.dl, u)) :
    ∃ cmd : Config → DLParams → DLState → Reply DLState,
      ∀ s, exec i s = onDl u i.needsPrepared (cmd s.cfg) s := by
  cases i <;> simp only [Instr.target, Option.some.injEq, Prod.mk.injEq, reduceCtorEq, false_and, true_and] at h <;>
    (subst h; constructor; intro s
     simp only [exec, execDlPrepare, execDlSetDelay, execDlClear, execDlProcess, execDlProcessMod, execDlGetSample, Instr.needsPrepared]
     (try generalize s.cfg = c)
     rfl)

/-- Every AllPass command is one call of `onAp`. -/
theorem exec_onAp {i : Instr} {u : Nat} (h : i.target = some (.ap, u)) :
    ∃ cmd : Config → APParams → APState → Reply APState,
      ∀ s, exec i s = onAp u i.needsPrepared (cmd s.cfg) s := by
  cases i <;> simp only [Instr.target, Option.some.injEq, Prod.mk.injEq, reduceCtorEq, false_and, true_and] at h <;>
    (subst h; constructor; intro s
     simp only [exec, execApPrepare, execApSetCoeff, execApSetDelayTime, execApClear, execApProcess, execApProcessMod, execApGetSample, Instr.needsPrepared]
     (try generalize s.cfg = c)
     rfl)

/-- Every LeakyIntegrator command is one call of `onLi`. -/
theorem exec_onLi {i : Instr} {u : Nat} (h : i.target = some (.li, u)) :
    ∃ cmd : Config → LIParams → LIState → Reply LIState,
      ∀ s, exec i s = onLi u i.needsPrepared (cmd s.cfg) s := by
  cases i <;> simp only [Instr.target, Option.some.injEq, Prod.mk.injEq, reduceCtorEq, false_and, true_and] at h <;>
    (subst h; constructor; intro s
     simp only [exec, execLiPrepare, execLiSetCoeff, execLiClear, execLiProcess, Instr.needsPrepared]
     (try generalize s.cfg = c)
     rfl)

/-- Every LFO command is one call of `onLfo`. -/
theorem exec_onLfo {i : Instr} {u : Nat} (h : i.target = some (.lfo, u)) :
    ∃ cmd : Config → LFOParams → LFOState → Reply LFOState,
      ∀ s, exec i s = onLfo u i.needsPrepared (cmd s.cfg) s := by
  cases i <;> simp only [Instr.target, Option.some.injEq, Prod.mk.injEq, reduceCtorEq, false_and, true_and] at h <;>
    (subst h; constructor; intro s
     simp only [exec, execLfoPrepare, execLfoSetType, execLfoSetFreq, execLfoSetDepth, execLfoSetOffset, execLfoClear, execLfoNext, Instr.needsPrepared]
     (try generalize s.cfg = c)
     rfl)

/-- Every GranularPitchShifter command is one call of `onGps`. -/
theorem exec_onGps {i : Instr} {u : Nat} (h : i.target = some (.gps, u)) :
    ∃ cmd : Config → GPSParams → GPSState → Reply GPSState,
      ∀ s, exec i s = onGps u i.needsPrepared (cmd s.cfg) s := by
  cases i <;> simp only [Instr.target, Option.some.injEq, Prod.mk.injEq, reduceCtorEq, false_and, true_and] at h <;>
    (subst h; constructor; intro s
     simp only [exec, execGpsPrepare, execGpsSetPitchRatio, execGpsClear, execGpsProcess, Instr.needsPrepared]
     (try generalize s.cfg = c)
     rfl)

end Sys2Proof.Machine
end

