-- ==== Sys2Proof/Laws/Ramp.lean ====
section
/-! SUPPORT. The Ramp functions keep the shape in which a Ramp runs to its target (`41_ramp.md` R128): comparisons as
comparisons of keys, the increment that a set computes, and one step. -/

namespace Sys2Proof.Machine

theorem isNaN_of_isFinite {v : Word} (h : isFinite v = true) : isNaN v = false := by
  simp only [isFinite, bne_iff_ne] at h; simp [isNaN, h]

theorem isInf_of_isFinite {v : Word} (h : isFinite v = true) : isInf v = false := by
  simp only [isFinite, bne_iff_ne] at h; simp [isInf, h]

/-- A word that is no NaN is finite exactly where its bits 30:0 are below those of infinity. -/
theorem isFinite_iff_fbits {v : Word} (_h : isNaN v = false) : isFinite v = true ↔ fbits v < 0x7F800000 := by
  have h1 := fbits_eq v
  have h2 := ffrac_lt v
  have h3 := fexp_lt v
  simp only [isFinite, bne_iff_ne]
  omega

/-- A word that is no NaN has bits 30:0 up to those of infinity. -/
theorem fbits_le_of_not_isNaN {v : Word} (h : isNaN v = false) : fbits v ≤ 0x7F800000 := by
  have h1 := fbits_eq v
  have h2 := ffrac_lt v
  have h3 := fexp_lt v
  simp only [isNaN, Bool.and_eq_false_iff, beq_eq_false_iff_ne, bne_eq_false_iff_eq] at h
  omega

/-- On words that are no NaN a comparison is that of the keys. -/
theorem flt_eq {a b : Word} (ha : isNaN a = false) (hb : isNaN b = false) : flt a b = decide (fkey a < fkey b) := by
  simp [flt, ha, hb]

/-- What `inRange` says of a word, by its key. -/
theorem inRange_iff {lo hi x : Word} (hl : isNaN lo = false) (hh : isNaN hi = false) :
    inRange lo hi x = true ↔ isNaN x = false ∧ fkey lo ≤ fkey x ∧ fkey x ≤ fkey hi := by
  cases hx : isNaN x
  · simp [inRange, hx, flt_eq hx hl, flt_eq hh hx]
  · simp [inRange, hx]

/-- A word between two finite words is finite. -/
theorem isFinite_of_inRange {lo hi x : Word} (hl : isFinite lo = true) (hh : isFinite hi = true)
    (h : inRange lo hi x = true) : isFinite x = true := by
  obtain ⟨h1, h2, h3⟩ := (inRange_iff (isNaN_of_isFinite hl) (isNaN_of_isFinite hh)).mp h
  have a := (isFinite_iff_fbits (isNaN_of_isFinite hl)).mp hl
  have b := (isFinite_iff_fbits (isNaN_of_isFinite hh)).mp hh
  rw [isFinite_iff_fbits h1]
  unfold fkey at h2 h3
  cases hs : fsign x <;> simp only [hs, Bool.false_eq_true, if_true, if_false] at h2 h3
  · split at h3 <;> omega
  · split at h2 <;> omega

/-- An infinity is known by its sign. -/
theorem fkey_of_isInf {v : Word} (h : isInf v = true) :
    fkey v = if fsign v then -0x7F800000 else 0x7F800000 := by
  have h1 := fbits_eq v
  simp only [isInf, Bool.and_eq_true, beq_iff_eq] at h
  unfold fkey
  split <;> omega

/-- A word is finite, an infinity or a NaN. -/
theorem isFinite_or (v : Word) : isFinite v = true ∨ isInf v = true ∨ isNaN v = true := by
  simp only [isFinite, isInf, isNaN, bne_iff_ne, Bool.and_eq_true, beq_iff_eq]
  omega

/-- What `Ramp.within` says, by keys. -/
theorem Ramp.within_iff {lo hi : Word} (hl : isNaN lo = false) (hh : isNaN hi = false) {R : Ramp} :
    R.within lo hi = true ↔ inRange lo hi R.cur = true ∧ inRange lo hi R.tgt = true ∧ isNaN R.inc = false ∧
      (0 < fkey R.inc → fkey R.cur ≤ fkey R.tgt) ∧ (fkey R.inc < 0 → fkey R.tgt ≤ fkey R.cur) := by
  have h0 : isNaN 0#32 = false := by decide
  have k0 : fkey 0#32 = 0 := by decide
  unfold Ramp.within
  constructor
  · intro h
    simp only [Bool.and_eq_true, Bool.not_eq_true', Bool.and_eq_false_iff] at h
    obtain ⟨⟨⟨⟨h1, h2⟩, h3⟩, h4⟩, h5⟩ := h
    have c1 := ((inRange_iff hl hh).mp h1).1
    have c2 := ((inRange_iff hl hh).mp h2).1
    rw [flt_eq h0 h3, flt_eq c2 c1, k0] at h4
    rw [flt_eq h3 h0, flt_eq c1 c2, k0] at h5
    simp only [decide_eq_false_iff_not] at h4 h5
    exact ⟨h1, h2, h3, by omega, by omega⟩
  · rintro ⟨h1, h2, h3, h4, h5⟩
    have c1 := ((inRange_iff hl hh).mp h1).1
    have c2 := ((inRange_iff hl hh).mp h2).1
    rw [h1, h2, h3, flt_eq h0 h3, flt_eq c2 c1, flt_eq h3 h0, flt_eq c1 c2, k0]
    simp only [Bool.and_eq_true, Bool.not_eq_true', Bool.and_eq_false_iff, decide_eq_false_iff_not, Bool.not_false,
      true_and, and_self]
    omega

/-- The value after a step that is not the last lies between the value and the target (`41_ramp.md` R122). -/
theorem rampNext_between {lo hi : Word} (hl : isFinite lo = true) (hh : isFinite hi = true) {R : Ramp}
    (h : R.within lo hi = true) :
    isNaN (rampNext R) = false ∧
    (0 < fkey R.inc → fkey R.cur ≤ fkey (rampNext R) ∧ fkey (rampNext R) ≤ fkey R.tgt) ∧
    (fkey R.inc < 0 → fkey R.tgt ≤ fkey (rampNext R) ∧ fkey (rampNext R) ≤ fkey R.cur) ∧
    (fkey R.inc = 0 → fkey (rampNext R) = fkey R.cur) := by
  have nl := isNaN_of_isFinite hl
  have nh := isNaN_of_isFinite hh
  obtain ⟨h1, h2, h3, h4, h5⟩ := (Ramp.within_iff nl nh).mp h
  have fc := isFinite_of_inRange hl hh h1
  have ft := isFinite_of_inRange hl hh h2
  have nc := isNaN_of_isFinite fc
  have nt := isNaN_of_isFinite ft
  have bt := (isFinite_iff_fbits nt).mp ft
  have h0 : isNaN 0#32 = false := by decide
  have k0 : fkey 0#32 = 0 := by decide
  have hv : isNaN (fadd R.cur R.inc) = false ∧
      (0 ≤ fkey R.inc → fkey R.cur ≤ fkey (fadd R.cur R.inc)) ∧
      (fkey R.inc ≤ 0 → fkey (fadd R.cur R.inc) ≤ fkey R.cur) := by
    rcases isFinite_or R.inc with fi | fi | fi
    · exact ⟨isNaN_fadd fc fi, fkey_le_fadd fc fi, fadd_le_fkey fc fi⟩
    · have e : fadd R.cur R.inc = R.inc := by
        simp [fadd, nc, h3, isInf_of_isFinite fc, fi]
      have bc := (isFinite_iff_fbits nc).mp fc
      have ki := fkey_of_isInf fi
      rw [e, ki]
      refine ⟨h3, ?_, ?_⟩ <;> (unfold fkey at *; split <;> split <;> omega)
    · rw [h3] at fi; cases fi
  obtain ⟨n, up, down⟩ := hv
  unfold rampNext
  dsimp only
  rw [flt_eq h0 h3, flt_eq nt n, flt_eq h3 h0, flt_eq n nt, k0]
  simp only [Bool.or_eq_true, Bool.and_eq_true, decide_eq_true_eq]
  split
  · exact ⟨nt, by omega, by omega, by omega⟩
  · exact ⟨n, by omega, by omega, by omega⟩

/-- One step keeps a Ramp in its shape. -/
theorem rampAdvance_within {lo hi : Word} (hl : isFinite lo = true) (hh : isFinite hi = true) {R : Ramp}
    (h : R.within lo hi = true) : (rampAdvance R).within lo hi = true := by
  have nl := isNaN_of_isFinite hl
  have nh := isNaN_of_isFinite hh
  obtain ⟨h1, h2, h3, h4, h5⟩ := (Ramp.within_iff nl nh).mp h
  unfold rampAdvance
  split
  · exact h
  · split
    · rw [Ramp.within_iff nl nh]
      exact ⟨h2, h2, h3, fun _ => le_rfl, fun _ => le_rfl⟩
    · obtain ⟨a, b, c, d⟩ := rampNext_between hl hh h
      rw [inRange_iff nl nh] at h1
      rw [Ramp.within_iff nl nh]
      have h2' := h2
      rw [inRange_iff nl nh] at h2'
      refine ⟨?_, h2, h3, ?_, ?_⟩
      · rw [inRange_iff nl nh]
        show isNaN (rampNext R) = false ∧ fkey lo ≤ fkey (rampNext R) ∧ fkey (rampNext R) ≤ fkey hi
        rcases lt_trichotomy (fkey R.inc) 0 with hz | hz | hz
        · have := c hz; exact ⟨a, by omega, by omega⟩
        · have := d hz; exact ⟨a, by omega, by omega⟩
        · have := b hz; exact ⟨a, by omega, by omega⟩
      · intro hz; exact (b hz).2
      · intro hz; exact (c hz).1

/-- A prepare leaves a Ramp at rest at its target. -/
theorem rampPrep_within {lo hi : Word} (hl : isNaN lo = false) (hh : isNaN hi = false) {R : Ramp}
    (h : inRange lo hi R.tgt = true) (tc : Word) (fs : Rat) : (rampPrep R tc fs).within lo hi = true := by
  rw [Ramp.within_iff hl hh]
  exact ⟨h, h, (by decide : isNaN 0#32 = false), fun _ => le_rfl, fun _ => le_rfl⟩

/-- A difference of finite words is no NaN, and its key has the sign of the order of the two. -/
theorem fsub_sign {a b : Word} (ha : isFinite a = true) (hb : isFinite b = true) :
    isNaN (fsub a b) = false ∧ (0 < fkey (fsub a b) → fkey b < fkey a) ∧ (fkey (fsub a b) < 0 → fkey a < fkey b) := by
  have hx : ∀ v : Word, fexp (fneg v) = fexp v ∧ ffrac (fneg v) = ffrac v ∧ fsign (fneg v) = !fsign v := by
    intro v
    refine ⟨?_, ?_, ?_⟩
    · unfold fexp fneg; congr 1; ext i hi
      simp only [BitVec.getElem_extractLsb', BitVec.getLsbD_xor]
      have : i = 0 ∨ i = 1 ∨ i = 2 ∨ i = 3 ∨ i = 4 ∨ i = 5 ∨ i = 6 ∨ i = 7 := by omega
      rcases this with rfl | rfl | rfl | rfl | rfl | rfl | rfl | rfl <;> simp
    · unfold ffrac fneg; congr 1
      rw [BitVec.extractLsb'_xor]; simp
    · simp [fsign, fneg]
  obtain ⟨e, f, g⟩ := hx b
  have hb' : isFinite (fneg b) = true := by simpa [isFinite, e] using hb
  have hu : funits (fneg b) = -funits b := by
    have hm : fmag (fneg b) = fmag b := by simp [fmag, e, f]
    unfold funits; rw [g, hm]; cases fsign b <;> simp
  unfold fsub
  refine ⟨isNaN_fadd ha hb', ?_, ?_⟩ <;> (rw [fkey_fadd ha hb', hu, fkey_rndUnits])
  · have := fkey_lt_iff b a
    split
    · omega
    · intro h
      have : roundMag 0 1 = 0 := by decide
      by_contra hc
      have h0 : funits a + -funits b = 0 := by omega
      rw [h0] at h; simp [this] at h
  · have := fkey_lt_iff a b
    split <;> omega

/-- A quotient of a word that is no NaN by a positive finite word is no NaN and has the sign of the dividend. -/
theorem fdiv_sign {a b : Word} (ha : isNaN a = false) (hb : isFinite b = true) (hp : 0 < fkey b) :
    isNaN (fdiv a b) = false ∧ (0 < fkey (fdiv a b) → 0 < fkey a) ∧ (fkey (fdiv a b) < 0 → fkey a < 0) := by
  have nb := isNaN_of_isFinite hb
  have ib := isInf_of_isFinite hb
  have sb : fsign b = false := by
    cases h : fsign b
    · rfl
    · unfold fkey at hp; rw [h] at hp; simp at hp; omega
  have mb : fmag b ≠ 0 := by
    rw [Ne, fmag_eq_zero_iff]
    unfold fkey at hp; rw [sb] at hp; simp at hp; omega
  unfold fdiv
  simp only [ha, nb, ib, Bool.or_self, Bool.false_eq_true, if_false, mb, sb, Bool.bne_false]
  cases hi : isInf a
  · simp only [Bool.false_eq_true, if_false]
    have hle := roundMag_le (fmag a * unitsPerOne) (fmag b)
    refine ⟨isNaN_signed _ hle, ?_, ?_⟩ <;>
      (rw [fkey_signed _ (by omega)]
       have h0 : roundMag 0 (fmag b) = 0 := by simp [roundMag, roundEven]
       have hz := fmag_eq_zero_iff a
       have hne : roundMag (fmag a * unitsPerOne) (fmag b) ≠ 0 → fbits a ≠ 0 := by
         intro h hc; apply h; rw [hz.mpr hc, Nat.zero_mul, h0]
       unfold fkey
       cases fsign a <;> (simp only [Bool.false_eq_true, if_false, if_true]; omega))
  · simp only [if_true]
    have := fkey_of_isInf hi
    refine ⟨isNaN_signed _ (by omega), ?_, ?_⟩ <;>
      (rw [fkey_signed _ (by omega), this]; cases fsign a <;> simp)

/-- A positive count is a positive finite word. -/
theorem u2f_pos (n : Word) (h : 1 ≤ n.toNat) : isFinite (u2f n.toNat) = true ∧ 0 < fkey (u2f n.toNat) := by
  have hlt := n.isLt
  have hlo : roundMag unitsPerOne 1 = 0x3F800000 := by decide
  have hhi : roundMag (2 ^ 32 * unitsPerOne) 1 = 0x4F800000 := by decide +kernel
  have a := roundMag_mono (n₁ := unitsPerOne) (n₂ := n.toNat * unitsPerOne) Nat.one_pos Nat.one_pos
    (by simpa using Nat.le_mul_of_pos_left unitsPerOne h)
  have b := roundMag_mono (n₁ := n.toNat * unitsPerOne) (n₂ := 2 ^ 32 * unitsPerOne) Nat.one_pos Nat.one_pos
    (by simpa using Nat.mul_le_mul_right unitsPerOne hlt.le)
  rw [hlo] at a
  rw [hhi] at b
  unfold u2f
  refine ⟨?_, ?_⟩
  · rw [isFinite_iff_fbits (isNaN_signed _ (by omega)), fbits_signed _ (by omega)]; omega
  · rw [fkey_signed _ (by omega)]; simp; omega

/-- A set to a target in range leaves a Ramp in its shape. -/
theorem rampSet_within {lo hi : Word} (hl : isFinite lo = true) (hh : isFinite hi = true) {R : Ramp} {v : Word}
    {force prep : Bool} (h : R.within lo hi = true) (hv : inRange lo hi v = true)
    (hn : prep = true → 1 ≤ R.nsteps.toNat) : (rampSet R v force prep).within lo hi = true := by
  have nl := isNaN_of_isFinite hl
  have nh := isNaN_of_isFinite hh
  obtain ⟨h1, -, -, -, -⟩ := (Ramp.within_iff nl nh).mp h
  unfold rampSet
  split
  · rw [Ramp.within_iff nl nh]
    exact ⟨hv, hv, (by decide : isNaN 0#32 = false), fun _ => le_rfl, fun _ => le_rfl⟩
  · rename_i hc
    have hp : prep = true := by
      cases prep
      · simp at hc
      · rfl
    obtain ⟨u1, u2⟩ := u2f_pos R.nsteps (hn hp)
    obtain ⟨s1, s2, s3⟩ := fsub_sign (isFinite_of_inRange hl hh hv) (isFinite_of_inRange hl hh h1)
    obtain ⟨d1, d2, d3⟩ := fdiv_sign s1 u1 u2
    rw [Ramp.within_iff nl nh]
    refine ⟨h1, hv, d1, fun hz => ?_, fun hz => ?_⟩
    · have := s2 (d2 hz); dsimp only; omega
    · have := s3 (d3 hz); dsimp only; omega

end Sys2Proof.Machine
end

