-- ==== Sys2Proof/Laws/Sine.lean ====
section
/-! SUPPORT. The comparisons of `Sys2Proof/Machine/Sine.lean` are those of the real cosine and sine. -/

namespace Sys2Proof.Machine

/-- Doubling the angle keeps the order of two cosines that are not negative. -/
theorem cmp_double {a b : ℝ} (ha : 0 ≤ a) (hb : 0 ≤ b) : cmp a b = cmp (2 * a ^ 2 - 1) (2 * b * b - 1) := by
  rcases lt_trichotomy a b with h | h | h
  · rw [(cmp_eq_lt_iff a b).2 h, eq_comm, cmp_eq_lt_iff]; nlinarith
  · subst h; rw [show 2 * a * a - 1 = 2 * a ^ 2 - 1 by ring]; simp
  · rw [(cmp_eq_gt_iff a b).2 h, eq_comm, cmp_eq_gt_iff]; nlinarith

/-- It reverses the order of two cosines that are not positive. -/
theorem cmp_double_neg {a b : ℝ} (ha : a ≤ 0) (hb : b ≤ 0) : cmp a b = (cmp (2 * a ^ 2 - 1) (2 * b * b - 1)).swap := by
  rw [cmp_swap]
  rcases lt_trichotomy a b with h | h | h
  · rw [(cmp_eq_lt_iff a b).2 h, eq_comm, cmp_eq_lt_iff]; nlinarith
  · subst h; rw [show 2 * a * a - 1 = 2 * a ^ 2 - 1 by ring]; simp
  · rw [(cmp_eq_gt_iff a b).2 h, eq_comm, cmp_eq_gt_iff]; nlinarith

/-- cos(π·p/2^k). -/
noncomputable def turnCos (k p : Nat) : ℝ := Real.cos (Real.pi * p / 2 ^ k)

theorem turnCos_zero (k : Nat) : turnCos k 0 = 1 := by simp [turnCos]

theorem turnCos_half (k : Nat) : turnCos k (2 ^ k) = -1 := by
  have h : (2 : ℝ) ^ k ≠ 0 := by positivity
  simp [turnCos, h]

theorem turnCos_double (k p : Nat) : 2 * turnCos (k + 1) p ^ 2 - 1 = turnCos k p := by
  rw [turnCos, ← Real.cos_two_mul, turnCos]
  congr 1; rw [pow_succ]; field_simp

theorem turnCos_reflect {k p : Nat} (h : p ≤ 2 ^ (k + 1)) : turnCos k (2 ^ (k + 1) - p) = turnCos k p := by
  rw [turnCos, turnCos, ← Real.cos_two_pi_sub]
  congr 1; push_cast [Nat.cast_sub h]; rw [pow_succ]; field_simp; ring

theorem turnCos_nonneg {k p : Nat} (h : p ≤ 2 ^ k) : 0 ≤ turnCos (k + 1) p := by
  have h' : (p : ℝ) ≤ 2 ^ k := by exact_mod_cast h
  have hp := Real.pi_pos
  apply Real.cos_nonneg_of_neg_pi_div_two_le_of_le
  · have : 0 ≤ Real.pi * p / 2 ^ (k + 1) := by positivity
    linarith
  · rw [pow_succ, div_le_div_iff₀ (by positivity) (by norm_num)]; nlinarith

theorem turnCos_nonpos {k p : Nat} (h : 2 ^ k ≤ p) (h2 : p ≤ 2 ^ (k + 1)) : turnCos (k + 1) p ≤ 0 := by
  have h' : (2 : ℝ) ^ k ≤ p := by exact_mod_cast h
  have h2' : (p : ℝ) ≤ 2 ^ (k + 1) := by exact_mod_cast h2
  have hp := Real.pi_pos
  apply Real.cos_nonpos_of_pi_div_two_le_of_le
  · rw [pow_succ, div_le_div_iff₀ (by norm_num) (by positivity)]; nlinarith
  · have : Real.pi * p / 2 ^ (k + 1) ≤ Real.pi := by rw [div_le_iff₀ (by positivity)]; nlinarith
    linarith

theorem turnCos_pos {k p : Nat} (h : p < 2 ^ k) : 0 < turnCos (k + 1) p := by
  have h' : (p : ℝ) < 2 ^ k := by exact_mod_cast h
  have hp := Real.pi_pos
  apply Real.cos_pos_of_mem_Ioo
  constructor
  · have : 0 ≤ Real.pi * p / 2 ^ (k + 1) := by positivity
    linarith
  · rw [pow_succ, div_lt_div_iff₀ (by positivity) (by norm_num)]; nlinarith

theorem turnCos_neg {k p : Nat} (h : 2 ^ k < p) (h2 : p ≤ 2 ^ (k + 1)) : turnCos (k + 1) p < 0 := by
  have h' : (2 : ℝ) ^ k < p := by exact_mod_cast h
  have h2' : (p : ℝ) ≤ 2 ^ (k + 1) := by exact_mod_cast h2
  have hp := Real.pi_pos
  apply Real.cos_neg_of_pi_div_two_lt_of_lt
  · rw [pow_succ, div_lt_div_iff₀ (by norm_num) (by positivity)]; nlinarith
  · have : Real.pi * p / 2 ^ (k + 1) ≤ Real.pi := by rw [div_le_iff₀ (by positivity)]; nlinarith
    linarith

/-- The exact comparison. -/
theorem cosExact_eq {k p : Nat} (h : p ≤ 2 ^ k) (r : Rat) : cosExact k p r = cmp (turnCos k p) (r : ℝ) := by
  have cast : ∀ a : Rat, cmp a r = cmp (a : ℝ) (r : ℝ) := fun a => (Rat.cast_strictMono.cmp_map_eq a r).symm
  induction k generalizing p r with
  | zero =>
    have : p = 0 ∨ p = 2 ^ 0 := by simp at h ⊢; omega
    rcases this with rfl | rfl
    · rw [turnCos_zero]; simp [cosExact, cast]
    · rw [turnCos_half]; simp [cosExact, cast]
  | succ k ih =>
    have ih' := fun (q : Nat) (hq : q ≤ 2 ^ k) (x : Rat) =>
      ih hq x (fun a => (Rat.cast_strictMono.cmp_map_eq a x).symm)
    unfold cosExact
    split
    · rename_i h0; subst h0; rw [turnCos_zero]; simp [cast]
    · split
      · rename_i h0; subst h0; rw [turnCos_half]; simp [cast]
      · split
        · rename_i hp
          split
          · rename_i hr
            have hr' : (r : ℝ) < 0 := by exact_mod_cast hr
            rw [eq_comm, cmp_eq_gt_iff]; exact lt_of_lt_of_le hr' (turnCos_nonneg hp)
          · rename_i hr
            have hr' : (0 : ℝ) ≤ r := by exact_mod_cast not_lt.1 hr
            rw [ih' p hp, cmp_double (turnCos_nonneg hp) hr', turnCos_double]
            push_cast; rfl
        · rename_i hp
          split
          · rename_i hr
            have hr' : (0 : ℝ) ≤ r := by exact_mod_cast hr
            rw [eq_comm, cmp_eq_lt_iff]; exact lt_of_lt_of_le (turnCos_neg (by omega) h) hr'
          · rename_i hr
            have hr' : (r : ℝ) ≤ 0 := by exact_mod_cast (not_le.1 hr).le
            rw [ih' _ (by rw [pow_succ] at *; omega), cmp_double_neg (turnCos_nonpos (by omega) h) hr', turnCos_double,
              turnCos_reflect h]
            push_cast; rfl

/-- A guess at an end of the range is right. -/
theorem edgeGuess_sound {top : Bool} {lo hi : Int} {x : ℝ} {o : Ordering} (h1 : (lo : ℝ) ≤ x * 2 ^ 128)
    (h2 : x * 2 ^ 128 ≤ hi) (h : edgeGuess top lo hi = some o) : o = cmp (if top then 1 else -1) x := by
  have key : ∀ e : Int, (if hi < e then some Ordering.gt else if e < lo then some .lt else none) = some o →
      o = cmp (e / 2 ^ 128 : ℝ) x := by
    intro e he
    split at he
    · rename_i c
      have c' : (hi : ℝ) < e := by exact_mod_cast c
      cases he; rw [eq_comm, cmp_eq_gt_iff, lt_div_iff₀ (by positivity)]; linarith
    · split at he
      · rename_i c
        have c' : (e : ℝ) < lo := by exact_mod_cast c
        cases he; rw [eq_comm, cmp_eq_lt_iff, div_lt_iff₀ (by positivity)]; linarith
      · cases he
  have := key _ h
  cases top
  · rwa [show (((if false then 2 ^ 128 else -2 ^ 128 : Int) : ℝ) / 2 ^ 128) = -1 by norm_num] at this
  · rwa [show (((if true then 2 ^ 128 else -2 ^ 128 : Int) : ℝ) / 2 ^ 128) = 1 by norm_num] at this

/-- A guess is right. -/
theorem cosGuess_sound {k p : Nat} (hp : p ≤ 2 ^ k) {lo hi : Int} {x : ℝ} {o : Ordering} (h1 : (lo : ℝ) ≤ x * 2 ^ 128)
    (h2 : x * 2 ^ 128 ≤ hi) (h : cosGuess k p lo hi = some o) : o = cmp (turnCos k p) x := by
  induction k generalizing p lo hi x o with
  | zero =>
    have : p = 0 ∨ p = 2 ^ 0 := by simp at hp ⊢; omega
    have h' := edgeGuess_sound h1 h2 h
    rcases this with rfl | rfl
    · rw [turnCos_zero]; simpa using h'
    · rw [turnCos_half]; simpa using h'
  | succ k ih =>
    have lower : ∀ (y : Int) (z : ℝ), (y : ℝ) ^ 2 ≤ (z * 2 ^ 128) ^ 2 →
        (((2 * y * y / 2 ^ 128 - 2 ^ 128 : Int)) : ℝ) ≤ (2 * z * z - 1) * 2 ^ 128 := by
      intro y z hz
      have a := Int.ediv_mul_le (2 * y * y) (b := 2 ^ 128) (by norm_num)
      have a' : ((2 * y * y / 2 ^ 128 : Int) : ℝ) * 2 ^ 128 ≤ 2 * y * y := by exact_mod_cast a
      push_cast
      nlinarith
    have upper : ∀ (y : Int) (z : ℝ), (z * 2 ^ 128) ^ 2 ≤ (y : ℝ) ^ 2 →
        (2 * z * z - 1) * 2 ^ 128 ≤ (((2 * y * y / 2 ^ 128 - 2 ^ 128 + 1 : Int)) : ℝ) := by
      intro y z hz
      have a := Int.lt_ediv_add_one_mul_self (2 * y * y) (b := 2 ^ 128) (by norm_num)
      have a' : (2 * y * y : ℝ) < (((2 * y * y / 2 ^ 128 : Int) : ℝ) + 1) * 2 ^ 128 := by exact_mod_cast a
      push_cast
      nlinarith
    simp only [cosGuess] at h
    split at h
    · rename_i c; subst c; rw [turnCos_zero]; simpa using edgeGuess_sound h1 h2 h
    · split at h
      · rename_i c; subst c; rw [turnCos_half]; simpa using edgeGuess_sound h1 h2 h
      · split at h
        · rename_i hq
          split at h
          · rename_i c
            have c' : (hi : ℝ) < 0 := by exact_mod_cast c
            cases h; rw [eq_comm, cmp_eq_gt_iff]; exact lt_of_lt_of_le (by nlinarith) (turnCos_nonneg hq)
          · split at h
            · cases h
            · rename_i c
              have c' : (0 : ℝ) ≤ lo := by exact_mod_cast not_lt.1 c
              rw [cmp_double (turnCos_nonneg hq) (b := x) (by nlinarith), turnCos_double]
              exact ih hq (lower lo x (by nlinarith)) (upper hi x (by nlinarith)) h
        · rename_i hq
          split at h
          · rename_i c
            have c' : (0 : ℝ) ≤ lo := by exact_mod_cast c
            cases h; rw [eq_comm, cmp_eq_lt_iff]; exact lt_of_lt_of_le (turnCos_neg (by omega) hp) (by nlinarith)
          · split at h
            · cases h
            · rename_i c
              have c' : (hi : ℝ) < 0 := by exact_mod_cast not_le.1 c
              obtain ⟨o', ho, rfl⟩ := Option.map_eq_some_iff.1 h
              rw [cmp_double_neg (turnCos_nonpos (by omega) hp) (b := x) (by nlinarith), turnCos_double,
                ← turnCos_reflect hp]
              congr 1
              exact ih (by rw [pow_succ] at *; omega) (lower hi x (by nlinarith)) (upper lo x (by nlinarith)) ho

/-- `cosOrder` compares with the real cosine. -/
theorem cosOrder_eq {k p : Nat} (h : p ≤ 2 ^ k) (r : Rat) : cosOrder k p r = cmp (turnCos k p) (r : ℝ) := by
  unfold cosOrder
  split
  · rename_i c
    have c' : (1 : ℝ) < r := by exact_mod_cast c
    rw [eq_comm, cmp_eq_lt_iff]; exact lt_of_le_of_lt (Real.cos_le_one _) c'
  · split
    · rename_i c
      have c' : (r : ℝ) < -1 := by exact_mod_cast c
      rw [eq_comm, cmp_eq_gt_iff]; exact lt_of_lt_of_le c' (Real.neg_one_le_cos _)
    · have lower : ∀ y : Rat, ((⌊y⌋ : Int) : ℝ) ≤ (y : ℝ) := fun y => by
        have h := Int.floor_le y
        exact_mod_cast h
      have upper : ∀ y : Rat, (y : ℝ) ≤ ((⌈y⌉ : Int) : ℝ) := fun y => by
        have h := Int.le_ceil y
        exact_mod_cast h
      have h1 := lower (r * 2 ^ 128)
      have h2 := upper (r * 2 ^ 128)
      rw [Rat.cast_mul, Rat.cast_pow, Rat.cast_ofNat] at h1 h2
      cases hg : cosGuess k p ⌊r * 2 ^ 128⌋ ⌈r * 2 ^ 128⌉ with
      | none => exact cosExact_eq h r
      | some o => exact cosGuess_sound h h1 h2 hg

/-- The sine of phase `p`. -/
noncomputable def turnSin (p : Word) : ℝ := Real.sin (2 * Real.pi * p.toNat / 2 ^ 32)

theorem fromQuarter_le (p : Word) : fromQuarter p ≤ 2 ^ 31 := by
  have := p.isLt
  unfold fromQuarter; dsimp only; split <;> split <;> omega

theorem turnCos_fromQuarter (p : Word) : turnCos 31 (fromQuarter p) = turnSin p := by
  have hp := p.isLt
  have hq : ∀ q : Nat, q ≤ 2 ^ 32 → turnCos 31 (2 ^ 32 - q) = turnCos 31 q := fun q hq => turnCos_reflect (k := 31) hq
  have b : (if p.toNat < 2 ^ 30 then 2 ^ 30 - p.toNat else p.toNat - 2 ^ 30) ≤ 2 ^ 32 := by split <;> omega
  have e : turnCos 31 (fromQuarter p) = turnCos 31 (if p.toNat < 2 ^ 30 then 2 ^ 30 - p.toNat else p.toNat - 2 ^ 30) := by
    unfold fromQuarter; dsimp only
    generalize (if p.toNat < 2 ^ 30 then 2 ^ 30 - p.toNat else p.toNat - 2 ^ 30) = q at *
    split
    · rfl
    · exact hq q (by omega)
  rw [e, turnSin, ← Real.cos_sub_pi_div_two, turnCos]
  split
  · rename_i c
    rw [← Real.cos_neg]
    congr 1; rw [Nat.cast_sub c.le]; push_cast; ring
  · rename_i c
    congr 1; rw [Nat.cast_sub (not_lt.1 c)]; push_cast; ring

/-- `sineOrder` compares with the real sine. -/
theorem sineOrder_eq (p : Word) (r : Rat) : sineOrder p r = cmp (turnSin p) (r : ℝ) := by
  rw [sineOrder, cosOrder_eq (fromQuarter_le p), turnCos_fromQuarter]

/-- `sineWithin` is the property (c) of `45_lfo.md` R181 at one phase. -/
theorem sineWithin_iff (tol : Rat) (p w : Word) :
    sineWithin tol p w = true ↔ |((fval w : Rat) : ℝ) - turnSin p| ≤ (tol : ℝ) := by
  simp only [sineWithin, Bool.and_eq_true, bne_iff_ne, ne_eq, sineOrder_eq, cmp_eq_lt_iff, cmp_eq_gt_iff, not_lt]
  push_cast
  rw [abs_le]
  constructor
  · rintro ⟨a, b⟩; constructor <;> linarith
  · rintro ⟨a, b⟩; constructor <;> linarith

/-- The magnitude of the word with bits 30:0 `b`, in units of 2^-149. -/
theorem fmag_signed_bits (neg : Bool) {b : Nat} (h : b < 2 ^ 31) : fmag (signed neg b) =
    if b / 2 ^ 23 = 0 then b % 2 ^ 23 else (2 ^ 23 + b % 2 ^ 23) * 2 ^ (b / 2 ^ 23 - 1) := by
  rw [fmag, fexp_signed neg h, ffrac_signed neg h]

/-- Below 1.0 two neighbouring words lie at most 2^-24 apart. -/
theorem fmag_signed_succ {b : Nat} (h : b < 0x3F800000) :
    fmag (signed false (b + 1)) ≤ fmag (signed false b) + 2 ^ 125 := by
  rw [fmag_signed_bits false (by omega), fmag_signed_bits false (by omega)]
  obtain ⟨e, f, rfl, hf⟩ : ∃ e f, b = e * 2 ^ 23 + f ∧ f < 2 ^ 23 := ⟨b / 2 ^ 23, b % 2 ^ 23, by omega, by omega⟩
  have he : e ≤ 126 := by omega
  have pw : 2 ^ (e - 1) ≤ 2 ^ 125 := Nat.pow_le_pow_right (by norm_num) (by omega)
  rw [show (e * 2 ^ 23 + f) / 2 ^ 23 = e by omega, show (e * 2 ^ 23 + f) % 2 ^ 23 = f by omega]
  by_cases hl : f + 1 < 2 ^ 23
  · rw [show (e * 2 ^ 23 + f + 1) / 2 ^ 23 = e by omega, show (e * 2 ^ 23 + f + 1) % 2 ^ 23 = f + 1 by omega]
    split
    · have : 1 ≤ 2 ^ 125 := Nat.one_le_two_pow
      omega
    · rw [← add_assoc, Nat.succ_mul]; omega
  · have hf' : f = 2 ^ 23 - 1 := by omega
    subst hf'
    rw [show (e * 2 ^ 23 + (2 ^ 23 - 1) + 1) / 2 ^ 23 = e + 1 by omega,
      show (e * 2 ^ 23 + (2 ^ 23 - 1) + 1) % 2 ^ 23 = 0 by omega, if_neg (by omega)]
    rcases Nat.eq_zero_or_pos e with rfl | h0
    · norm_num
    · obtain ⟨d, rfl⟩ : ∃ d, e = d + 1 := ⟨e - 1, by omega⟩
      rw [if_neg (by omega)]
      simp only [Nat.add_sub_cancel] at *
      rw [pow_succ]; omega

/-- A word of at most 1.0 has at most the bits of 1.0. -/
theorem le_oneF_of_fmag {b : Nat} (hb : b < 2 ^ 31) (h : fmag (signed false b) ≤ 2 ^ 149) : b ≤ 0x3F800000 := by
  by_contra hc
  have h1 := (fmag_lt_iff oneF (signed false b)).2 (by
    rw [fbits_signed false hb, show fbits oneF = 0x3F800000 from rfl]; omega)
  rw [show fmag oneF = 2 ^ 149 by decide +kernel] at h1
  omega

/-- The value of a word put together from a sign and bits 30:0. -/
theorem fval_signed (neg : Bool) {b : Nat} (h : b < 2 ^ 31) :
    fval (signed neg b) = (if neg then -1 else 1) * (fmag (signed false b) : Rat) / 2 ^ 149 := by
  have e : fmag (signed neg b) = fmag (signed false b) := by rw [fmag_signed_bits neg h, fmag_signed_bits false h]
  rw [fval_eq_units, funits, fsign_signed neg h, e]
  cases neg <;> simp

theorem bitsVal_eq {b : Nat} (h : b < 2 ^ 31) : ((bitsVal b : Rat) : ℝ) = (fmag (signed false b) : ℝ) / 2 ^ 149 := by
  rw [bitsVal, fval_signed false h]; push_cast; ring

/-- The search ends at the last word that is at most the sine. -/
theorem sineFloor_mem (p : Word) (i acc : Nat) (h1 : ((bitsVal acc : Rat) : ℝ) ≤ turnSin p)
    (h2 : turnSin p < ((bitsVal (acc + 2 ^ i) : Rat) : ℝ)) :
    ((bitsVal (sineFloor p i acc) : Rat) : ℝ) ≤ turnSin p ∧
      turnSin p < ((bitsVal (sineFloor p i acc + 1) : Rat) : ℝ) ∧ sineFloor p i acc < acc + 2 ^ i := by
  induction i generalizing acc with
  | zero => exact ⟨h1, h2, by simp [sineFloor]⟩
  | succ i ih =>
    have e : acc + 2 ^ i + 2 ^ i = acc + 2 ^ (i + 1) := by rw [pow_succ]; omega
    unfold sineFloor
    split
    · rename_i c
      rw [sineOrder_eq, cmp_eq_lt_iff] at c
      obtain ⟨a, b, d⟩ := ih acc h1 c
      have : 0 < 2 ^ i := by positivity
      exact ⟨a, b, by omega⟩
    · rename_i c
      rw [sineOrder_eq, cmp_eq_lt_iff, not_lt] at c
      obtain ⟨a, b, d⟩ := ih (acc + 2 ^ i) c (by rwa [e])
      exact ⟨a, b, by omega⟩

/-- The sine of a phase of the first half turn lies in 0..1. -/
theorem turnSin_mem {p : Word} (h : p.toNat ≤ 2 ^ 31) : 0 ≤ turnSin p ∧ turnSin p ≤ 1 := by
  have h' : (p.toNat : ℝ) ≤ 2 ^ 31 := by exact_mod_cast h
  have hp := Real.pi_pos
  refine ⟨Real.sin_nonneg_of_nonneg_of_le_pi (by positivity) ?_, Real.sin_le_one _⟩
  rw [div_le_iff₀ (by positivity)]; nlinarith

/-- The nearest word is at most 1.0 and within 2^-25. -/
theorem sineNearest_near {p : Word} (h : p.toNat ≤ 2 ^ 31) : sineNearest p ≤ 0x3F800000 ∧
    |((bitsVal (sineNearest p) : Rat) : ℝ) - turnSin p| ≤ 1 / 2 ^ 25 := by
  obtain ⟨h0, h1⟩ := turnSin_mem h
  have z0 : ((bitsVal 0 : Rat) : ℝ) = 0 := by rw [bitsVal_eq (by omega), fmag_signed_bits false (by omega)]; norm_num
  have z1 : ((bitsVal (0 + 2 ^ 30) : Rat) : ℝ) = 2 := by
    rw [bitsVal_eq (by omega), fmag_signed_bits false (by omega)]; norm_num
  obtain ⟨a, b, c⟩ := sineFloor_mem p 30 0 (by rw [z0]; exact h0) (by rw [z1]; linarith)
  generalize hb : sineFloor p 30 0 = n at *
  have hn := bitsVal_eq (b := n) (by omega)
  have hn1 := bitsVal_eq (b := n + 1) (by omega)
  have small : n ≤ 0x3F800000 := by
    apply le_oneF_of_fmag (by omega)
    have : (fmag (signed false n) : ℝ) / 2 ^ 149 ≤ 1 := by linarith
    rw [div_le_iff₀ (by positivity), one_mul] at this
    exact_mod_cast this
  have order : sineOrder p ((bitsVal n + bitsVal (n + 1)) / 2) = .gt ↔
      (((bitsVal n : Rat) : ℝ) + ((bitsVal (n + 1) : Rat) : ℝ)) / 2 < turnSin p := by
    rw [sineOrder_eq, cmp_eq_gt_iff]; push_cast; rfl
  have e : sineNearest p = if sineOrder p ((bitsVal n + bitsVal (n + 1)) / 2) = .gt then n + 1 else n := by
    rw [← hb]; rfl
  rcases Nat.lt_or_ge n 0x3F800000 with hlt | hge
  · have gap : ((bitsVal (n + 1) : Rat) : ℝ) ≤ ((bitsVal n : Rat) : ℝ) + 1 / 2 ^ 24 := by
      have g : (fmag (signed false (n + 1)) : ℝ) ≤ fmag (signed false n) + 2 ^ 125 := by
        exact_mod_cast fmag_signed_succ hlt
      rw [hn, hn1, div_add' _ _ _ (by positivity)]
      refine div_le_div_of_nonneg_right (le_trans g ?_) (by positivity)
      norm_num
    rw [e]
    split
    · rename_i o
      rw [order] at o
      refine ⟨by omega, ?_⟩
      rw [abs_le]; constructor <;> norm_num at gap ⊢ <;> linarith
    · rename_i o
      rw [order, not_lt] at o
      refine ⟨by omega, ?_⟩
      rw [abs_le]; constructor <;> norm_num at gap ⊢ <;> linarith
  · have hn' : n = 0x3F800000 := by omega
    subst hn'
    have one : ((bitsVal 0x3F800000 : Rat) : ℝ) = 1 := by
      rw [bitsVal_eq (by omega), fmag_signed_bits false (by omega)]; norm_num
    rw [e, if_neg (by rw [order, not_lt]; linarith)]
    refine ⟨le_refl _, ?_⟩
    rw [one, show turnSin p = 1 by linarith]; norm_num

/-- The correctly rounded sine is within 2^-25 of the sine (`45_lfo.md` R181). -/
theorem sineRounded_near (p : Word) : |((fval (sineRounded p) : Rat) : ℝ) - turnSin p| ≤ 1 / 2 ^ 25 := by
  unfold sineRounded
  split
  · rename_i h
    exact (sineNearest_near h).2
  · rename_i h
    have hp := p.isLt
    have hq : (p - 0x80000000#32).toNat = p.toNat - 2 ^ 31 := by
      rw [BitVec.toNat_sub]; simp; omega
    obtain ⟨a, b⟩ := sineNearest_near (p := p - 0x80000000#32) (by omega)
    have hs : turnSin p = -turnSin (p - 0x80000000#32) := by
      rw [turnSin, turnSin, hq, ← Real.sin_add_pi]
      congr 1; rw [Nat.cast_sub (by omega)]; push_cast; ring
    rw [bitsVal_eq (by omega)] at b
    have v : ((fval (signed true (sineNearest (p - 0x80000000#32))) : Rat) : ℝ) =
        -((fmag (signed false (sineNearest (p - 0x80000000#32))) : ℝ) / 2 ^ 149) := by
      rw [fval_signed true (by omega), if_pos rfl]; push_cast; ring
    rw [v, hs, ← neg_sub', abs_neg]
    exact b

end Sys2Proof.Machine
end

