-- ==== Sys2Proof/Laws/Units.lean ====
section
/-! SUPPORT. What a command on a unit can answer, what the invariants of `Sys2Proof/Safety.lean` say of one record, and
which shared operations keep them. -/

namespace Sys2Proof.Machine

/-- A next state of a command on a unit: a fault taken, or the reply put in place. -/
theorem runUnit_next {P R : Type} {found : Option (P × R)} {blocked : R → Bool} {put : R → State → State}
    {cmd : P → R → Reply R} {s t : State} (h : runUnit found blocked put cmd s = .next t) :
    (∃ f, t = takeFault f s) ∨
    ∃ p r, found = some (p, r) ∧ blocked r = false ∧
      t = complete (cmd p r).r0 (cmd p r).r1 (put (cmd p r).unit s) := by
  rcases runUnit_cases found blocked put cmd s with ⟨-, h1⟩ | ⟨p, r, h0, h2, h1⟩ | ⟨p, r, h0, h2, h1⟩ <;>
    (rw [h1] at h; cases h)
  · exact .inl ⟨_, rfl⟩
  · exact .inl ⟨_, rfl⟩
  · exact .inr ⟨p, r, h0, h2, rfl⟩

/-- A command on a Ramp that exists and is prepared where the command needs it completes. -/
theorem onRamp_completes {s : State} {u : Nat} {p : RampParams} {r : RampUnit} {needs : Bool} (cmd : RampParams → RampUnit → Reply RampUnit)
    (hp : s.cfg.ramp[u]? = some p) (hr : s.ramps[u]? = some r) (hn : needs = true → r.prepared = true) :
    onRamp u needs cmd s = .next (complete (cmd p r).r0 (cmd p r).r1 (s.putRamp u (cmd p r).unit)) :=
  runUnit_completes _ _ _ (lookupUnit_eq_some.2 ⟨hp, hr⟩) (by cases needs <;> simp_all)

/-- A command on a DelayLine that exists and is prepared where the command needs it completes. -/
theorem onDl_completes {s : State} {u : Nat} {p : DLParams} {r : DLState} {needs : Bool} (cmd : DLParams → DLState → Reply DLState)
    (hp : s.cfg.dl[u]? = some p) (hr : s.dls[u]? = some r) (hn : needs = true → r.prepared = true) :
    onDl u needs cmd s = .next (complete (cmd p r).r0 (cmd p r).r1 (s.putDl u (cmd p r).unit)) :=
  runUnit_completes _ _ _ (lookupUnit_eq_some.2 ⟨hp, hr⟩) (by cases needs <;> simp_all)

/-- A command on an AllPass that exists and is prepared where the command needs it completes. -/
theorem onAp_completes {s : State} {u : Nat} {p : APParams} {r : APState} {needs : Bool} (cmd : APParams → APState → Reply APState)
    (hp : s.cfg.ap[u]? = some p) (hr : s.aps[u]? = some r) (hn : needs = true → r.prepared = true) :
    onAp u needs cmd s = .next (complete (cmd p r).r0 (cmd p r).r1 (s.putAp u (cmd p r).unit)) :=
  runUnit_completes _ _ _ (lookupUnit_eq_some.2 ⟨hp, hr⟩) (by cases needs <;> simp_all)

/-- A command on a LeakyIntegrator that exists and is prepared where the command needs it completes. -/
theorem onLi_completes {s : State} {u : Nat} {p : LIParams} {r : LIState} {needs : Bool} (cmd : LIParams → LIState → Reply LIState)
    (hp : s.cfg.li[u]? = some p) (hr : s.lis[u]? = some r) (hn : needs = true → r.prepared = true) :
    onLi u needs cmd s = .next (complete (cmd p r).r0 (cmd p r).r1 (s.putLi u (cmd p r).unit)) :=
  runUnit_completes _ _ _ (lookupUnit_eq_some.2 ⟨hp, hr⟩) (by cases needs <;> simp_all)

/-- A command on an LFO that exists and is prepared where the command needs it completes. -/
theorem onLfo_completes {s : State} {u : Nat} {p : LFOParams} {r : LFOState} {needs : Bool} (cmd : LFOParams → LFOState → Reply LFOState)
    (hp : s.cfg.lfo[u]? = some p) (hr : s.lfos[u]? = some r) (hn : needs = true → r.prepared = true) :
    onLfo u needs cmd s = .next (complete (cmd p r).r0 (cmd p r).r1 (s.putLfo u (cmd p r).unit)) :=
  runUnit_completes _ _ _ (lookupUnit_eq_some.2 ⟨hp, hr⟩) (by cases needs <;> simp_all)

/-- A command on a GranularPitchShifter that exists and is prepared where the command needs it completes. -/
theorem onGps_completes {s : State} {u : Nat} {p : GPSParams} {r : GPSState} {needs : Bool} (cmd : GPSParams → GPSState → Reply GPSState)
    (hp : s.cfg.gps[u]? = some p) (hr : s.gpss[u]? = some r) (hn : needs = true → r.prepared = true) :
    onGps u needs cmd s = .next (complete (cmd p r).r0 (cmd p r).r1 (s.putGps u (cmd p r).unit)) :=
  runUnit_completes _ _ _ (lookupUnit_eq_some.2 ⟨hp, hr⟩) (by cases needs <;> simp_all)

/-- The parts of the machine's invariant. -/
theorem State.inv_iff {s : State} : s.inv = true ↔
    Config.wf s.cfg = true ∧ s.err &&& 0xF0#8 = 0#8 ∧
    unitsWf (fun _ r => RampUnit.wf s.cfg.fsMax r) s.cfg.ramp s.ramps = true ∧
    unitsWf DLState.unitWf s.cfg.dl s.dls = true ∧
    unitsWf (APState.wf s.cfg.fsMax) s.cfg.ap s.aps = true ∧
    unitsWf (fun _ L => LIState.wf s.cfg.fsMax L) s.cfg.li s.lis = true ∧
    unitsWf (fun _ O => LFOState.wf s.cfg.fsMax O) s.cfg.lfo s.lfos = true ∧
    unitsWf (GPSState.wf s.cfg.fsMax) s.cfg.gps s.gpss = true := by
  simp only [State.inv, Bool.and_eq_true, beq_iff_eq, and_assoc]

theorem Ramp.wf_iff {p : Bool} {R : Ramp} :
    Ramp.wf p R = true ↔ R.cnt.toNat ≤ R.nsteps.toNat ∧ (p = true → 1 ≤ R.nsteps.toNat) := by
  cases p <;> simp [Ramp.wf]

theorem RampUnit.wf_iff {F : Rat} {r : RampUnit} : RampUnit.wf F r = true ↔
    Ramp.wf r.prepared r.ramp = true ∧ (r.prepared = true → legalRate F r.fs = true) := by
  cases h : r.prepared <;> simp [RampUnit.wf, h]

theorem LIState.wf_iff {F : Rat} {L : LIState} : LIState.wf F L = true ↔
    Ramp.wf L.prepared L.cr = true ∧ inRange 0#32 oneF L.cr.tgt = true ∧
    (L.prepared = true → legalRate F L.fs = true ∧ legalCount L.nch = true) := by
  cases h : L.prepared <;> simp [LIState.wf, h, and_assoc]

theorem LFOState.wf_iff {F : Rat} {O : LFOState} : LFOState.wf F O = true ↔
    Ramp.wf O.prepared O.depthRamp = true ∧ Ramp.wf O.prepared O.offsetRamp = true ∧
    inRange 0#32 maxF O.fq = true ∧ inRange 0#32 maxF O.depthMs = true ∧ inRange 0#32 maxF O.offsetMs = true ∧
    (O.prepared = true → legalRate F O.fs = true ∧ O.K = phaseStep O.fq O.fs ∧
      O.depthRamp.tgt = ms2f O.depthMs O.fs ∧ O.offsetRamp.tgt = ms2f O.offsetMs O.fs) := by
  cases h : O.prepared <;> simp [LFOState.wf, h, and_assoc]

theorem DLState.wf_iff {depth : Nat} {S : DLState} : DLState.wf depth S = true ↔
    Memory.wf depth S.mem = true ∧ (S.prepared = true → 2 ≤ S.cap ∧ S.cap ≤ depth ∧ S.w < S.cap ∧ 1 ≤ S.dly ∧
      S.dly ≤ S.cap - 1 ∧ legalCount S.nch = true ∧ S.mem.fill = .zero) := by
  cases h : S.prepared <;> simp [DLState.wf, h, and_assoc]

theorem DLState.unitWf_iff {p : DLParams} {S : DLState} : DLState.unitWf p S = true ↔
    DLState.wf p.depth S = true ∧ (S.prepared = true → S.dly = clampu S.dlyReq.toNat 1 (S.cap - 1)) := by
  cases h : S.prepared <;> simp [DLState.unitWf, h]

theorem APState.wf_iff {F : Rat} {p : APParams} {A : APState} : APState.wf F p A = true ↔
    DLState.wf p.depth A.dl = true ∧ A.dl.prepared = A.prepared ∧ inRange (fneg p.gmax) p.gmax A.g = true ∧
    inRange 0#32 maxF A.dtMs = true ∧
    (A.prepared = true → legalRate F A.fs = true ∧ A.dl.dly = clampu (ms2n A.dtMs A.fs) 1 (A.dl.cap - 1)) := by
  cases h : A.prepared <;> simp [APState.wf, h, and_assoc]

theorem GPSState.wf_iff {F : Rat} {p : GPSParams} {G : GPSState} : GPSState.wf F p G = true ↔
    Memory.wf p.depth G.mem = true ∧ inRange 0x3E800000#32 0x40000000#32 G.rSet = true ∧
    (G.prepared = true → legalRate F G.fs = true ∧ legalCount G.nch = true ∧ 17 ≤ G.N ∧ G.N ≤ p.depth ∧ 4 ≤ G.H ∧
      G.H ≤ (G.N - 1) / 4 ∧ G.w < G.N ∧ G.k < G.H ∧ inRange 0x3E800000#32 0x40000000#32 G.r = true ∧
      G.rp.c0 < G.N * 2 ^ 25 ∧ G.rp.c1 < G.N * 2 ^ 25 ∧ G.mem.fill = .zero) := by
  cases h : G.prepared <;> simp [GPSState.wf, h, and_assoc]

/-- A transition has at least one step (`10_state.md` R36). -/
theorem stepsOf_pos (tc : Word) (fs : Rat) : 1 ≤ (stepsOf tc fs).toNat := by
  have := clampu_mem (n := ms2n tc fs) (lo := 1) (hi := 2 ^ 32 - 1) (by omega)
  simp only [stepsOf, BitVec.toNat_ofNat]; omega

@[simp] theorem rampSet_tgt (R : Ramp) (v : Word) (force prep : Bool) : (rampSet R v force prep).tgt = v := by
  unfold rampSet; split <;> rfl

@[simp] theorem rampAdvance_tgt (R : Ramp) : (rampAdvance R).tgt = R.tgt := by
  unfold rampAdvance; split <;> [rfl; (split <;> rfl)]

theorem rampPrep_wf (R : Ramp) (tc : Word) (fs : Rat) (p : Bool) : Ramp.wf p (rampPrep R tc fs) = true := by
  rw [Ramp.wf_iff]; exact ⟨Nat.zero_le _, fun _ => stepsOf_pos tc fs⟩

theorem rampSet_wf {R : Ramp} {q : Bool} (h : Ramp.wf q R = true) (v : Word) (force prep : Bool) :
    Ramp.wf q (rampSet R v force prep) = true := by
  rw [Ramp.wf_iff] at *
  unfold rampSet; split
  · exact ⟨Nat.zero_le _, h.2⟩
  · exact ⟨le_rfl, h.2⟩

theorem rampAdvance_wf {R : Ramp} {q : Bool} (h : Ramp.wf q R = true) : Ramp.wf q (rampAdvance R) = true := by
  rw [Ramp.wf_iff] at *
  unfold rampAdvance; split
  · exact h
  · split
    · exact ⟨Nat.zero_le _, h.2⟩
    · rename_i a b
      refine ⟨?_, h.2⟩
      have h0 : R.cnt.toNat ≠ 0 := fun h => a (BitVec.eq_of_toNat_eq (by simpa using h))
      have e : (R.cnt - 1#32).toNat = R.cnt.toNat - 1 := by
        rw [BitVec.toNat_sub]; have := R.cnt.isLt; simp; omega
      show (R.cnt - 1#32).toNat ≤ R.nsteps.toNat
      omega

/-- A stored rate is legal, whatever the operand (`00_scope.md` R17, `10_state.md` R34). -/
theorem fsval_legal {F : Rat} (h : 1 ≤ F) (v : Word64) : legalRate F (fsval F v) = true := by
  unfold legalRate fsval
  have hF : F = (F.num : Rat) / F.den := (Rat.num_div_den F).symm
  have hd : (0 : Rat) < F.den := by exact_mod_cast F.den_pos
  split
  · split <;> simp [h]
  · split
    · simp [h]
    · split
      · simp [h]
      · rename_i c
        simp only [not_lt] at c
        simp only [dval, Rat.mkRat_eq_div, Bool.and_eq_true, decide_eq_true_eq]
        constructor
        · rw [le_div_iff₀ (by positivity)]
          have : (2 : Nat) ^ 52 ≤ (2 ^ 52 + dfrac v) * 2 ^ (dexp v - 1023) :=
            le_trans (Nat.le_add_right _ _) (Nat.le_mul_of_pos_right _ (by positivity))
          rw [one_mul]
          exact_mod_cast this
        · rw [div_le_iff₀ (by positivity), hF]
          rw [div_mul_eq_mul_div, le_div_iff₀ hd]
          exact_mod_cast c

theorem nchMax_legal (ch : Nat) : legalCount (nchMax ch) = true := by
  rcases nchMax_cases ch with h | h <;> rw [h] <;> rfl

theorem dlFixed_wf {d : Nat} {S : DLState} (h : DLState.wf d S = true) (hp : S.prepared = true) (n : Nat)
    (x : Chans Word) : DLState.wf d (dlFixed S n x).2 = true := by
  rw [DLState.wf_iff] at *
  obtain ⟨hm, hr⟩ := h
  obtain ⟨a, b, c, e⟩ := hr hp
  exact ⟨memWrite_wf hm _ (lt_of_lt_of_le c b) _, fun _ => ⟨a, b, advance_lt (by omega) _, e⟩⟩

theorem dlMod_wf {d : Nat} {S : DLState} (h : DLState.wf d S = true) (hp : S.prepared = true) (m : Chans Word) (n : Nat)
    (x : Chans Word) : DLState.wf d (dlMod m S n x).2 = true := by
  rw [DLState.wf_iff] at *
  obtain ⟨hm, hr⟩ := h
  obtain ⟨a, b, c, e⟩ := hr hp
  exact ⟨memWrite_wf hm _ (lt_of_lt_of_le c b) _, fun _ => ⟨a, b, advance_lt (by omega) _, e⟩⟩

theorem dlSize_wf {d : Nat} (hd : 2 ≤ d) (S : DLState) (ch : Nat) (m : Word) (req : Nat) :
    DLState.wf d (dlSize S d ch m req) = true := by
  rw [DLState.wf_iff]
  have c := clampu_mem (n := m.toNat) (lo := 1) (hi := d - 1) (by omega)
  have e := clampu_mem (n := req) (lo := 1) (hi := clampu m.toNat 1 (d - 1) + 1 - 1) (by omega)
  refine ⟨memClear_wf _, fun _ => ⟨?_, ?_, ?_, ?_, ?_, nchMax_legal ch, rfl⟩⟩ <;> simp only [dlSize] <;> omega

theorem anchor_lt {G : GPSState} (h : 0 < G.N) : anchor G < G.N * 2 ^ 25 := by
  unfold anchor
  have hp : (0 : Int) < ((G.N * 2 ^ 25 : Nat) : Int) := by exact_mod_cast Nat.mul_pos h (by norm_num)
  have h1 := Int.emod_nonneg (((G.w * 2 ^ 25 : Nat) : Int) - ((2 * G.H * ratio25 G.r : Nat) : Int)) (ne_of_gt hp)
  have h2 := Int.emod_lt_of_pos (((G.w * 2 ^ 25 : Nat) : Int) - ((2 * G.H * ratio25 G.r : Nat) : Int)) hp
  omega

end Sys2Proof.Machine
end

