-- ==== Sys2Proof/Tests/Slice0.lean ====
section
/-! SUPPORT. Tests by evaluation. The packets are written out from the fields of `30_encoding.md` R92 and the table of R97;
expected results are the worked examples of the rules and the vectors of `95_test_vectors.md`, named at each test. The last
part shows, for every statement with hypotheses, operands and a state that meet them. -/

namespace Sys2Proof.Tests

open Sys2Proof.Machine Sys2Proof.Claims

-- One theorem after the other: each `decide +kernel` would otherwise hold a thread of its own until the one before is added.
set_option Elab.async false

/-! ### Well-formedness: what the check refuses -/

theorem test_unit_256_is_ill_formed : (Instr.dlClear 256).wellFormed = false := by decide
theorem test_channel_256_is_ill_formed : (Instr.dlProcess 0 256 0#32 0#32).wellFormed = false := by decide
theorem test_unit_255_is_well_formed : (Instr.dlClear 255).wellFormed = true := by decide
theorem test_channel_255_is_well_formed : (Instr.dlProcess 255 255 0#32 0#32).wellFormed = true := by decide

/-! ### Decoding: one packet for each row of the opcode map -/

theorem test_decode_nop : decode ⟨0x00000000#32, 0xDEADBEEF#32, 1#32, 2#32, 3#32⟩ = .ok .nop := by decide
theorem test_decode_sysStatus : decode ⟨0x01000000#32, 0#32, 0#32, 0#32, 0#32⟩ = .ok .sysStatus := by decide
theorem test_decode_rampPrepare : decode ⟨0x10030000#32, 0x11223344#32, 0x40E77000#32, 9#32, 9#32⟩ =
    .ok (.rampPrepare 3 0x40E7700011223344#64) := by decide
theorem test_decode_rampSetTarget : decode ⟨0x11FF0001#32, 0x3F800000#32, 9#32, 9#32, 9#32⟩ =
    .ok (.rampSetTarget 255 true 0x3F800000#32) := by decide
theorem test_decode_rampGetNext : decode ⟨0x12020000#32, 0#32, 0#32, 0#32, 0#32⟩ = .ok (.rampGetNext 2) := by decide
theorem test_decode_rampApplyGain : decode ⟨0x13010200#32, 5#32, 6#32, 9#32, 9#32⟩ =
    .ok (.rampApplyGain 1 2 5#32 6#32) := by decide
theorem test_decode_rampApplySum : decode ⟨0x1401FF00#32, 5#32, 6#32, 9#32, 9#32⟩ =
    .ok (.rampApplySum 1 255 5#32 6#32) := by decide
theorem test_decode_dlPrepare : decode ⟨0x20000100#32, 10#32, 9#32, 9#32, 9#32⟩ = .ok (.dlPrepare 0 1 10#32) := by decide
theorem test_decode_dlSetDelay : decode ⟨0x21FF0000#32, 5#32, 9#32, 9#32, 9#32⟩ = .ok (.dlSetDelay 255 5#32) := by decide
theorem test_decode_dlClear : decode ⟨0x22030000#32, 9#32, 9#32, 9#32, 9#32⟩ = .ok (.dlClear 3) := by decide
theorem test_decode_dlProcess : decode ⟨0x23010200#32, 5#32, 6#32, 9#32, 9#32⟩ = .ok (.dlProcess 1 2 5#32 6#32) := by decide
theorem test_decode_dlProcessMod : decode ⟨0x24010200#32, 5#32, 6#32, 7#32, 8#32⟩ =
    .ok (.dlProcessMod 1 2 5#32 6#32 7#32 8#32) := by decide
theorem test_decode_dlGetSample : decode ⟨0x25010000#32, 5#32, 9#32, 9#32, 9#32⟩ = .ok (.dlGetSample 1 0 5#32) := by decide
theorem test_decode_apPrepare : decode ⟨0x30000100#32, 0x11223344#32, 0x408F4000#32, 8#32, 9#32⟩ =
    .ok (.apPrepare 0 1 0x408F400011223344#64 8#32) := by decide
theorem test_decode_apSetCoeff : decode ⟨0x31010000#32, 5#32, 9#32, 9#32, 9#32⟩ = .ok (.apSetCoeff 1 5#32) := by decide
theorem test_decode_apSetDelayTime : decode ⟨0x32010000#32, 5#32, 9#32, 9#32, 9#32⟩ = .ok (.apSetDelayTime 1 5#32) := by
  decide
theorem test_decode_apClear : decode ⟨0x33010000#32, 9#32, 9#32, 9#32, 9#32⟩ = .ok (.apClear 1) := by decide
theorem test_decode_apProcess : decode ⟨0x34010200#32, 5#32, 6#32, 9#32, 9#32⟩ = .ok (.apProcess 1 2 5#32 6#32) := by decide
theorem test_decode_apProcessMod : decode ⟨0x35010200#32, 5#32, 6#32, 7#32, 8#32⟩ =
    .ok (.apProcessMod 1 2 5#32 6#32 7#32 8#32) := by decide
theorem test_decode_apGetSample : decode ⟨0x36010100#32, 5#32, 9#32, 9#32, 9#32⟩ = .ok (.apGetSample 1 1 5#32) := by decide
theorem test_decode_liPrepare : decode ⟨0x40000200#32, 0x11223344#32, 0x40E77000#32, 9#32, 9#32⟩ =
    .ok (.liPrepare 0 2 0x40E7700011223344#64) := by decide
theorem test_decode_liSetCoeff : decode ⟨0x41010001#32, 0x3FC00000#32, 9#32, 9#32, 9#32⟩ =
    .ok (.liSetCoeff 1 true 0x3FC00000#32) := by decide
theorem test_decode_liClear : decode ⟨0x42010000#32, 9#32, 9#32, 9#32, 9#32⟩ = .ok (.liClear 1) := by decide
theorem test_decode_liProcess : decode ⟨0x43000100#32, 5#32, 6#32, 9#32, 9#32⟩ = .ok (.liProcess 0 1 5#32 6#32) := by decide
theorem test_decode_lfoPrepare : decode ⟨0x50000000#32, 0x11223344#32, 0x408F4000#32, 9#32, 9#32⟩ =
    .ok (.lfoPrepare 0 0x408F400011223344#64) := by decide
theorem test_decode_lfoSetType : decode ⟨0x51000001#32, 9#32, 9#32, 9#32, 9#32⟩ = .ok (.lfoSetType 0 .triangle) := by decide
theorem test_decode_lfoSetFreq : decode ⟨0x52000000#32, 5#32, 9#32, 9#32, 9#32⟩ = .ok (.lfoSetFreq 0 5#32) := by decide
theorem test_decode_lfoSetDepth : decode ⟨0x53000001#32, 5#32, 9#32, 9#32, 9#32⟩ = .ok (.lfoSetDepth 0 true 5#32) := by decide
theorem test_decode_lfoSetOffset : decode ⟨0x54000000#32, 5#32, 9#32, 9#32, 9#32⟩ =
    .ok (.lfoSetOffset 0 false 5#32) := by decide
theorem test_decode_lfoClear : decode ⟨0x55000000#32, 9#32, 9#32, 9#32, 9#32⟩ = .ok (.lfoClear 0) := by decide
theorem test_decode_lfoNext : decode ⟨0x56000200#32, 9#32, 9#32, 9#32, 9#32⟩ = .ok (.lfoNext 0 2) := by decide
theorem test_decode_gpsPrepare : decode ⟨0x60000100#32, 0x11223344#32, 0x40E77000#32, 0x41200000#32, 9#32⟩ =
    .ok (.gpsPrepare 0 1 0x40E7700011223344#64 0x41200000#32) := by decide
theorem test_decode_gpsSetPitchRatio : decode ⟨0x61010000#32, 5#32, 9#32, 9#32, 9#32⟩ =
    .ok (.gpsSetPitchRatio 1 5#32) := by decide
theorem test_decode_gpsClear : decode ⟨0x62010000#32, 9#32, 9#32, 9#32, 9#32⟩ = .ok (.gpsClear 1) := by decide
theorem test_decode_gpsProcess : decode ⟨0x63010200#32, 5#32, 6#32, 9#32, 9#32⟩ = .ok (.gpsProcess 1 2 5#32 6#32) := by
  decide

/-- V-FLT-4, V-FLT-25: no such operation, whatever the other bits. -/
theorem test_decode_illegal : decode ⟨0x15000000#32, 0#32, 0#32, 0#32, 0#32⟩ = .error .illegalOp ∧
    decode ⟨0x02FFFFFF#32, 0#32, 0#32, 0#32, 0#32⟩ = .error .illegalOp := by decide
/-- V-FLT-7, V-FLT-8, V-FLT-11: a reserved bit of each format. -/
theorem test_decode_reserved : decode ⟨0x23000101#32, 0#32, 0#32, 0#32, 0#32⟩ = .error .reservedField ∧
    decode ⟨0x11000002#32, 0#32, 0#32, 0#32, 0#32⟩ = .error .reservedField ∧
    decode ⟨0x12000100#32, 0#32, 0#32, 0#32, 0#32⟩ = .error .reservedField ∧
    decode ⟨0x00010000#32, 0#32, 0#32, 0#32, 0#32⟩ = .error .reservedField := by decide

/-- The opcode table's numbering: `cmd_word` in bits 31:0, `d0` in bits 63:32, what lies above `nbits` zero. -/
theorem test_table_word : decodeTableWord 160 0x408F40000000000010000000 = some (.rampPrepare 0 0x408F400000000000#64) ∧
    decodeTableWord 32 0x408F40000000000010000000 = some (.rampPrepare 0 0#64) := by decide

/-! ### The bench: one unit of each kind, in the states of the spec's examples -/

def benchConfig : Config :=
  { Config.default with
    ramp := [⟨0x41200000#32⟩], dl := [⟨16⟩], ap := [⟨16, 0x3F733333#32, .outFirst⟩], li := [⟨0x41200000#32⟩]
    lfo := [⟨0x41200000#32, 0x41200000#32⟩], gps := [⟨32⟩] }

/-- `41_ramp.md` R124's example: `nsteps` 4, on the way from 0.0 to 1.0. -/
def benchRamp : RampUnit := ⟨true, 1000, ⟨4#32, 0#32, 0x3F800000#32, 0x3E800000#32, 4#32⟩⟩

/-- `42_delayline.md` R134's example: `cap` 11, `dly` 2, behind `w` the words 4.0, 3.0, 2.0, 1.0. -/
def benchDl : DLState :=
  ⟨true, 1, 11, 4, 2#32, 2,
    ⟨.zero, ⟨[(0, 0x3F800000#32), (1, 0x40000000#32), (2, 0x40400000#32), (3, 0x40800000#32)], []⟩⟩⟩

/-- `43_allpass.md` R161's example before its first step: `g` 0.5, `dl.dly` 1, `dl.cap` 9. -/
def benchAp : APState :=
  ⟨true, 1000, 0x3F000000#32, 0#32, ⟨0#32, 0#32⟩, ⟨true, 1, 9, 0, 1#32, 1, memClear⟩⟩

/-- `44_integrator.md` R173's example: coefficient 0.5, `y` +0.0, and `cr.nsteps` 4. -/
def benchLi : LIState := ⟨true, 400, 2, ⟨0#32, 0#32⟩, ⟨4#32, 0x3F000000#32, 0x3F000000#32, 0#32, 0#32⟩⟩

/-- `45_lfo.md` R188's example: `fs` 1000, 250 Hz, depth 2.0 and offset 1.0 samples, sine, phase 0. -/
def benchLfo : LFOState :=
  ⟨true, 1000, .sine, 0x437A0000#32, 0x40000000#32, 0#32, 0x40000000#32, 0x3F800000#32,
    ⟨10#32, 0x40000000#32, 0x40000000#32, 0#32, 0#32⟩, ⟨10#32, 0x3F800000#32, 0x3F800000#32, 0#32, 0#32⟩⟩

/-- `46_granular.md` R209's example before step 8: `N` 17, `H` 4, ratio 1.0, inputs 1.0, 2.0, 3.0, ... so far. -/
def benchGps : GPSState :=
  ⟨true, 17, 1, 17, 4, 8, 0, 0x3F800000#32, 0x3F800000#32, false, ⟨0, 0⟩,
    ⟨.zero, ⟨[(0, 0x3F800000#32), (1, 0x40000000#32), (2, 0x40400000#32), (3, 0x40800000#32)], []⟩⟩⟩

def bench : State :=
  { State.resetOf benchConfig 0 with
    ramps := [benchRamp], dls := [benchDl], aps := [benchAp], lis := [benchLi], lfos := [benchLfo], gpss := [benchGps] }

/-- The bench with other units than those above. -/
def benchReset : State := State.resetOf benchConfig 0

/-- The response a command gives on a state whose response queue is empty, and a view of the state it leaves. -/
def reply (o : Host.Outcome State Fault Refusal) : Option Response :=
  match o with
  | .next t => t.rspQ.head?
  | _ => none
def after {α : Type} (view : State → α) (o : Host.Outcome State Fault Refusal) : Option α :=
  match o with
  | .next t => some (view t)
  | _ => none

theorem test_bench_is_good : bench.inv = true ∧ bench.smoothed = true := by decide
theorem test_bench_reset_is_good : benchReset.inv = true ∧ benchReset.smoothed = true := by decide

/-! ### One step of each command -/

/-- V-SYS-1, V-SYS-6. -/
theorem test_nop : reply (exec .nop bench) = some ⟨0#8, 0#32, 0#32⟩ := by decide +kernel
theorem test_sysStatus : reply (exec .sysStatus { bench with err := 7#8 }) = some ⟨0#8, 7#32, 0#32⟩ := by decide +kernel
/-- V-NUM-1, V-NUM-10. -/
theorem test_rampPrepare : reply (exec (.rampPrepare 0 0x40E7700000000000#64) bench) = some ⟨0#8, 480#32, 0#32⟩ := by decide +kernel
theorem test_rampPrepare_infinite :
    reply (exec (.rampPrepare 0 0x7FF0000000000000#64) bench) = some ⟨0#8, 7680#32, 0#32⟩ := by decide +kernel
/-- R124's example: `inc` 0.25, `cnt` 4. -/
theorem test_rampSetTarget : after (fun t => t.ramps) (exec (.rampSetTarget 0 false 0x3F800000#32)
    { bench with ramps := [⟨true, 1000, ⟨4#32, 0#32, 0#32, 0#32, 0#32⟩⟩] }) = some [benchRamp] := by decide +kernel
/-- R125's example: the old value, then 0.25. -/
theorem test_rampGetNext : after (fun t => (t.rspQ.head?, t.ramps)) (exec (.rampGetNext 0) bench) =
    some (some ⟨0#8, 0#32, 0#32⟩, [⟨true, 1000, ⟨4#32, 0x3E800000#32, 0x3F800000#32, 0x3E800000#32, 3#32⟩⟩]) := by decide +kernel
/-- V-RAMP-35, V-RAMP-36, at a value of 0.5. -/
theorem test_rampApplyGain : reply (exec (.rampApplyGain 0 2 0x3F800000#32 0xC0000000#32)
    { bench with ramps := [⟨true, 1000, ⟨10#32, 0x3F000000#32, 0x3F000000#32, 0#32, 0#32⟩⟩] }) =
    some ⟨0#8, 0x3F000000#32, 0xBF800000#32⟩ := by decide +kernel
theorem test_rampApplySum : reply (exec (.rampApplySum 0 1 0x3F800000#32 0x41100000#32)
    { bench with ramps := [⟨true, 1000, ⟨10#32, 0x3F000000#32, 0x3F000000#32, 0#32, 0#32⟩⟩] }) =
    some ⟨0#8, 0x3FC00000#32, 0#32⟩ := by decide +kernel
/-- V-DL-2, and R130's example. -/
theorem test_dlPrepare_deep : reply (exec (.dlPrepare 0 7 100#32) benchReset) = some ⟨0#8, 16#32, 1#32⟩ := by decide +kernel
theorem test_dlPrepare : reply (exec (.dlPrepare 0 1 10#32) benchReset) = some ⟨0#8, 11#32, 1#32⟩ := by decide +kernel
/-- R131's examples, `cap` 11. -/
theorem test_dlSetDelay : reply (exec (.dlSetDelay 0 5#32) bench) = some ⟨0#8, 5#32, 0#32⟩ := by decide +kernel
theorem test_dlSetDelay_long : reply (exec (.dlSetDelay 0 99#32) bench) = some ⟨0#8, 10#32, 0#32⟩ := by decide +kernel
/-- R132: the buffer reads +0.0, `w` stays. -/
theorem test_dlClear : after (fun t => t.dls) (exec (.dlClear 0) bench) = some [{ benchDl with mem := memClear }] := by decide +kernel
/-- R79: write 5.0 at slot 4, return slot 2 (3.0), advance. -/
theorem test_dlProcess : after (fun t => (t.rspQ.head?, t.dls.map fun S => (S.w, memRead S.mem 0 4)))
    (exec (.dlProcess 0 1 0x40A00000#32 0#32) bench) =
    some (some ⟨0#8, 0x40400000#32, 0#32⟩, [(5, 0x40A00000#32)]) := by decide +kernel
/-- R134's example: 2.75. -/
theorem test_dlProcessMod : reply (exec (.dlProcessMod 0 1 0x40A00000#32 0#32 0x3E800000#32 0#32) bench) =
    some ⟨0#8, 0x40300000#32, 0#32⟩ := by decide +kernel
/-- R135's example and its corner offset 0. -/
theorem test_dlGetSample : reply (exec (.dlGetSample 0 0 1#32) bench) = some ⟨0#8, 0x40800000#32, 0#32⟩ := by decide +kernel
theorem test_dlGetSample_zero : reply (exec (.dlGetSample 0 9 0#32) bench) = some ⟨0#8, 0x40800000#32, 0#32⟩ := by decide +kernel
/-- R150's example. -/
theorem test_apPrepare : reply (exec (.apPrepare 0 1 0x408F400000000000#64 8#32)
    { benchReset with aps := [{ APState.reset 1 with dtMs := 0x40000000#32 }] }) = some ⟨0#8, 9#32, 2#32⟩ := by decide +kernel
/-- R151's example and its NaN corner. -/
theorem test_apSetCoeff : reply (exec (.apSetCoeff 0 0x40000000#32) bench) = some ⟨0#8, 0x3F733333#32, 0#32⟩ := by decide +kernel
theorem test_apSetCoeff_nan : reply (exec (.apSetCoeff 0 0x7FC00000#32) bench) = some ⟨0#8, 0xBF733333#32, 0#32⟩ := by decide +kernel
/-- V-NUM-13, V-NUM-16: ties round up. -/
theorem test_apSetDelayTime : reply (exec (.apSetDelayTime 0 0x40200000#32) bench) = some ⟨0#8, 3#32, 0#32⟩ := by decide +kernel
theorem test_apSetDelayTime_half : reply (exec (.apSetDelayTime 0 0x3F000000#32) bench) = some ⟨0#8, 1#32, 0#32⟩ := by decide +kernel
/-- R153. -/
theorem test_apClear : after (fun t => t.aps) (exec (.apClear 0)
    { bench with aps := [{ benchAp with fb := ⟨5#32, 6#32⟩, dl := { benchAp.dl with mem := ⟨.zero, ⟨[(0, 7#32)], []⟩⟩ } }] }) =
    some [benchAp] := by decide +kernel
/-- R161's example, step 0: output 0.5, 0.75 stored; R159's example after it. -/
theorem test_apProcess : after (fun t => (t.rspQ.head?, t.aps.map fun A => (A.dl.mem.cells.c0, A.fb.c0)))
    (exec (.apProcess 0 1 0x3F800000#32 0#32) bench) =
    some (some ⟨0#8, 0x3F000000#32, 0#32⟩, [([(0, 0x3F400000#32)], 0#32)]) := by decide +kernel
theorem test_apGetSample : reply (exec (.apGetSample 0 0 1#32)
    { bench with aps := [{ benchAp with dl := { benchAp.dl with w := 1, mem := ⟨.zero, ⟨[(0, 0x3F400000#32)], []⟩⟩ } }] }) =
    some ⟨0#8, 0x3F400000#32, 0#32⟩ := by decide +kernel
/-- R155's example: returns 4.0, `fb` becomes 6.0. -/
theorem test_apProcessMod : after (fun t => (t.rspQ.head?, t.aps.map fun A => A.fb.c0))
    (exec (.apProcessMod 0 1 0#32 0#32 0x3F000000#32 0#32)
      { bench with aps := [{ benchAp with
          g := 0#32, fb := ⟨0x40800000#32, 0#32⟩
          dl := { benchAp.dl with w := 2, mem := ⟨.zero, ⟨[(0, 0x40800000#32), (1, 0x41000000#32)], []⟩⟩ } }] }) =
    some (some ⟨0#8, 0x40800000#32, 0#32⟩, [0x40C00000#32]) := by decide +kernel
/-- R170's example. -/
theorem test_liPrepare : reply (exec (.liPrepare 0 2 0x40E7700000000000#64) benchReset) = some ⟨0#8, 480#32, 0#32⟩ := by decide +kernel
/-- R171's examples. -/
theorem test_liSetCoeff : after (fun t => (t.rspQ.head?, t.lis.map fun L => L.cr))
    (exec (.liSetCoeff 0 false 0x3F000000#32)
      { bench with lis := [{ benchLi with cr := ⟨4#32, 0x3F800000#32, 0x3F800000#32, 0#32, 0#32⟩ }] }) =
    some (some ⟨0#8, 0x3F000000#32, 0#32⟩, [⟨4#32, 0x3F800000#32, 0x3F000000#32, 0xBE000000#32, 4#32⟩]) := by decide +kernel
theorem test_liSetCoeff_forced : reply (exec (.liSetCoeff 0 true 0x3FC00000#32) bench) =
    some ⟨0#8, 0x3F800000#32, 0#32⟩ := by decide +kernel
/-- R172. -/
theorem test_liClear : after (fun t => t.lis) (exec (.liClear 0) { bench with lis := [{ benchLi with y := ⟨5#32, 6#32⟩ }] }) =
    some [benchLi] := by decide +kernel
/-- R173's example: 0.5, then 0.75. -/
theorem test_liProcess : reply (exec (.liProcess 0 1 0x3F800000#32 0#32) bench) = some ⟨0#8, 0x3F000000#32, 0#32⟩ := by decide +kernel
theorem test_liProcess_second : reply (exec (.liProcess 0 1 0x3F800000#32 0#32)
    { bench with lis := [{ benchLi with y := ⟨0x3F000000#32, 0#32⟩ }] }) = some ⟨0#8, 0x3F400000#32, 0#32⟩ := by decide +kernel
/-- R182's example. -/
theorem test_lfoPrepare : reply (exec (.lfoPrepare 0 0x408F400000000000#64)
    { benchReset with lfos := [{ LFOState.reset with fq := 0x437A0000#32 }] }) = some ⟨0#8, 0x40000000#32, 0#32⟩ := by decide +kernel
/-- R183's example. -/
theorem test_lfoSetType : after (fun t => t.lfos) (exec (.lfoSetType 0 .triangle) bench) =
    some [{ benchLfo with typ := .triangle }] := by decide +kernel
/-- R184's example. -/
theorem test_lfoSetFreq : reply (exec (.lfoSetFreq 0 0x3F800000#32)
    { bench with lfos := [{ benchLfo with fs := 48000 }] }) = some ⟨0#8, 0x00015D86#32, 0#32⟩ := by decide +kernel
/-- R185's and R186's examples. -/
theorem test_lfoSetDepth : reply (exec (.lfoSetDepth 0 true 0x40000000#32) bench) = some ⟨0#8, 0x40000000#32, 0#32⟩ := by decide +kernel
theorem test_lfoSetOffset : reply (exec (.lfoSetOffset 0 true 0x3F800000#32) bench) = some ⟨0#8, 0x3F800000#32, 0#32⟩ := by decide +kernel
/-- R187. -/
theorem test_lfoClear : after (fun t => t.lfos) (exec (.lfoClear 0) { bench with lfos := [{ benchLfo with P := 5#32 }] }) =
    some [benchLfo] := by decide +kernel
/-- R188's example: sine (2.0, 3.0), triangle (3.0, 2.0), and the phase after it. -/
theorem test_lfoNext : after (fun t => (t.rspQ.head?, t.lfos.map fun O => O.P)) (exec (.lfoNext 0 2) bench) =
    some (some ⟨0#8, 0x40000000#32, 0x40400000#32⟩, [0x40000000#32]) := by decide +kernel
theorem test_lfoNext_triangle : reply (exec (.lfoNext 0 2) { bench with lfos := [{ benchLfo with typ := .triangle }] }) =
    some ⟨0#8, 0x40400000#32, 0x40000000#32⟩ := by decide +kernel
/-- R201's second example. -/
theorem test_gpsPrepare : reply (exec (.gpsPrepare 0 1 0x4031000000000000#64 0x43FA0000#32) benchReset) =
    some ⟨0#8, 17#32, 4#32⟩ := by decide +kernel
/-- R202's example. -/
theorem test_gpsSetPitchRatio : reply (exec (.gpsSetPitchRatio 0 0x40800000#32) bench) =
    some ⟨0#8, 0x40000000#32, 0#32⟩ := by decide +kernel
/-- R203: cleared, `k` 0, both grains 8 slots behind `w` = 8. -/
theorem test_gpsClear : after (fun t => t.gpss) (exec (.gpsClear 0)
    { bench with gpss := [{ benchGps with k := 3, ng := true, rp := ⟨1, 2⟩ }] }) =
    some [{ benchGps with mem := memClear }] := by decide +kernel
/-- R209's example, step 8: 1.0; and the positions after it. -/
theorem test_gpsProcess : after (fun t => (t.rspQ.head?, t.gpss.map fun G => [G.w, G.k, G.rp.c0, G.rp.c1]))
    (exec (.gpsProcess 0 1 0x41100000#32 0#32) bench) =
    some (some ⟨0#8, 0x3F800000#32, 0#32⟩, [[9, 1, 2 ^ 25, 2 ^ 25]]) := by decide +kernel

/-- Log 19: at a whole position -0.0 reads as +0.0 beside a word of positive sign, as -0.0 beside one of negative sign. -/
theorem test_lerp_sign_of_zero : lerp 0x80000000#32 0x3F800000#32 0#32 = 0#32 ∧
    lerp 0x80000000#32 0xBF800000#32 0#32 = 0x80000000#32 := by decide +kernel

/-- V-FLT-12, V-FLT-17, V-FLT-1: the faults and their `ERR` bits. -/
theorem test_badUnit : after (fun t => (t.rspQ.head?, t.err)) (exec (.dlProcess 1 1 0#32 0#32) bench) =
    some (some ⟨3#8, 0#32, 0#32⟩, 4#8) := by decide +kernel
theorem test_unprepared : after (fun t => (t.rspQ.head?, t.err)) (exec (.dlProcess 0 1 0#32 0#32) benchReset) =
    some (some ⟨4#8, 0#32, 0#32⟩, 8#8) := by decide +kernel
theorem test_illegalOp_step :
    after (fun t => (t.rspQ.head?, t.err)) (step { bench with inp := [.command ⟨0x02000000#32, 0#32, 0#32, 0#32, 0#32⟩] }) =
    some (some ⟨1#8, 0#32, 0#32⟩, 1#8) := by decide +kernel
/-- A packet placed with `withFetchWord` on the reset state is the next thing that runs: V-FLT-29. -/
theorem test_fetch : reply (step (State.reset.withFetchWord 64 0x0000000721010000)) = some ⟨0#8, 0#32, 0#32⟩ := by decide +kernel
/-- R242: a reset leaves every buffer with unspecified contents of its own, and the next reset with other ones. -/
theorem test_reset_edge : step { bench with inp := [.reset] } = .next (State.resetOf benchConfig 3) := rfl
theorem test_reset_buffers : (benchReset.dls.map fun S => S.mem.fill) = [.unspecified 0] ∧
    (benchReset.aps.map fun A => A.dl.mem.fill) = [.unspecified 1] ∧
    (benchReset.gpss.map fun G => G.mem.fill) = [.unspecified 2] ∧ benchReset.fresh = 3 := by decide
theorem test_reset_buffers_read_free_values : memRead (DLState.reset 0).mem 1 5 = Config.unspecifiedWord 0 1 5 := rfl

/-! ### The sine generator

The stated instance of U7 on the vectors that `96_test_vectors_part2.md` marks with a dagger. -/

def rounded : Config := { benchConfig with sine := .rounded }

/-- The words of sin 45°, sin 22.5° and sin 67.5°, and one word beside the first. -/
theorem test_sineRounded : sineRounded 0x20000000#32 = 0x3F3504F3#32 ∧ sineRounded 0x10000000#32 = 0x3EC3EF15#32 ∧
    sineRounded 0xB0000000#32 = 0xBF6C835E#32 := by decide +kernel
theorem test_sineWithin : sineWithin (mkRat 1 (2 ^ 25)) 0x20000000#32 0x3F3504F3#32 = true ∧
    sineWithin (mkRat 1 (2 ^ 25)) 0x20000000#32 0x3F3504F4#32 = false := by decide +kernel
/-- V-LFO-17 and V-LFO-19: the waveform at 45 degrees and at 225. -/
theorem test_wave_rounded : wave rounded .sine 0x20000000#32 = 0x3F5A827A#32 ∧
    wave rounded .sine 0xA0000000#32 = 0x3E15F61A#32 := by decide +kernel
/-- V-GPS-12: step 9 of R209's example. -/
theorem test_gpsProcess_rounded : reply (exec (.gpsProcess 0 1 0x41200000#32 0#32)
    { bench with
      cfg := rounded
      gpss := [{ benchGps with w := 9, k := 1, ng := true, rp := ⟨2 ^ 25, 2 ^ 25⟩ }] }) =
    some ⟨0#8, 0x40273D74#32, 0#32⟩ := by decide +kernel

/-! ### The hypotheses of the statements can be met

One theorem for each statement with hypotheses (`meets_<name>`), with a value at the boundary of each of its clauses. -/

/-- The packets `CLEAR` of DelayLine 0, `DL_PROCESS` of DelayLine 0 and of DelayLine 1, and an illegal one, presented. -/
def clearPacket : Packet := ⟨0x22000000#32, 0#32, 0#32, 0#32, 0#32⟩
def processPacket : Packet := ⟨0x23000100#32, 0x3F800000#32, 0#32, 0#32, 0#32⟩
def noUnitPacket : Packet := ⟨0x23010100#32, 0#32, 0#32, 0#32, 0#32⟩
def illegalPacket : Packet := ⟨0x64000000#32, 0#32, 0#32, 0#32, 0#32⟩
def presented (p : Packet) (s : State) : State := { s with inp := [.command p, .deliver] }

theorem meets_DecodeInvertsEncode : (Instr.dlProcess 255 255 1#32 2#32).wellFormed = true ∧
    (Instr.rampSetTarget 0 true 0#32).wellFormed = true := by decide
theorem meets_DecodedCommandKeepsEveryWordBit :
    decode ⟨0x24FFFF00#32, 1#32, 2#32, 3#32, 4#32⟩ = .ok (.dlProcessMod 255 255 1#32 2#32 3#32 4#32) := by decide
theorem meets_StepRunsTheDecodedCommand :
    (presented processPacket bench).inp = .command processPacket :: [.deliver] ∧
    decode processPacket = .ok (.dlProcess 0 1 0x3F800000#32 0#32) := by decide
theorem meets_DeliveryAndIdleKeepTheMachine :
    bench.inp = [] ∧ { bench with inp := [.deliver, .reset] }.inp = .deliver :: [.reset] := by decide
theorem meets_EveryPacketGetsOneResponse :
    (presented illegalPacket bench).inp = .command illegalPacket :: [.deliver] := by decide

/-- Both sides of every boundary of the legal opcodes. -/
theorem meets_IllegalOpIsReported :
    (presented illegalPacket bench).inp = .command illegalPacket :: [.deliver] ∧
    ¬ legalOp (illegalPacket.word.toNat / 2 ^ 24) ∧ legalOp (processPacket.word.toNat / 2 ^ 24) ∧
    legalOp 0x01 ∧ ¬ legalOp 0x02 ∧ ¬ legalOp 0x0F ∧ legalOp 0x10 ∧ legalOp 0x14 ∧ ¬ legalOp 0x15 ∧ legalOp 0x25 ∧
    ¬ legalOp 0x26 ∧ legalOp 0x36 ∧ ¬ legalOp 0x37 ∧ legalOp 0x43 ∧ ¬ legalOp 0x44 ∧ legalOp 0x56 ∧ ¬ legalOp 0x57 ∧
    legalOp 0x63 ∧ ¬ legalOp 0x64 ∧ ¬ legalOp 0xFF := by
  simp [legalOp, presented, illegalPacket, processPacket]
/-- The highest and the lowest reserved bit of a format N word, and a word without one. -/
theorem meets_ReservedFieldIsReported :
    (presented ⟨0x22008000#32, 0#32, 0#32, 0#32, 0#32⟩ bench).inp =
      .command ⟨0x22008000#32, 0#32, 0#32, 0#32, 0#32⟩ :: [.deliver] ∧
    legalOp ((0x22008000#32).toNat / 2 ^ 24) ∧ legalOp (clearPacket.word.toNat / 2 ^ 24) ∧
    0x22008000#32 &&& reservedMask ((0x22008000#32).toNat / 2 ^ 24) ≠ 0#32 ∧
    0x22000001#32 &&& reservedMask ((0x22000001#32).toNat / 2 ^ 24) ≠ 0#32 ∧
    clearPacket.word &&& reservedMask (clearPacket.word.toNat / 2 ^ 24) = 0#32 := by
  simp [legalOp, reservedMask, clearPacket, presented]
/-- Unit 1 of one DelayLine, and unit 0. -/
theorem meets_BadUnitIsReported :
    (presented noUnitPacket bench).inp = .command noUnitPacket :: [.deliver] ∧
    decode noUnitPacket = .ok (.dlProcess 1 1 0#32 0#32) ∧
    (Instr.dlProcess 1 1 0#32 0#32).target = some (.dl, 1) ∧ instances bench.cfg .dl = 1 ∧
    (presented processPacket bench).inv = true ∧ (Instr.dlProcess 0 1 0x3F800000#32 0#32).target = some (.dl, 0) ∧
    Instr.nop.target = none := by decide
theorem meets_UnpreparedIsReported :
    (Instr.dlClear 0).target = some (.dl, 0) ∧ 0 < instances benchReset.cfg .dl ∧ (Instr.dlClear 0).needsPrepared = true ∧
    preparedBit benchReset .dl 0 = some false ∧ preparedBit bench .dl 0 = some true ∧
    (Instr.dlSetDelay 0 0#32).needsPrepared = false ∧ (presented clearPacket bench).inp.head? ≠ some .reset := by decide
theorem meets_UnpreparedIsReported_step : step (presented clearPacket bench) =
    .next (complete 0#32 0#32 (State.putDl 0 { benchDl with mem := memClear } (presented clearPacket bench))) := rfl
theorem meets_FaultsArePrecise : step (presented noUnitPacket bench) = .next (faulted 3#8 4#8 (presented noUnitPacket bench)) ∧
    (faulted 3#8 4#8 (presented noUnitPacket bench)).rspQ = (presented noUnitPacket bench).rspQ ++ [⟨3#8, 0#32, 0#32⟩] ∧
    decode ⟨0#32, 0#32, 0#32, 0#32, 0#32⟩ = .ok .nop := ⟨rfl, rfl, rfl⟩
/-- The second and third clauses: a reset edge, and the bits 7:4 at zero with all of 3:0 set. -/
theorem meets_ErrBitsAreSticky :
    step (presented noUnitPacket { bench with err := 0x0F#8 }) =
      .next (faulted 3#8 4#8 (presented noUnitPacket { bench with err := 0x0F#8 })) ∧
    step { bench with inp := [.reset], err := 0x0F#8 } = .next (State.resetOf benchConfig 3) ∧ 0x0F#8 &&& 0xF0#8 = 0x00#8 := ⟨rfl, rfl, rfl⟩
theorem meets_ResetLeavesTheStatedValues : { bench with inp := [.reset, .deliver] }.inp = .reset :: [.deliver] := rfl
/-- The smallest legal configuration, and the default one. -/
theorem meets_EveryLegalConfigurationResetsWell :
    Config.wf ⟨[⟨0#32⟩], [⟨2⟩], [⟨2, 1#32, .asWritten⟩], [⟨0#32⟩], [⟨0#32, 0x7F7FFFFF#32⟩], [⟨17⟩], 1, .rounded, 0⟩ = true ∧
    Config.wf Config.default = true := by decide +kernel
theorem meets_StepKeepsTheInvariant : (presented clearPacket bench).inv = true ∧
    step (presented clearPacket bench) =
      .next (complete 0#32 0#32 (State.putDl 0 { benchDl with mem := memClear } (presented clearPacket bench))) :=
  ⟨by decide +kernel, rfl⟩
theorem meets_StepKeepsSmoothedValuesLegal :
    (presented clearPacket bench).inv = true ∧ (presented clearPacket bench).smoothed = true := by decide +kernel

/-- The bound of the finite results: just below it, at it, at its negative; and the largest finite word. -/
theorem meets_RoundingIsToNearestEven : |(2 ^ 128 - 2 ^ 103 - 1 : Rat)| < 2 ^ 128 - 2 ^ 103 ∧ isFinite 0x7F7FFFFF#32 = true ∧
    (2 ^ 128 - 2 ^ 103 : Rat) ≤ 2 ^ 128 - 2 ^ 103 ∧ (-(2 ^ 128 - 2 ^ 103) : Rat) ≤ -(2 ^ 128 - 2 ^ 103) := by
  refine ⟨by norm_num, by decide, by norm_num, by norm_num⟩
theorem meets_OperatorsRoundTheExactResult : isFinite 0x7F7FFFFF#32 = true ∧ isFinite 0x80000000#32 = true ∧
    isNaN 0x7F800001#32 = true ∧ isNaN 0xFFC00000#32 = true := by decide
theorem meets_OperatorsOnInfinities : isInf 0x7F800000#32 = true ∧ isInf 0xFF800000#32 = true ∧
    isFinite 0x00000001#32 = true := by decide
theorem meets_ComparisonsAreOfTheValues : isFinite 0xFF7FFFFF#32 = true ∧ isFinite 0x80000000#32 = true ∧
    isInf 0xFF800000#32 = true ∧ isInf 0x7F800000#32 = true ∧ isNaN 0x7FC00000#32 = true := by decide
/-- Equal bounds, a NaN, a value below, above, and at a bound (-0.0 at +0.0). -/
theorem meets_FloatClampFollowsR13 : isFinite 0#32 = true ∧ isFinite 0x3F800000#32 = true ∧ fval 0#32 ≤ fval 0#32 ∧
    fval 0#32 ≤ fval 0x3F800000#32 ∧ isNaN 0x7FC00000#32 = true ∧ flt 0x80000001#32 0#32 = true ∧
    flt 0x3F800000#32 0x3F800001#32 = true ∧ isNaN 0x80000000#32 = false ∧ flt 0x80000000#32 0#32 = false ∧
    flt 0x3F800000#32 0x80000000#32 = false := by decide +kernel
theorem meets_TimesConvertExactly : isFinite 0x80000000#32 = true ∧ 0 ≤ fval 0x80000000#32 ∧
    isFinite 0x7F7FFFFF#32 = true ∧ 0 ≤ fval 0x7F7FFFFF#32 ∧ (1 : Rat) ≤ 1 := by decide +kernel
/-- Both clauses: an infinity and a NaN; the word of 1.0 and the largest finite word. -/
theorem meets_SampleRateOperandIsClamped : (1 : Rat) ≤ 1 ∧ dexp 0x7FF0000000000000#64 = 2047 ∧
    dexp 0x7FF0000000000001#64 = 2047 ∧ dexp 0x3FF0000000000000#64 < 2047 ∧ dexp 0x7FEFFFFFFFFFFFFF#64 < 2047 := by
  decide +kernel
/-- Both halves of the turn meet at 2^31; the smallest tolerance of the second clause, and the default one. -/
theorem meets_SineGeneratorKeepsItsProperties : (0x80000000#32).toNat ≤ 2 ^ 31 ∧ 2 ^ 31 ≤ (0x80000000#32).toNat ∧
    1 / 2 ^ 25 ≤ ({ Config.default with sinTol := 1 / 2 ^ 25 } : Config).sinTol ∧ 1 / 2 ^ 25 ≤ Config.default.sinTol :=
  ⟨by decide, by decide, le_refl _, by decide +kernel⟩

theorem meets_RampFunctionsFollowTheSpec : (0#32).toNat = 0 ∧ (1#32).toNat = 1 ∧ 1 < (2#32).toNat := by decide
theorem meets_RampSettersComplete : bench.cfg.ramp[0]? = some ⟨0x41200000#32⟩ ∧ bench.ramps[0]? = some benchRamp := by decide
theorem meets_RampStepsComplete : bench.cfg.ramp[0]? = some ⟨0x41200000#32⟩ ∧ bench.ramps[0]? = some benchRamp ∧
    benchRamp.prepared = true := by decide
/-- Upward, downward, in one step, and a distance that overflows. -/
theorem meets_RampReachesItsTargetMonotonically :
    isFinite benchRamp.ramp.cur = true ∧ isFinite 0x3F800000#32 = true ∧ 1 ≤ benchRamp.ramp.nsteps.toNat ∧ 1 ≤ (1#32).toNat ∧
    fval benchRamp.ramp.cur ≤ fval 0x3F800000#32 ∧ fval 0xBF800000#32 ≤ fval benchRamp.ramp.cur ∧
    isInf (fsub 0x7F7FFFFF#32 0xFF7FFFFF#32) = true := by decide +kernel

theorem meets_DelayLinePrepareCompletes : bench.cfg.dl[0]? = some ⟨16⟩ ∧ bench.dls[0]? = some benchDl ∧ 2 ≤ 16 := by decide
theorem meets_DelayLineSetAndClearComplete : bench.cfg.dl[0]? = some ⟨16⟩ ∧ bench.dls[0]? = some benchDl ∧
    benchDl.prepared = true ∧ 2 ≤ benchDl.cap ∧ benchReset.cfg.dl[0]? = some ⟨16⟩ ∧
    benchReset.dls[0]? = some (DLState.reset 0) ∧ (DLState.reset 0).prepared = false := by decide
theorem meets_DelayLineProcessCompletes : bench.cfg.dl[0]? = some ⟨16⟩ ∧ bench.dls[0]? = some benchDl ∧
    benchDl.prepared = true ∧ DLState.wf 16 benchDl = true := by decide
theorem meets_DelayLineProcessModCompletes : bench.cfg.dl[0]? = some ⟨16⟩ ∧ bench.dls[0]? = some benchDl ∧
    benchDl.prepared = true ∧ DLState.wf 16 benchDl = true := by decide
theorem meets_TapsCompleteAndChangeNoUnit : bench.cfg.dl[0]? = some ⟨16⟩ ∧ bench.dls[0]? = some benchDl ∧
    benchDl.prepared = true ∧ DLState.wf 16 benchDl = true ∧
    bench.cfg.ap[0]? = some ⟨16, 0x3F733333#32, .outFirst⟩ ∧ bench.aps[0]? = some benchAp ∧ benchAp.prepared = true ∧
    benchAp.dl.prepared = true ∧ DLState.wf 16 benchAp.dl = true := by decide
theorem meets_TapAgreesWithTheStep : 16 < 2 ^ 31 ∧ benchDl.prepared = true ∧ DLState.wf 16 benchDl = true ∧
    1 ≤ benchDl.nch ∧ 0 < 1 := by decide
/-- A cleared DelayLine, with the impulse of `42_delayline.md` R139 presented. -/
theorem meets_DelayLineDelaysByItsSetting :
    let S : DLState := { benchDl with mem := memClear }
    let xs : List (Chans Word) := [⟨0x3F800000#32, 0#32⟩, ⟨0#32, 0#32⟩]
    let s : State := { bench with
      dls := [S], inp := xs.map (fun x => .command (encode (.dlProcess 0 1 x.c0 x.c1))) }
    s.cfg.dl[0]? = some ⟨16⟩ ∧ s.dls[0]? = some S ∧ S.prepared = true ∧ DLState.wf 16 S = true ∧ cleared S.mem ∧
    s.inp = [.command processPacket, .command ⟨0x23000100#32, 0#32, 0#32, 0#32, 0#32⟩] :=
  ⟨rfl, rfl, rfl, by decide, fun c j => memRead_memClear c j, by decide⟩

theorem meets_AllPassPrepareCompletes : bench.cfg.ap[0]? = some ⟨16, 0x3F733333#32, .outFirst⟩ ∧
    bench.aps[0]? = some benchAp ∧ 2 ≤ 16 := by decide
theorem meets_AllPassSettersComplete : bench.cfg.ap[0]? = some ⟨16, 0x3F733333#32, .outFirst⟩ ∧
    bench.aps[0]? = some benchAp ∧ benchAp.prepared = true ∧ 2 ≤ benchAp.dl.cap ∧
    benchReset.aps[0]? = some (APState.reset 1) ∧ (APState.reset 1).prepared = false := by decide
theorem meets_AllPassClearCompletes : bench.cfg.ap[0]? = some ⟨16, 0x3F733333#32, .outFirst⟩ ∧
    bench.aps[0]? = some benchAp ∧ benchAp.prepared = true := by decide
theorem meets_AllPassProcessCompletes : bench.cfg.ap[0]? = some ⟨16, 0x3F733333#32, .outFirst⟩ ∧
    bench.aps[0]? = some benchAp ∧ benchAp.prepared = true ∧ benchAp.dl.prepared = true ∧
    DLState.wf 16 benchAp.dl = true := by decide
theorem meets_AllPassProcessModCompletes : bench.cfg.ap[0]? = some ⟨16, 0x3F733333#32, .outFirst⟩ ∧
    bench.aps[0]? = some benchAp ∧ benchAp.prepared = true ∧ benchAp.dl.prepared = true ∧
    DLState.wf 16 benchAp.dl = true := by decide

theorem meets_IntegratorSettersComplete : bench.cfg.li[0]? = some ⟨0x41200000#32⟩ ∧ bench.lis[0]? = some benchLi ∧
    benchLi.prepared = true := by decide
theorem meets_IntegratorProcessCompletes : bench.cfg.li[0]? = some ⟨0x41200000#32⟩ ∧ bench.lis[0]? = some benchLi ∧
    benchLi.prepared = true ∧ legalCount benchLi.nch = true := by decide
/-- A memory and an input for each clause: -0.0, an infinity, a NaN. -/
theorem meets_IntegratorCornerCoefficients : isFinite 0x80000000#32 = true ∧ isNaN 0x80000000#32 = false ∧
    isNaN 0x7F800000#32 = false ∧ isFinite 0x7F800000#32 = false ∧ isNaN 0x7FC00000#32 = true ∧
    fsign 0#32 = false ∧ fsign 0x80000000#32 = true := by decide

theorem meets_LfoPrepareCompletes : bench.cfg.lfo[0]? = some ⟨0x41200000#32, 0x41200000#32⟩ ∧
    bench.lfos[0]? = some benchLfo := by decide
theorem meets_LfoSettersComplete : bench.cfg.lfo[0]? = some ⟨0x41200000#32, 0x41200000#32⟩ ∧
    bench.lfos[0]? = some benchLfo ∧ benchLfo.prepared = true ∧
    benchReset.lfos[0]? = some LFOState.reset ∧ LFOState.reset.prepared = false := by decide
theorem meets_LfoClearAndNextComplete : bench.cfg.lfo[0]? = some ⟨0x41200000#32, 0x41200000#32⟩ ∧
    bench.lfos[0]? = some benchLfo ∧ benchLfo.prepared = true := by decide
theorem meets_LfoOutputIsNeverNegative : bench.smoothed = true ∧ bench.lfos[0]? = some benchLfo ∧
    benchLfo.prepared = true ∧ (after (fun _ => ()) (exec (.lfoNext 0 2) bench)).isSome = true := by decide +kernel

theorem meets_GranularPrepareCompletes : bench.cfg.gps[0]? = some ⟨32⟩ ∧ bench.gpss[0]? = some benchGps ∧ 17 ≤ 32 ∧
    inRange 0x3E800000#32 0x40000000#32 benchGps.rSet = true := by decide
theorem meets_GranularSetAndClearComplete : bench.cfg.gps[0]? = some ⟨32⟩ ∧ bench.gpss[0]? = some benchGps ∧
    benchGps.prepared = true ∧ GPSState.wf bench.cfg.fsMax ⟨32⟩ benchGps = true := by decide +kernel
/-- At `k` = 0 (the bench) and inside a half-grain. -/
theorem meets_GranularProcessCompletes : bench.cfg.gps[0]? = some ⟨32⟩ ∧ bench.gpss[0]? = some benchGps ∧
    benchGps.prepared = true ∧ GPSState.wf bench.cfg.fsMax ⟨32⟩ benchGps = true ∧
    GPSState.wf bench.cfg.fsMax ⟨32⟩ { benchGps with k := 3 } = true := by decide +kernel
theorem meets_EnvelopeWeightsStayInRange : benchGps.prepared = true ∧ benchGps.k = 0 ∧
    GPSState.wf bench.cfg.fsMax ⟨32⟩ benchGps = true ∧ GPSState.wf bench.cfg.fsMax ⟨32⟩ { benchGps with k := 3 } = true := by
  decide +kernel
/-- The bench is at the start of a half-grain, and its grains are placed. -/
theorem meets_PlacedGrainsStaySafe : benchGps.prepared = true ∧ GPSState.wf 768000 ⟨32⟩ benchGps = true ∧
    benchGps.k = 0 ∧ grainsPlaced benchGps = true := by decide +kernel
/-- A restarted unit before its first step, and within and at the end of the half-grain that follows. -/
theorem meets_FreshGrainsReadSafely : 4 ≤ benchGps.H ∧ 4 * benchGps.H < benchGps.N ∧
    inRange 0x3E800000#32 0x40000000#32 benchGps.rSet = true ∧ benchGps.prepared = true ∧
    ∀ j ∈ [0, 1, 3], GPSState.wf 768000 ⟨32⟩ (grainTurn^[j] (grainRestart benchGps)) = true ∧
      freshGrains (grainTurn^[j] (grainRestart benchGps)) := by
  refine ⟨by decide, by decide, by decide, by decide, ?_⟩
  intro j hj
  simp only [List.mem_cons, List.not_mem_nil, or_false] at hj
  rcases hj with rfl | rfl | rfl <;>
    exact ⟨by decide +kernel, fun g => by cases g <;> decide +kernel, by decide +kernel⟩
theorem meets_GrainReadsSafeAfterAnyCommands : ∃ t, core.run 1 { State.reset with
      inp := [encode (.gpsPrepare 0 1 0x4031000000000000#64 0#32)].map .command } = .next t ∧
    ∃ G ∈ t.gpss, G.prepared = true := ⟨_, rfl, _, List.mem_cons_self, rfl⟩

theorem meets_UnitsAreIsolated : exec (.dlClear 0) bench =
      .next (complete 0#32 0#32 (State.putDl 0 { benchDl with mem := memClear } bench)) ∧
    exec (.dlClear 0) { bench with ramps := [] } =
      .next (complete 0#32 0#32 (State.putDl 0 { benchDl with mem := memClear } { bench with ramps := [] })) ∧
    (Instr.dlClear 0).target = some (.dl, 0) ∧ (Instr.dlClear 0).target ≠ some (.ramp, 0) ∧
    sameUnit bench { bench with ramps := [] } .dl 0 := ⟨rfl, rfl, rfl, by decide, rfl⟩
/-- Two units of different kinds, and two of one kind (the second has no unit behind it). -/
theorem meets_CommandsToDifferentUnitsCommute : (Instr.dlClear 0).target = some (.dl, 0) ∧
    (Instr.liClear 0).target = some (.li, 0) ∧ (Kind.dl, 0) ≠ (Kind.li, 0) ∧
    (Instr.dlClear 1).target = some (.dl, 1) ∧ (Kind.dl, 0) ≠ (Kind.dl, 1) ∧
    ∃ a b c d, exec (.dlClear 0) bench = .next a ∧ exec (.liClear 0) a = .next b ∧ exec (.liClear 0) bench = .next c ∧
      exec (.dlClear 0) c = .next d :=
  ⟨rfl, rfl, by decide, rfl, by decide, _, _, _, _, rfl, rfl, rfl, rfl⟩
theorem meets_PrepareIsIdempotent : ∃ a b, exec (.dlPrepare 0 1 10#32) bench = .next a ∧
    exec (.dlPrepare 0 1 10#32) a = .next b := ⟨_, _, rfl, rfl⟩

end Sys2Proof.Tests
end

