-- ==== Sys2Proof/Proofs/Rounding.lean ====
section
/-! PROOFS. `rnd32` and the binary32 operators (`00_scope.md` R12): rounding depends on the value alone, the form of its
result, and from that the nearest word, ties to even, and the one rounding of each operator. -/

namespace Sys2Proof.Scope

open Sys2Proof.Machine Sys2Proof.Claims

/-! ### `roundMag` on a quotient -/

/-- Rounding sees the quotient alone, not the fraction it is written as. -/
theorem roundMag_congr {n₁ d₁ n₂ d₂ : Nat} (h₁ : 0 < d₁) (h₂ : 0 < d₂) (h : n₁ * d₂ = n₂ * d₁) :
    roundMag n₁ d₁ = roundMag n₂ d₂ :=
  le_antisymm (roundMag_mono h₁ h₂ h.le) (roundMag_mono h₂ h₁ h.ge)

@[simp] theorem roundMag_zero (d : Nat) : roundMag 0 d = 0 := by simp [roundMag, roundEven]

/-- 2^128 - 2^103 in units of 2^-149: the first magnitude that rounds to infinity. -/
def overflowUnits : Nat := (2 ^ 25 - 1) * 2 ^ 252

theorem overflowUnits_eq : (overflowUnits : Rat) = (2 ^ 128 - 2 ^ 103) * 2 ^ 149 := by norm_num [overflowUnits]

/-- From the bound on the result is infinity. -/
theorem roundMag_of_overflow {n d : Nat} (hd : 0 < d) (h : overflowUnits * d ≤ n) : roundMag n d = 0x7F800000 := by
  have hb : roundMag overflowUnits 1 = 0x7F800000 := by decide +kernel
  have := roundMag_mono (n₂ := n) Nat.one_pos hd (by omega : overflowUnits * d ≤ n * 1)
  have := roundMag_le n d
  omega

/-- Below the bound the result is finite: the quotient rounded to a whole number of `2 ^ e` units, where `e` is 0 or
leaves at least 24 bits. -/
theorem roundMag_form {n d : Nat} (hd : 0 < d) (h : n < overflowUnits * d) :
    ∃ e, roundMag n d = e * 2 ^ 23 + roundEven n (d * 2 ^ e) ∧ roundMag n d < 0x7F800000 ∧
      roundEven n (d * 2 ^ e) ≤ 2 ^ 24 ∧ (0 < e → d * 2 ^ e * 2 ^ 23 ≤ n) := by
  obtain ⟨hhi, hlo⟩ := roundMag_shift n hd
  generalize he : Nat.log2 (n / d) - 23 = e at hhi hlo
  have hpos : 0 < d * 2 ^ e := by positivity
  obtain ⟨hup, -, -⟩ := roundEven_near n hpos
  have hm : roundEven n (d * 2 ^ e) ≤ 2 ^ 24 := by
    by_contra hc
    have : (2 ^ 24 + 1) * (d * 2 ^ e) ≤ roundEven n (d * 2 ^ e) * (d * 2 ^ e) := Nat.mul_le_mul_right _ (by omega)
    omega
  have he253 : e ≤ 253 := by
    by_contra hc
    have hp : 2 ^ 254 ≤ 2 ^ e := Nat.pow_le_pow_right (by norm_num) (by omega)
    have : d * 2 ^ 254 ≤ d * 2 ^ e := Nat.mul_le_mul_left _ hp
    have := hlo (by omega)
    rw [overflowUnits] at h
    omega
  have hbits : e * 2 ^ 23 + roundEven n (d * 2 ^ e) < 0x7F800000 := by
    rcases Nat.lt_or_ge e 253 with hlt | hge
    · omega
    · obtain rfl : e = 253 := by omega
      by_contra hc
      have : 2 ^ 24 * (d * 2 ^ 253) ≤ roundEven n (d * 2 ^ 253) * (d * 2 ^ 253) := Nat.mul_le_mul_right _ (by omega)
      rw [overflowUnits] at h
      omega
  have heq : roundMag n d = e * 2 ^ 23 + roundEven n (d * 2 ^ e) := by
    unfold roundMag; dsimp only; rw [he, if_pos hbits]
  exact ⟨e, heq, heq ▸ hbits, hm, hlo⟩

/-- The magnitude of the pattern of `m * 2 ^ e` units, also where `m` has been rounded up to 2^24. -/
theorem fmag_signed_pattern (neg : Bool) {m e : Nat} (hm : m ≤ 2 ^ 24) (hn : 2 ^ 23 ≤ m ∨ e = 0)
    (hf : e * 2 ^ 23 + m < 0x7F800000) : fmag (signed neg (e * 2 ^ 23 + m)) = m * 2 ^ e := by
  rcases Nat.lt_or_eq_of_le hm with h | h
  · exact fmag_signed neg h hn hf
  · have hbits : e * 2 ^ 23 + m = (e + 1) * 2 ^ 23 + 2 ^ 23 := by rw [h]; ring
    rw [hbits] at hf ⊢
    rw [fmag_signed neg (by norm_num) (.inl le_rfl) hf, h]
    ring

/-- A finite word is a whole number of `2 ^ e` units, or lies below the words with 24 significant bits at that place. -/
theorem funits_grid (v : Word) (e : Nat) :
    (∃ k : Int, funits v = k * 2 ^ e) ∨ (0 < e ∧ funits v < 2 ^ 23 * 2 ^ e) := by
  obtain ⟨k, hk⟩ | ⟨he, hlt⟩ : (∃ k : Nat, fmag v = k * 2 ^ e) ∨ (0 < e ∧ fmag v < 2 ^ 23 * 2 ^ e) := by
    have hf := ffrac_lt v
    rcases Nat.eq_zero_or_pos e with rfl | he
    · exact .inl ⟨fmag v, by simp⟩
    · unfold fmag
      split
      · have : 1 ≤ 2 ^ e := Nat.one_le_two_pow
        exact .inr ⟨he, by omega⟩
      · rcases Nat.lt_or_ge (fexp v - 1) e with h | h
        · have hp : 2 ^ (fexp v - 1) * 2 ≤ 2 ^ e := by
            rw [← pow_succ]; exact Nat.pow_le_pow_right (by norm_num) h
          have : (2 ^ 23 + ffrac v) * 2 ^ (fexp v - 1) < 2 ^ 24 * 2 ^ (fexp v - 1) :=
            Nat.mul_lt_mul_of_pos_right (by omega) (by positivity)
          exact .inr ⟨he, by omega⟩
        · refine .inl ⟨(2 ^ 23 + ffrac v) * 2 ^ (fexp v - 1 - e), ?_⟩
          rw [Nat.mul_assoc, ← pow_add, Nat.sub_add_cancel h]
  · left
    unfold funits
    split
    · exact ⟨-k, by rw [hk]; push_cast; ring⟩
    · exact ⟨k, by rw [hk]; push_cast; ring⟩
  · refine .inr ⟨he, ?_⟩
    have : (fmag v : Int) < 2 ^ 23 * 2 ^ e := by exact_mod_cast hlt
    unfold funits
    split <;> omega

/-- No whole number is nearer `n / D` than `roundEven n D`, and one as near is it or finds it even. -/
theorem roundEven_nearest (n : Nat) {D : Nat} (hD : 0 < D) (k : Int) :
    |(roundEven n D * D : Int) - n| ≤ |k * D - n| ∧
      (|(roundEven n D * D : Int) - n| = |k * D - n| → k = roundEven n D ∨ roundEven n D % 2 = 0) := by
  obtain ⟨hup, hlow, heven⟩ := roundEven_near n hD
  generalize roundEven n D = m at *
  zify at hup hlow
  rcases eq_or_ne k m with rfl | hne
  · exact ⟨le_rfl, fun _ => .inl rfl⟩
  · have hgap : (D : Int) ≤ |k * D - m * D| := by
      rw [← sub_mul, abs_mul, Nat.abs_cast]
      exact le_mul_of_one_le_left (by positivity) (Int.one_le_abs (sub_ne_zero.mpr hne))
    have hhalf : 2 * |(m * D : Int) - n| ≤ D := by
      rcases abs_cases ((m * D : Int) - n) with ⟨h, _⟩ | ⟨h, _⟩ <;> omega
    have htri : |k * D - m * D| ≤ |k * D - n| + |(m * D : Int) - n| := by
      rw [abs_sub_comm (m * D : Int) n]; exact abs_sub_le _ _ _
    refine ⟨by omega, fun heq => .inr (heven ?_)⟩
    zify
    rcases abs_cases ((m * D : Int) - n) with ⟨h, _⟩ | ⟨h, _⟩ <;> omega

/-- The magnitude of a rounded quotient is as near to it as any finite word's units, and on a tie its pattern is even. -/
theorem roundMag_nearest {n d : Nat} (hd : 0 < d) (h : n < overflowUnits * d) (v : Word) :
    |(fmag (signed false (roundMag n d)) * d : Int) - n| ≤ |funits v * d - n| ∧
      (|(fmag (signed false (roundMag n d)) * d : Int) - n| = |funits v * d - n| →
        funits v = fmag (signed false (roundMag n d)) ∨ roundMag n d % 2 = 0) := by
  obtain ⟨e, hform, hfin, hm, hfull⟩ := roundMag_form hd h
  have hD : 0 < d * 2 ^ e := by positivity
  have hmin : 2 ^ 23 ≤ roundEven n (d * 2 ^ e) ∨ e = 0 := by
    rcases Nat.eq_zero_or_pos e with he | he
    · exact .inr he
    · left
      have := roundEven_mono hD hD (Nat.mul_le_mul_right _ (by rw [Nat.mul_comm]; exact hfull he :
        2 ^ 23 * (d * 2 ^ e) ≤ n))
      rwa [roundEven_mul _ hD] at this
  have hmag := fmag_signed_pattern false hm hmin (hform ▸ hfin)
  have heven : roundMag n d % 2 = roundEven n (d * 2 ^ e) % 2 := by omega
  have hnear := roundEven_nearest n hD
  rw [heven, hform, hmag]
  generalize roundEven n (d * 2 ^ e) = m at hnear
  have hscale : ((m * 2 ^ e : Nat) * d : Int) = m * (d * 2 ^ e : Nat) := by push_cast; ring
  rw [hscale]
  obtain ⟨k, hk⟩ | ⟨he, hlt⟩ := funits_grid v e
  · have hv : funits v * d = k * (d * 2 ^ e : Nat) := by rw [hk]; push_cast; ring
    rw [hv]
    refine ⟨(hnear k).1, fun heq => ((hnear k).2 heq).imp_left fun hkm => ?_⟩
    rw [hk, hkm]; push_cast; rfl
  · have hn : (2 ^ 23 * (d * 2 ^ e : Nat) : Int) ≤ n := by
      rw [Int.mul_comm]; exact_mod_cast hfull he
    have hv : funits v * d < 2 ^ 23 * (d * 2 ^ e : Nat) := by
      have := mul_lt_mul_of_pos_right hlt (Int.natCast_pos.mpr hd)
      push_cast; linarith
    have hfloor := (hnear (2 ^ 23)).1
    rw [abs_of_nonpos (by omega : (2 ^ 23 * (d * 2 ^ e : Nat) : Int) - n ≤ 0)] at hfloor
    rw [abs_of_neg (by omega : funits v * d - n < 0)]
    exact ⟨by omega, fun heq => by omega⟩

/-! ### Negation and the sign of a word -/

@[simp] theorem fexp_fneg (v : Word) : fexp (fneg v) = fexp v := by
  rw [fexp, fneg, BitVec.extractLsb'_xor]; simp [fexp]

@[simp] theorem ffrac_fneg (v : Word) : ffrac (fneg v) = ffrac v := by
  rw [ffrac, fneg, BitVec.extractLsb'_xor]; simp [ffrac]

@[simp] theorem fsign_fneg (v : Word) : fsign (fneg v) = !fsign v := by simp [fsign, fneg]

@[simp] theorem fneg_fneg (v : Word) : fneg (fneg v) = v := by simp [fneg]

@[simp] theorem fneg_getLsbD_zero (v : Word) : (fneg v).getLsbD 0 = v.getLsbD 0 := by simp [fneg]

@[simp] theorem isNaN_fneg (v : Word) : isNaN (fneg v) = isNaN v := by simp [isNaN]

@[simp] theorem isInf_fneg (v : Word) : isInf (fneg v) = isInf v := by simp [isInf]

@[simp] theorem isFinite_fneg (v : Word) : isFinite (fneg v) = isFinite v := by simp [isFinite]

@[simp] theorem fmag_fneg (v : Word) : fmag (fneg v) = fmag v := by simp [fmag]

@[simp] theorem funits_fneg (v : Word) : funits (fneg v) = -funits v := by
  unfold funits; rw [fsign_fneg, fmag_fneg]; cases fsign v <;> simp

@[simp] theorem fval_fneg (v : Word) : fval (fneg v) = -fval v := by
  rw [fval_eq_units, fval_eq_units, funits_fneg]; push_cast; ring

/-- Negation of a word put together from a sign and bits 30:0. -/
theorem fneg_signed (neg : Bool) {bits : Nat} (h : bits < 2 ^ 31) : fneg (signed neg bits) = signed (!neg) bits := by
  rw [← signed_fbits (fneg (signed neg bits)), fsign_fneg, fsign_signed neg h, fbits_eq, fexp_fneg, ffrac_fneg,
    ← fbits_eq, fbits_signed neg h]

/-- The last bit of a word is that of its bits 30:0. -/
theorem signed_getLsbD_zero (neg : Bool) (bits : Nat) : (signed neg bits).getLsbD 0 = decide (bits % 2 = 1) := by
  unfold signed
  rw [BitVec.getLsbD_ofNat]
  cases neg <;> simp [Nat.testBit_zero, Nat.add_mod]

/-! ### `rnd32` -/

/-- The word is one nearest the rational: no finite word is nearer, and on a tie with another value it is the even one
(`00_scope.md` R12). -/
def IsNearestEven (w : Word) (q : Rat) : Prop :=
  ∀ v : Word, isFinite v = true → |fval w - q| ≤ |fval v - q| ∧
    (|fval w - q| = |fval v - q| → fval v = fval w ∨ w.getLsbD 0 = false)

/-- A magnitude is its numerator over its denominator. -/
theorem abs_eq_natAbs_div (q : Rat) : |q| = (q.num.natAbs : Rat) / q.den := by
  conv_lhs => rw [← Rat.num_div_den q]
  rw [abs_div, Nat.abs_cast, Nat.cast_natAbs, Int.cast_abs]

/-- `rnd32` of a rational whose magnitude is `n / d` units of 2^-149. -/
theorem rnd32_eq_signed {q : Rat} {n d : Nat} (hd : 0 < d) (h : |q| * 2 ^ 149 = n / d) :
    rnd32 q = signed (decide (q < 0)) (roundMag n d) := by
  have hsign : decide (q.num * 2 ^ 149 < 0) = decide (q < 0) := by
    rw [decide_eq_decide, ← Rat.num_neg]
    omega
  have hfrac : (q.num * 2 ^ 149).natAbs * d = n * q.den := by
    have hq : (q.den : Rat) ≠ 0 := by exact_mod_cast q.den_ne_zero
    have hd' : (d : Rat) ≠ 0 := by exact_mod_cast hd.ne'
    rw [abs_eq_natAbs_div] at h
    field_simp at h
    rw [Int.natAbs_mul, Int.natAbs_pow, Nat.mul_comm n]
    exact_mod_cast h
  rw [rnd32, rndUnits, hsign, roundMag_congr q.den_pos hd hfrac]

/-- A rational's magnitude in units of 2^-149, as `rnd32` reads it. -/
theorem abs_mul_units (q : Rat) : |q| * 2 ^ 149 = ((q.num.natAbs * 2 ^ 149 : Nat) : Rat) / q.den := by
  rw [abs_eq_natAbs_div]; push_cast; ring

theorem rnd32_eq (q : Rat) : rnd32 q = signed (decide (q < 0)) (roundMag (q.num.natAbs * 2 ^ 149) q.den) :=
  rnd32_eq_signed q.den_pos (abs_mul_units q)

@[simp] theorem fsign_rnd32 (q : Rat) : fsign (rnd32 q) = decide (q < 0) := by
  have hle := roundMag_le (q.num.natAbs * 2 ^ 149) q.den
  rw [rnd32_eq, fsign_signed _ (by omega)]

/-- Below 2^128 - 2^103 in magnitude, in units. -/
theorem units_lt_overflow_iff (q : Rat) :
    q.num.natAbs * 2 ^ 149 < overflowUnits * q.den ↔ |q| < 2 ^ 128 - 2 ^ 103 := by
  have hd : (0 : Rat) < q.den := by exact_mod_cast q.den_pos
  rw [← mul_lt_mul_iff_left₀ (show (0 : Rat) < 2 ^ 149 by positivity), abs_mul_units, ← overflowUnits_eq, div_lt_iff₀ hd]
  exact_mod_cast Iff.rfl

theorem isFinite_rnd32 {q : Rat} (h : |q| < 2 ^ 128 - 2 ^ 103) : isFinite (rnd32 q) = true := by
  obtain ⟨e, -, hfin, -⟩ := roundMag_form q.den_pos ((units_lt_overflow_iff q).2 h)
  rw [rnd32_eq]
  exact isFinite_signed _ hfin

theorem rnd32_of_overflow {q : Rat} (h : 2 ^ 128 - 2 ^ 103 ≤ |q|) : rnd32 q = signed (decide (q < 0)) 0x7F800000 := by
  rw [rnd32_eq, roundMag_of_overflow q.den_pos (not_lt.1 (mt (units_lt_overflow_iff q).1 (not_lt.2 h)))]

/-- Rounding to nearest keeps the magnitude under negation. -/
theorem rnd32_neg {q : Rat} (h : 0 < q) : rnd32 (-q) = fneg (rnd32 q) := by
  have hle := roundMag_le (q.num.natAbs * 2 ^ 149) q.den
  rw [rnd32_eq_signed (q := -q) q.den_pos (by rw [abs_neg, abs_mul_units]), rnd32_eq q, fneg_signed _ (by omega)]
  simp [h, not_lt.2 h.le]

/-- Nearest words are symmetric about zero, so that negative rationals follow from positive ones. -/
theorem isNearestEven_fneg {w : Word} {q : Rat} (h : IsNearestEven w q) : IsNearestEven (fneg w) (-q) := by
  have hflip : ∀ a b : Rat, |-a - b| = |a - -b| := fun a b => by rw [← abs_neg]; ring_nf
  intro v hv
  have hv' := h (fneg v) (by rwa [isFinite_fneg])
  rw [fval_fneg, hflip] at hv'
  rw [fval_fneg, hflip, neg_neg, fneg_getLsbD_zero]
  exact ⟨hv'.1, fun heq => (hv'.2 heq).imp_left fun hval => by rw [← hval, neg_neg]⟩

/-- The distance of a whole number of units from a rational of `n / d` units. -/
theorem abs_units_sub {q : Rat} {n d : Nat} (hd : 0 < d) (h : q * 2 ^ 149 = n / d) (z : Int) :
    |(z : Rat) / 2 ^ 149 - q| = ((|z * d - n| : Int) : Rat) / (2 ^ 149 * d) := by
  have hd' : (0 : Rat) < d := by exact_mod_cast hd
  have hdiff : (z : Rat) / 2 ^ 149 - q = ((z * d - n : Int) : Rat) / (2 ^ 149 * d) := by
    rw [eq_div_iff hd'.ne'] at h
    field_simp
    push_cast
    linarith
  rw [hdiff, abs_div, abs_of_pos (show (0 : Rat) < 2 ^ 149 * d by positivity), Int.cast_abs]

theorem isNearestEven_rnd32_of_nonneg {q : Rat} (h0 : 0 ≤ q) (h : |q| < 2 ^ 128 - 2 ^ 103) :
    IsNearestEven (rnd32 q) q := by
  have hlt := (units_lt_overflow_iff q).2 h
  have hdist := abs_units_sub q.den_pos (by rw [← abs_mul_units, abs_of_nonneg h0])
  have hle := roundMag_le (q.num.natAbs * 2 ^ 149) q.den
  have hd : (0 : Rat) < q.den := by exact_mod_cast q.den_pos
  rw [rnd32_eq, decide_eq_false h0.not_gt]
  generalize q.num.natAbs * 2 ^ 149 = n at *
  intro v hv
  obtain ⟨hnear, htie⟩ := roundMag_nearest q.den_pos hlt v
  have hw : fval (signed false (roundMag n q.den)) = ((fmag (signed false (roundMag n q.den)) : Int) : Rat) / 2 ^ 149 := by
    rw [fval_signed false (by omega)]; simp
  rw [hw, fval_eq_units v, hdist, hdist, div_le_div_iff_of_pos_right (by positivity), div_left_inj' (by positivity),
    signed_getLsbD_zero]
  refine ⟨by exact_mod_cast hnear, fun heq => ?_⟩
  refine (htie (by exact_mod_cast heq)).imp (fun hv => by rw [hv]) fun he => by simp [he]

theorem isNearestEven_rnd32 {q : Rat} (h : |q| < 2 ^ 128 - 2 ^ 103) : IsNearestEven (rnd32 q) q := by
  rcases le_or_gt 0 q with h0 | h0
  · exact isNearestEven_rnd32_of_nonneg h0 h
  · have := isNearestEven_fneg (isNearestEven_rnd32_of_nonneg (neg_nonneg.2 h0.le) (by rwa [abs_neg]))
    rwa [← rnd32_neg (neg_pos.2 h0), neg_neg] at this

/-- Settles O19: below the bound by the grid of words at the last place of the result, from it on by monotonicity. -/
theorem roundingIsToNearestEven : Obligations.RoundingIsToNearestEven := by
  intro q
  refine ⟨fun h => ⟨isFinite_rnd32 h, isNearestEven_rnd32 h⟩, fun h => ?_, fun h => ?_, fsign_rnd32 q⟩
  · have h0 : 0 ≤ q := le_trans (by norm_num) h
    rw [rnd32_of_overflow (by rwa [abs_of_nonneg h0]), decide_eq_false h0.not_gt]; rfl
  · have h0 : q < 0 := lt_of_le_of_lt h (by norm_num)
    rw [rnd32_of_overflow (by rw [abs_of_neg h0]; linarith), decide_eq_true h0]; rfl

end Sys2Proof.Scope
end

