-- ==== Sys2Proof/Proofs/Operators.lean ====
section
/-! PROOFS. The four binary32 operators (`00_scope.md` R12): one rounding of the exact result on finite operands, and the
rules for infinities and NaNs. -/

namespace Sys2Proof.Scope

open Sys2Proof.Machine Sys2Proof.Claims

/-! ### The value of a finite word -/

theorem unitsPerOne_cast : ((unitsPerOne : Nat) : Rat) = 2 ^ 149 := by rw [unitsPerOne]; push_cast; rfl

theorem fval_eq_zero_iff (v : Word) : fval v = 0 ↔ fmag v = 0 := by
  rw [fval_eq_units, div_eq_zero_iff, or_iff_left (by positivity), Int.cast_eq_zero, funits]
  split <;> simp

theorem abs_fval (v : Word) : |fval v| = (fmag v : Rat) / 2 ^ 149 := by
  rw [fval_eq_units, abs_div, abs_of_pos (by positivity : (0 : Rat) < 2 ^ 149), funits, ← Int.cast_abs]
  split <;> simp

/-- A value that is not zero has the sign of its word. -/
theorem fval_neg_iff {v : Word} (h : fval v ≠ 0) : fval v < 0 ↔ fsign v = true := by
  rw [Ne, fval_eq_zero_iff] at h
  rw [fval_eq_units, div_lt_iff₀ (by positivity), zero_mul, Int.cast_lt_zero, funits]
  split <;> simp_all; omega

/-- Zero of either sign. -/
theorem signed_zero (neg : Bool) : signed neg 0 = if neg then 0x80000000#32 else 0x00000000#32 := by
  cases neg <;> rfl

/-- Infinity of either sign. -/
theorem signed_infinity (neg : Bool) : signed neg 0x7F800000 = if neg then 0xFF800000#32 else 0x7F800000#32 := by
  cases neg <;> rfl

theorem fsign_eq_of_ne_zero {v : Word} (h : fval v ≠ 0) : fsign v = decide (fval v < 0) := by
  rw [Bool.eq_iff_iff, decide_eq_true_eq, fval_neg_iff h]

/-- An exact product that is not zero has the sign that the operands' signs give. -/
theorem sign_of_mul {a b : Word} (ha : fval a ≠ 0) (hb : fval b ≠ 0) :
    decide (fval a * fval b < 0) = (fsign a != fsign b) := by
  rw [fsign_eq_of_ne_zero ha, fsign_eq_of_ne_zero hb]
  rcases ha.lt_or_gt with h | h <;> rcases hb.lt_or_gt with h' | h' <;>
    simp [mul_neg_iff, h, h', not_lt_of_gt]

/-- So has an exact quotient. -/
theorem sign_of_div {a b : Word} (ha : fval a ≠ 0) (hb : fval b ≠ 0) :
    decide (fval a / fval b < 0) = (fsign a != fsign b) := by
  rw [← sign_of_mul ha hb, decide_eq_decide, div_neg_iff, mul_neg_iff]

/-! ### Finite operands -/

section Finite
variable {a b : Word} (ha : isFinite a = true) (hb : isFinite b = true)
include ha hb

/-- The sum rounds the exact sum once; an exact zero is negative for two negative words only. -/
theorem fadd_of_finite : fadd a b = if fval a + fval b ≠ 0 then rnd32 (fval a + fval b)
    else signed (fsign a && fsign b) 0 := by
  have hsum : fval a + fval b = ((funits a + funits b : Int) : Rat) / 2 ^ 149 := by
    rw [fval_eq_units, fval_eq_units]; push_cast; ring
  have hzero : fval a + fval b ≠ 0 ↔ funits a + funits b ≠ 0 := by
    rw [hsum, Ne, div_eq_zero_iff, or_iff_left (by positivity), Int.cast_eq_zero]
  simp only [fadd, isNaN_of_isFinite ha, isNaN_of_isFinite hb, isInf_of_isFinite ha, isInf_of_isFinite hb, hzero,
    Bool.or_self, Bool.false_eq_true, if_false, ite_not]
  congr 1
  have hneg : (fval a + fval b < 0) ↔ funits a + funits b < 0 := by
    rw [hsum, div_lt_iff₀ (by positivity), zero_mul, Int.cast_lt_zero]
  rw [rnd32_eq_signed (n := (funits a + funits b).natAbs) Nat.one_pos, rndUnits, decide_eq_decide.2 hneg]
  rw [hsum, abs_div, abs_of_pos (by positivity : (0 : Rat) < 2 ^ 149), Nat.cast_natAbs, Int.cast_abs]
  field_simp
  simp

/-- The difference is the sum with the negated word. -/
theorem fsub_of_finite : fsub a b = if fval a - fval b ≠ 0 then rnd32 (fval a - fval b)
    else signed (fsign a && !fsign b) 0 := by
  rw [fsub, fadd_of_finite ha (by rwa [isFinite_fneg]), fval_fneg, fsign_fneg, sub_eq_add_neg]

theorem fmul_of_finite : fmul a b = if fval a * fval b ≠ 0 then rnd32 (fval a * fval b)
    else signed (fsign a != fsign b) 0 := by
  have hmag : |fval a * fval b| * 2 ^ 149 = ((fmag a * fmag b : Nat) : Rat) / (unitsPerOne : Nat) := by
    rw [abs_mul, abs_fval, abs_fval, Nat.cast_mul, unitsPerOne_cast]; field_simp
  simp only [fmul, isNaN_of_isFinite ha, isNaN_of_isFinite hb, isInf_of_isFinite ha, isInf_of_isFinite hb,
    Bool.or_self, Bool.false_eq_true, if_false]
  split
  · rename_i h
    rw [rnd32_eq_signed (by decide) hmag, sign_of_mul (left_ne_zero_of_mul h) (right_ne_zero_of_mul h)]
  · rename_i h
    rw [not_not, mul_eq_zero, fval_eq_zero_iff, fval_eq_zero_iff, ← Nat.mul_eq_zero] at h
    rw [h, roundMag_zero]

theorem fdiv_of_finite : fdiv a b =
    if fval b = 0 then (if fval a = 0 then qNaN else signed (fsign a != fsign b) 0x7F800000)
    else if fval a ≠ 0 then rnd32 (fval a / fval b) else signed (fsign a != fsign b) 0 := by
  simp only [fdiv, isNaN_of_isFinite ha, isNaN_of_isFinite hb, isInf_of_isFinite ha, isInf_of_isFinite hb,
    Bool.or_self, Bool.false_eq_true, if_false, fval_eq_zero_iff, ne_eq, ite_not]
  split
  · rfl
  · rename_i hb0
    split
    · rename_i ha0
      rw [ha0, Nat.zero_mul, roundMag_zero]
    · rename_i ha0
      have hmag : |fval a / fval b| * 2 ^ 149 = ((fmag a * unitsPerOne : Nat) : Rat) / (fmag b : Nat) := by
        rw [abs_div, abs_fval, abs_fval, Nat.cast_mul, unitsPerOne_cast]; field_simp
      rw [rnd32_eq_signed (Nat.pos_of_ne_zero hb0) hmag,
        sign_of_div (mt (fval_eq_zero_iff a).1 ha0) (mt (fval_eq_zero_iff b).1 hb0)]

end Finite

/-- A NaN operand gives the canonical NaN. -/
theorem operators_of_isNaN {a b : Word} (h : isNaN a = true ∨ isNaN b = true) :
    fadd a b = qNaN ∧ fsub a b = qNaN ∧ fmul a b = qNaN ∧ fdiv a b = qNaN := by
  have hor : (isNaN a || isNaN b) = true := by simpa using h
  simp [fadd, fsub, fmul, fdiv, hor]

/-- Settles O20: each operator's integer fraction is the exact result in units of 2^-149. -/
theorem operatorsRoundTheExactResult : Obligations.OperatorsRoundTheExactResult := by
  refine ⟨fun a b ha hb => ⟨?_, ?_, ?_, ?_⟩, fun a b h => operators_of_isNaN h⟩
  · rw [fadd_of_finite ha hb]; simp only [signed_zero, Bool.and_eq_true]
  · rw [fsub_of_finite ha hb]; simp only [signed_zero, Bool.and_eq_true, Bool.not_eq_true']
  · rw [fmul_of_finite ha hb]; simp only [signed_zero, bne_iff_ne]
  · rw [fdiv_of_finite ha hb]; simp only [signed_zero, signed_infinity, bne_iff_ne, qNaN]

/-! ### Infinities -/

theorem isNaN_of_isInf {v : Word} (h : isInf v = true) : isNaN v = false := by
  simp only [isInf, Bool.and_eq_true, beq_iff_eq] at h; simp [isNaN, h]

theorem isFinite_of_isInf {v : Word} (h : isInf v = true) : isFinite v = false := by
  simp only [isInf, Bool.and_eq_true, beq_iff_eq] at h; simp [isFinite, h]

/-- The words of infinity are the two signs of one pattern. -/
theorem eq_signed_of_isInf {v : Word} (h : isInf v = true) : v = signed (fsign v) 0x7F800000 := by
  simp only [isInf, Bool.and_eq_true, beq_iff_eq] at h
  have hbits : fbits v = 0x7F800000 := by have := fbits_eq v; omega
  rw [← hbits, signed_fbits]

theorem isInf_eq_iff {a b : Word} (ha : isInf a = true) (hb : isInf b = true) : a = b ↔ fsign a = fsign b := by
  refine ⟨congrArg fsign, fun h => ?_⟩
  rw [eq_signed_of_isInf ha, eq_signed_of_isInf hb, h]

section Infinite
variable {a b : Word} (ha : isInf a = true)
include ha

/-- An infinity beside a finite operand. -/
theorem operators_of_isInf_of_isFinite (hb : isFinite b = true) :
    fadd a b = a ∧ fadd b a = a ∧
    fmul a b = (if fval b = 0 then qNaN else signed (fsign a != fsign b) 0x7F800000) ∧
    fmul b a = (if fval b = 0 then qNaN else signed (fsign a != fsign b) 0x7F800000) ∧
    fdiv a b = signed (fsign a != fsign b) 0x7F800000 ∧ fdiv b a = signed (fsign a != fsign b) 0 := by
  simp [fadd, fmul, fdiv, ha, hb, isNaN_of_isInf ha, isFinite_of_isInf ha, isNaN_of_isFinite hb, isInf_of_isFinite hb,
    fval_eq_zero_iff, Bool.xor_comm (fsign b)]

/-- Two infinities. -/
theorem operators_of_isInf (hb : isInf b = true) :
    fadd a b = (if fsign a ≠ fsign b then qNaN else a) ∧
    fmul a b = signed (fsign a != fsign b) 0x7F800000 ∧ fdiv a b = qNaN := by
  simp [fadd, fmul, fdiv, ha, hb, isNaN_of_isInf ha, isFinite_of_isInf ha, isNaN_of_isInf hb, isFinite_of_isInf hb]

end Infinite

/-- Settles O21: a difference is the sum with the negated word, so each clause is one of the two tables above. -/
theorem operatorsOnInfinities : Obligations.OperatorsOnInfinities := by
  intro a b ha
  have ha' : isInf (fneg a) = true := by rwa [isInf_fneg]
  constructor
  · intro hb
    obtain ⟨hadd, hadd', hmul, hmul', hdiv, hdiv'⟩ := operators_of_isInf_of_isFinite ha hb
    have hsub : fsub a b = a := (operators_of_isInf_of_isFinite ha (by rwa [isFinite_fneg])).1
    have hsub' : fsub b a = fneg a := (operators_of_isInf_of_isFinite ha' hb).2.1
    refine ⟨hadd, hadd', hsub, hsub', hmul.trans hmul'.symm, ?_, ?_, ?_⟩
    · rw [hmul]; simp only [signed_infinity, bne_iff_ne, qNaN]
    · rw [hdiv]; simp only [signed_infinity, bne_iff_ne]
    · rw [hdiv']; simp only [signed_zero, bne_iff_ne]
  · intro hb
    obtain ⟨hadd, hmul, hdiv⟩ := operators_of_isInf ha hb
    refine ⟨hadd, ?_, ?_, hdiv⟩
    · rw [fsub, (operators_of_isInf ha (by rwa [isInf_fneg])).1, fsign_fneg, qNaN]
      cases fsign a <;> cases fsign b <;> rfl
    · rw [hmul]; simp only [signed_infinity, bne_iff_ne]

end Sys2Proof.Scope
end

