-- ==== Sys2Proof/Proofs/Comparisons.lean ====
section
/-! PROOFS. Comparisons and the float clamp (`00_scope.md` R12, R13): both through the key that orders the words. -/

namespace Sys2Proof.Scope

open Sys2Proof.Machine Sys2Proof.Claims

/-- A comparison that holds is one of the keys of two words that are no NaN. -/
theorem flt_iff {a b : Word} : flt a b = true ↔ isNaN a = false ∧ isNaN b = false ∧ fkey a < fkey b := by
  simp [flt, and_assoc]

theorem flt_trans {a b c : Word} (hab : flt a b = true) (hbc : flt b c = true) : flt a c = true := by
  rw [flt_iff] at *
  obtain ⟨ha, -, hlt⟩ := hab
  obtain ⟨-, hc, hlt'⟩ := hbc
  exact ⟨ha, hc, hlt.trans hlt'⟩

/-- On words that are no NaN equality is that of the keys. -/
theorem feq_eq {a b : Word} (ha : isNaN a = false) (hb : isNaN b = false) : feq a b = decide (fkey a = fkey b) := by
  simp [feq, ha, hb]

/-- Keys of finite words are equal exactly where the values are. -/
theorem fkey_eq_iff_fval (a b : Word) : fkey a = fkey b ↔ fval a = fval b := by
  have hab := fkey_lt_iff a b
  have hba := fkey_lt_iff b a
  have hunits : fkey a = fkey b ↔ funits a = funits b := by omega
  rw [hunits, fval_eq_units, fval_eq_units, div_left_inj' (by positivity), Int.cast_inj]

/-- The key of a finite word lies strictly between those of the infinities. -/
theorem fkey_of_isFinite {v : Word} (h : isFinite v = true) : -0x7F800000 < fkey v ∧ fkey v < 0x7F800000 := by
  have := (isFinite_iff_fbits (isNaN_of_isFinite h)).1 h
  unfold fkey
  split <;> omega

theorem compare_isFinite_isInf {a b : Word} (ha : isFinite a = true) (hb : isInf b = true) :
    flt a b = !fsign b ∧ flt b a = fsign b ∧ feq a b = false ∧ feq b a = false := by
  obtain ⟨hlo, hhi⟩ := fkey_of_isFinite ha
  rw [flt_eq (isNaN_of_isFinite ha) (isNaN_of_isInf hb), flt_eq (isNaN_of_isInf hb) (isNaN_of_isFinite ha),
    feq_eq (isNaN_of_isFinite ha) (isNaN_of_isInf hb), feq_eq (isNaN_of_isInf hb) (isNaN_of_isFinite ha),
    fkey_of_isInf hb]
  cases fsign b <;> simp <;> omega

theorem compare_isInf {a b : Word} (ha : isInf a = true) (hb : isInf b = true) :
    flt a b = (fsign a && !fsign b) ∧ (feq a b = true ↔ a = b) := by
  rw [flt_eq (isNaN_of_isInf ha) (isNaN_of_isInf hb), feq_eq (isNaN_of_isInf ha) (isNaN_of_isInf hb), fkey_of_isInf ha,
    fkey_of_isInf hb, isInf_eq_iff ha hb]
  cases fsign a <;> cases fsign b <;> simp

theorem compare_isNaN {a b : Word} (h : isNaN a = true ∨ isNaN b = true) : flt a b = false ∧ feq a b = false := by
  rcases h with h | h <;> simp [flt, feq, h]

/-- Settles O22: on words that are no NaN the keys are ordered as the values, with the infinities outermost. -/
theorem comparisonsAreOfTheValues : Obligations.ComparisonsAreOfTheValues := by
  intro a b
  refine ⟨fun ha hb => ⟨flt_iff_fval ha hb, ?_⟩, compare_isFinite_isInf, compare_isInf, compare_isNaN⟩
  rw [feq_eq (isNaN_of_isFinite ha) (isNaN_of_isFinite hb), decide_eq_true_eq, fkey_eq_iff_fval]

/-- Settles O23: the branches of `clampf` in turn; a word above `hi` is no NaN and not below `lo`, since `lo ≤ hi`. -/
theorem floatClampFollowsR13 : Obligations.FloatClampFollowsR13 := by
  intro x lo hi hlo hhi hle
  have hord : flt hi lo = false := by
    rw [← Bool.not_eq_true, flt_iff_fval hhi hlo]; exact not_lt.2 hle
  refine ⟨fun h => ?_, fun h => ?_, fun h => ?_, fun hx h h' => ?_,
    clampf_inRange (isNaN_of_isFinite hlo) (isNaN_of_isFinite hhi) hord⟩
  · simp [clampf, h]
  · simp [clampf, h]
  · have hx : isNaN x = false := (flt_iff.1 h).2.1
    have hlt : flt x lo = false := by
      rw [← Bool.not_eq_true] at hord ⊢
      exact fun hlt => hord (flt_trans h hlt)
    simp [clampf, h, hx, hlt]
  · simp [clampf, h, h', hx]

end Sys2Proof.Scope
end

