-- ==== Sys2Proof/Proofs/Conversions.lean ====
section
/-! PROOFS. Times and rates to counts (`00_scope.md` R15, R16) and the sample-rate operand (R11, R17): each conversion's
fraction is the exact rational it stands for. -/

namespace Sys2Proof.Scope

open Sys2Proof.Machine Sys2Proof.Claims

/-- `rndi` of a fraction is the rational it stands for, rounded half up (`00_scope.md` R15). -/
theorem rndi_eq_roundHalfUp {q : Rat} {n d : Nat} (hd : 0 < d) (h : q = n / d) : (rndi n d : Int) = roundHalfUp q := by
  have hd' : (d : Rat) ≠ 0 := by exact_mod_cast hd.ne'
  have hsum : q + 1 / 2 = (((2 * n + d : Nat) : Int) : Rat) / ((2 * d : Nat) : Rat) := by
    rw [h]; push_cast; field_simp
  rw [roundHalfUp, hsum, Rat.floor_intCast_div_natCast, rndi]
  rfl

/-- A finite time that is not negative is its magnitude. -/
theorem fval_eq_fmag_of_nonneg {t : Word} (h : 0 ≤ fval t) : fval t = (fmag t : Rat) / 2 ^ 149 := by
  rw [← abs_fval, abs_of_nonneg h]

section Counts
variable {t : Word} {fs : Rat} (ht : 0 ≤ fval t) (hfs : 0 < fs)
include hfs

theorem rate_eq_natAbs_div : fs = (fs.num.natAbs : Rat) / fs.den := by
  rw [← abs_eq_natAbs_div, abs_of_pos hfs]

theorem secondOf_eq : (secondOf fs : Int) = roundHalfUp fs :=
  rndi_eq_roundHalfUp fs.den_pos (rate_eq_natAbs_div hfs)

include ht

/-- The product of a time and a rate as one fraction. -/
theorem time_mul_rate :
    fval t * fs = ((fmag t * fs.num.natAbs : Nat) : Rat) / ((unitsPerOne * fs.den : Nat) : Rat) := by
  conv_lhs => rw [fval_eq_fmag_of_nonneg ht, rate_eq_natAbs_div hfs]
  rw [div_mul_div_comm, Nat.cast_mul, Nat.cast_mul, unitsPerOne_cast]

theorem ms2n_eq : (ms2n t fs : Int) = roundHalfUp (fval t * fs / 1000) := by
  have hpos : 0 < unitsPerOne * 1000 * fs.den := Nat.mul_pos (by decide) fs.den_pos
  refine rndi_eq_roundHalfUp hpos ?_
  rw [time_mul_rate ht hfs, div_div]; push_cast; ring

theorem halfGrainOf_eq : (halfGrainOf t fs : Int) = roundHalfUp (fval t * fs / 2000) := by
  have hpos : 0 < unitsPerOne * 2000 * fs.den := Nat.mul_pos (by decide) fs.den_pos
  refine rndi_eq_roundHalfUp hpos ?_
  rw [time_mul_rate ht hfs, div_div]; push_cast; ring

theorem stepsOf_eq :
    ((stepsOf t fs).toNat : Int) = min (max (roundHalfUp (fval t * fs / 1000)) 1) (2 ^ 32 - 1) := by
  obtain ⟨-, hle⟩ := clampu_mem (n := ms2n t fs) (lo := 1) (hi := 2 ^ 32 - 1) (by norm_num)
  rw [stepsOf, BitVec.toNat_ofNat, Nat.mod_eq_of_lt (by omega), clampu_eq_min_max (by norm_num), ← ms2n_eq ht hfs]
  push_cast
  rfl

theorem phaseStep_eq : ((phaseStep t fs).toNat : Int) = min (roundHalfUp (fval t * 2 ^ 32 / fs)) (2 ^ 31) := by
  have hnum : 0 < fs.num.natAbs := Int.natAbs_pos.2 (Rat.num_ne_zero.2 hfs.ne')
  have hround : (rndi (fmag t * 2 ^ 32 * fs.den) (unitsPerOne * fs.num.natAbs) : Int) =
      roundHalfUp (fval t * 2 ^ 32 / fs) := by
    refine rndi_eq_roundHalfUp (Nat.mul_pos (by decide) hnum) ?_
    conv_lhs => rw [fval_eq_fmag_of_nonneg ht, rate_eq_natAbs_div hfs]
    rw [Nat.cast_mul unitsPerOne, unitsPerOne_cast]
    push_cast
    field_simp
    norm_num
  rw [phaseStep, BitVec.toNat_ofNat, Nat.mod_eq_of_lt (by omega), ← hround]
  push_cast
  rfl

/-- A time in samples as a word: the exact quotient rounded once, the largest finite word where that overflows. -/
theorem ms2f_eq : ms2f t fs =
    if rnd32 (fval t * fs / 1000) = 0x7F800000#32 then 0x7F7FFFFF#32 else rnd32 (fval t * fs / 1000) := by
  have hq : 0 ≤ fval t * fs / 1000 := by positivity
  have hunits : |fval t * fs / 1000| * 2 ^ 149 =
      ((fmag t * fs.num.natAbs : Nat) : Rat) / ((1000 * fs.den : Nat) : Rat) := by
    rw [abs_of_nonneg hq, time_mul_rate ht hfs, Nat.cast_mul unitsPerOne, unitsPerOne_cast]
    push_cast
    field_simp
  have hrnd := rnd32_eq_signed (Nat.mul_pos (by norm_num) fs.den_pos) hunits
  rw [decide_eq_false hq.not_gt] at hrnd
  have hle := roundMag_le (fmag t * fs.num.natAbs) (1000 * fs.den)
  rw [hrnd, ms2f]
  generalize roundMag (fmag t * fs.num.natAbs) (1000 * fs.den) = bits at hle
  have hinf : signed false bits = 0x7F800000#32 ↔ bits = 0x7F800000 := by
    refine ⟨fun h => ?_, fun h => by rw [h]; rfl⟩
    rw [← fbits_signed false (by omega : bits < 2 ^ 31), h]; rfl
  by_cases hb : bits = 0x7F800000
  · rw [if_neg (by omega), if_pos (hinf.2 hb), maxF]
  · rw [if_pos (by omega), if_neg (mt hinf.1 hb)]

end Counts

/-- Settles O24: every count is a fraction equal to the exact quotient, rounded once. -/
theorem timesConvertExactly : Obligations.TimesConvertExactly := by
  intro t fs _ ht h1
  have hfs : 0 < fs := one_pos.trans_le h1
  exact ⟨ms2n_eq ht hfs, ms2f_eq ht hfs, stepsOf_eq ht hfs, phaseStep_eq ht hfs, secondOf_eq hfs, halfGrainOf_eq ht hfs⟩

/-! ### The sample-rate operand -/

theorem dfrac_lt (v : Word64) : dfrac v < 2 ^ 52 := by
  have := (v.extractLsb' 0 52).isLt
  simpa [dfrac] using this

/-- The magnitude of a finite binary64 word (`00_scope.md` R11). -/
def mag64 (v : Word64) : Rat :=
  if dexp v = 0 then dfrac v / 2 ^ 1074 else (2 ^ 52 + dfrac v) * 2 ^ dexp v / 2 ^ 1075

theorem val64_eq (v : Word64) : val64 v = if v.getLsbD 63 then -mag64 v else mag64 v := rfl

/-- The value that `dval` gives is its numerator over 2^52. -/
theorem dval_eq (v : Word64) : dval v = (((2 ^ 52 + dfrac v) * 2 ^ (dexp v - 1023) : Nat) : Rat) / 2 ^ 52 := by
  rw [dval, Rat.mkRat_eq_div, Int.cast_natCast, Nat.cast_pow, Nat.cast_ofNat]

theorem one_le_dval (v : Word64) : 1 ≤ dval v := by
  rw [dval_eq, one_le_div (by positivity)]
  have : 2 ^ 52 * 1 ≤ (2 ^ 52 + dfrac v) * 2 ^ (dexp v - 1023) := Nat.mul_le_mul (by omega) Nat.one_le_two_pow
  exact_mod_cast this

/-- The fields of a word of at least 1 as `fsval` reads them: sign 0 and a biased exponent of at least 1023. -/
theorem val64_eq_dval {v : Word64} (hs : v.getLsbD 63 = false) (he : 1023 ≤ dexp v) : val64 v = dval v := by
  obtain ⟨k, hk⟩ := Nat.exists_eq_add_of_le' he
  have hden : (2 : Rat) ^ 1075 = 2 ^ 52 * 2 ^ 1023 := by rw [← pow_add]
  rw [val64_eq, hs, if_neg Bool.false_ne_true, mag64, if_neg (by omega), dval_eq, hk, Nat.add_sub_cancel,
    hden, pow_add, ← mul_assoc, mul_div_mul_right _ _ (by positivity)]
  push_cast
  rfl

theorem mag64_nonneg (v : Word64) : 0 ≤ mag64 v := by unfold mag64; split <;> positivity

/-- A magnitude of biased exponent below 1023 is below 1. -/
theorem mag64_lt_one {v : Word64} (he : dexp v < 1023) : mag64 v < 1 := by
  have hf : (dfrac v : Rat) < 2 ^ 52 := by exact_mod_cast dfrac_lt v
  unfold mag64
  split
  · rw [div_lt_one (by positivity)]
    exact hf.trans (pow_lt_pow_right₀ (by norm_num) (by norm_num))
  · have hden : (2 : Rat) ^ 1075 = 2 ^ 53 * 2 ^ 1022 := by rw [← pow_add]
    rw [div_lt_one (by positivity), hden]
    exact mul_lt_mul (by linarith) (pow_le_pow_right₀ (by norm_num) (by omega)) (by positivity) (by positivity)

/-- A finite word with sign 1 or with a biased exponent below 1023 is below 1. -/
theorem val64_lt_one {v : Word64} (h : v.getLsbD 63 = true ∨ dexp v < 1023) : val64 v < 1 := by
  have h0 := mag64_nonneg v
  rw [val64_eq]
  split
  · linarith
  · rename_i hs
    exact mag64_lt_one (h.resolve_left hs)

/-- The comparison of `fsval` with the largest rate is that of the values. -/
theorem lt_dval_iff (fsMax : Rat) (v : Word64) :
    fsMax.num * ((2 ^ 52 : Nat) : Int) < (((2 ^ 52 + dfrac v) * 2 ^ (dexp v - 1023) : Nat) : Int) * (fsMax.den : Int) ↔
      fsMax < dval v := by
  have hden : (0 : Rat) < fsMax.den := by exact_mod_cast fsMax.den_pos
  conv_rhs => rw [← Rat.num_div_den fsMax]
  rw [dval_eq, div_lt_div_iff₀ hden (by positivity)]
  exact_mod_cast Iff.rfl

/-- Settles O25: a finite word is below 1 exactly where `fsval` reads its sign and exponent so, and else is `dval`. -/
theorem sampleRateOperandIsClamped : Obligations.SampleRateOperandIsClamped := by
  intro fsMax v _
  refine ⟨fun h => ?_, fun h => ?_⟩
  · simp [fsval, h]
  · rw [fsval, if_neg h.ne]
    by_cases hlow : v.getLsbD 63 = true ∨ dexp v < 1023
    · rw [if_pos (by simpa using hlow), if_pos (val64_lt_one hlow)]
    · obtain ⟨hs, he⟩ := not_or.1 hlow
      have hval := val64_eq_dval (Bool.not_eq_true _ ▸ hs) (not_lt.1 he)
      rw [if_neg (by simpa using hlow), hval, if_neg (one_le_dval v).not_gt]
      simp only [lt_dval_iff]

end Sys2Proof.Scope
end

