-- ==== Sys2Proof/Proofs/DelayAccess.lean ====
section
/-! PROOFS. The access functions of a prepared DelayLine (`20_memory.md` R76 to R84): its slots, the fixed step and the tap,
and the commands that call them. -/

namespace Sys2Proof.Delay

open Sys2Proof.Machine Sys2Proof.Claims

/-! ### Slots -/

/-- The slot behind the write index as a remainder of natural numbers (`20_memory.md` R76). -/
theorem ridx_eq_behind {d cap : Nat} (w : Nat) (h : d ≤ cap) : ridx w d cap = behind w d cap := by
  have hcast : ((w + cap - d : Nat) : Int) = (w : Int) - d + cap := by omega
  rw [behind, ← Int.toNat_natCast ((w + cap - d) % cap), Int.natCast_emod, hcast, Int.add_emod_right, ridx]

/-- Once the write index has advanced, its old slot is one behind it. -/
theorem ridx_advance_one {w cap : Nat} (h : w < cap) : ridx (advance w cap) 1 cap = w := by
  rw [ridx, advance, Int.natCast_emod, Int.emod_sub_emod, Nat.cast_succ, Nat.cast_one, add_sub_cancel_right,
    ← Int.natCast_emod, Int.toNat_natCast, Nat.mod_eq_of_lt h]

/-- Every other offset grows by one as the write index advances. -/
theorem ridx_advance_succ (w d cap : Nat) : ridx (advance w cap) (d + 1) cap = ridx w d cap := by
  rw [ridx, ridx, advance, Int.natCast_emod, Int.emod_sub_emod]
  push_cast
  rw [add_sub_add_right_eq_sub]

theorem nchan_eq_clampN {nch : Nat} (ch : Nat) (h : 1 ≤ nch) : nchan ch nch = clampN ch 1 nch := clampu_eq_min_max h

/-! ### A prepared DelayLine in its legal ranges -/

/-- The ranges of `10_state.md` R40, which a prepared DelayLine keeps. -/
structure Ranges (depth : Nat) (S : DLState) : Prop where
  mem : Memory.wf depth S.mem = true
  cap : 2 ≤ S.cap
  cap_le : S.cap ≤ depth
  w : S.w < S.cap
  dly : 1 ≤ S.dly
  dly_le : S.dly ≤ S.cap - 1
  nch : 1 ≤ S.nch
  nch_le : S.nch ≤ 2

section Prepared
variable {depth : Nat} {S : DLState} (hprep : S.prepared = true) (hwf : DLState.wf depth S = true)
include hprep hwf

theorem ranges_of_wf : Ranges depth S := by
  obtain ⟨hmem, hranges⟩ := DLState.wf_iff.1 hwf
  obtain ⟨hcap, hle, hw, hdly, hdle, hcount, -⟩ := hranges hprep
  have hnch : S.nch = 1 ∨ S.nch = 2 := by simpa [legalCount] using hcount
  exact ⟨hmem, hcap, hle, hw, hdly, hdle, by omega, by omega⟩

/-! ### The fixed step and the tap -/

/-- What the write of a step leaves in the buffer (`20_memory.md` R79). -/
theorem storedAt_memWrite (n : Nat) (x : Chans Word) :
    storedAt depth S.mem (memWrite S.mem n S.w x) n S.w (pick x.c0 x.c1) := by
  have h := ranges_of_wf hprep hwf
  exact ⟨memWrite_wf h.mem n (h.w.trans_le h.cap_le) x, fun c j hc => memRead_memWrite h.mem n S.w x hc j⟩

/-- A slot at an offset of the legal range is never the one the step writes (`20_memory.md` R76). -/
theorem memRead_memWrite_ridx (n : Nat) (x : Chans Word) {c d : Nat} (hc : c < 2) (h1 : 1 ≤ d) (hd : d ≤ S.cap - 1) :
    memRead (memWrite S.mem n S.w x) c (ridx S.w d S.cap) = memRead S.mem c (ridx S.w d S.cap) := by
  have h := ranges_of_wf hprep hwf
  rw [memRead_memWrite h.mem n S.w x hc, if_neg fun hslot => ridx_ne h.w h1 hd hslot.2]

/-- The fixed step answers the word `dly` behind the write index as it stood before the write. -/
theorem dlFixed_out (n : Nat) (x : Chans Word) {c : Nat} (hc : c < 2) :
    (dlFixed S n x).1.get c = if c < n then memRead S.mem c (ridx S.w S.dly S.cap) else 0#32 := by
  have h := ranges_of_wf hprep hwf
  have hsilent : silence.get c = 0#32 := by unfold Chans.get; split <;> rfl
  rw [dlFixed, Chans.get_upTo _ _ _ hc, memRead_memWrite_ridx hprep hwf n x hc h.dly h.dly_le, hsilent]

/-- The tap reads the word at the clamped offset (`20_memory.md` R83). -/
theorem dlTap_eq_behind (c : Nat) (k : Word) :
    dlTap S c k = memRead S.mem (min c (S.nch - 1)) (behind S.w (clampN k.toNat 1 (S.cap - 1)) S.cap) := by
  have h := ranges_of_wf hprep hwf
  have hcap : 1 ≤ S.cap - 1 := by have := h.cap; omega
  obtain ⟨-, hle⟩ := clampu_mem (n := k.toNat) hcap
  rw [dlTap, ridx_eq_behind _ (hle.trans (Nat.sub_le _ _)), clampu_eq_min_max hcap, clampN]

/-- The tap at the delay is the word of the fixed step, whatever that step writes (`20_memory.md` R84). -/
theorem dlTap_dly_eq_dlFixed (hdepth : depth < 2 ^ 31) {n c : Nat} (hn : n ≤ S.nch) (hc : c < n) (x : Chans Word) :
    dlTap S c (BitVec.ofNat 32 S.dly) = (dlFixed S n x).1.get c := by
  obtain ⟨-, hcap, hcaple, -, hdly, hdle, -, hnch⟩ := ranges_of_wf hprep hwf
  have hword : (BitVec.ofNat 32 S.dly).toNat = S.dly := by
    rw [BitVec.toNat_ofNat, Nat.mod_eq_of_lt (by omega)]
  rw [dlFixed_out hprep hwf n x (by omega), if_pos hc, dlTap, hword, clampu_of_mem hdly hdle, Nat.min_eq_left (by omega)]

end Prepared

/-- Settles O37: the tap after a step is the tap at the delay of a state that is again in its legal ranges. -/
theorem tapAgreesWithTheStep : Obligations.TapAgreesWithTheStep := by
  intro depth S n c x y hdepth hprep hwf hn hc
  exact ⟨dlTap_dly_eq_dlFixed hprep hwf hdepth hn hc x,
    dlTap_dly_eq_dlFixed (S := (dlFixed S n x).2) hprep (dlFixed_wf hwf hprep n x) hdepth hn hc y⟩

/-! ### The commands -/

section Commands
variable {s : State} {u : Nat} {p : DLParams} {S : DLState} (hp : s.cfg.dl[u]? = some p) (hS : s.dls[u]? = some S)
  (hprep : S.prepared = true)
include hp hS hprep

theorem exec_dlProcess (ch : Nat) (x : Chans Word) :
    exec (.dlProcess u ch x.c0 x.c1) s = .next (complete ((dlFixed S (nchan ch S.nch) x).1.get 0)
      ((dlFixed S (nchan ch S.nch) x).1.get 1) (s.putDl u (dlFixed S (nchan ch S.nch) x).2)) :=
  onDl_completes _ hp hS fun _ => hprep

theorem exec_dlProcessMod (ch : Nat) (x m : Chans Word) :
    exec (.dlProcessMod u ch x.c0 x.c1 m.c0 m.c1) s = .next (complete ((dlMod m S (nchan ch S.nch) x).1.get 0)
      ((dlMod m S (nchan ch S.nch) x).1.get 1) (s.putDl u (dlMod m S (nchan ch S.nch) x).2)) :=
  onDl_completes _ hp hS fun _ => hprep

theorem exec_dlGetSample (ch : Nat) (k : Word) :
    exec (.dlGetSample u ch k) s = .next (complete (dlTap S ch k) 0#32 (s.putDl u S)) :=
  onDl_completes _ hp hS fun _ => hprep

end Commands

theorem exec_apGetSample {s : State} {u : Nat} {p : APParams} {A : APState} (hp : s.cfg.ap[u]? = some p)
    (hA : s.aps[u]? = some A) (hprep : A.prepared = true) (ch : Nat) (k : Word) :
    exec (.apGetSample u ch k) s = .next (complete (dlTap A.dl ch k) 0#32 (s.putAp u A)) :=
  onAp_completes _ hp hA fun _ => hprep

/-- Writing back the element that stands at a place changes nothing. -/
theorem set_of_getElem? {α : Type} {l : List α} {i : Nat} {a : α} (h : l[i]? = some a) : l.set i a = l := by
  obtain ⟨hi, rfl⟩ := List.getElem?_eq_some_iff.1 h
  exact List.set_getElem_self hi

theorem putDl_self {s : State} {u : Nat} {S : DLState} (h : s.dls[u]? = some S) : s.putDl u S = s := by
  rw [State.putDl, set_of_getElem? h]

theorem putAp_self {s : State} {u : Nat} {A : APState} (h : s.aps[u]? = some A) : s.putAp u A = s := by
  rw [State.putAp, set_of_getElem? h]

/-- Settles O36: the unit is written back as it was, and the word is the tap's. -/
theorem tapsCompleteAndChangeNoUnit : Obligations.TapsCompleteAndChangeNoUnit := by
  intro s u ch k
  refine ⟨fun p S hp hS hprep hwf => ?_, fun p A hp hA hprep hdl hwf => ?_⟩
  · rw [exec_dlGetSample hp hS hprep, putDl_self hS, dlTap_eq_behind hprep hwf]
    rfl
  · rw [exec_apGetSample hp hA hprep, putAp_self hA, dlTap_eq_behind hdl hwf]
    rfl

/-- Settles O34: the word read is the one before the write, since the offset never meets the write index. -/
theorem delayLineProcessCompletes : Obligations.DelayLineProcessCompletes := by
  intro s u ch in0 in1 p S hp hS hprep hwf
  have h := ranges_of_wf hprep hwf
  refine ⟨_, storedAt_memWrite hprep hwf (clampN ch 1 S.nch) ⟨in0, in1⟩, ?_⟩
  rw [exec_dlProcess hp hS hprep ch ⟨in0, in1⟩, dlFixed_out hprep hwf _ _ Nat.zero_lt_two,
    dlFixed_out hprep hwf _ _ Nat.one_lt_two, nchan_eq_clampN ch h.nch,
    ridx_eq_behind _ (h.dly_le.trans (Nat.sub_le _ _))]
  rfl

end Sys2Proof.Delay
end

