-- ==== Sys2Proof/Proofs/DelayModulation.lean ====
section
/-! PROOFS. The modulated step of a DelayLine (`20_memory.md` R81, `42_delayline.md` R134): the modulation is split exactly
into its whole part and its fraction. -/

namespace Sys2Proof.Delay

open Sys2Proof.Machine Sys2Proof.Claims Sys2Proof.Scope

/-- The modulation that `DLmod` reads has no sign but that of a zero. -/
theorem modInput_nonneg (m : Word) : fsign (modInput m) = false ∨ fbits (modInput m) = 0 := by
  unfold modInput
  split
  · exact .inl rfl
  · rename_i h
    obtain ⟨hnan, hlt⟩ : isNaN m = false ∧ flt m 0#32 = false := by simpa using h
    have hkey : ¬ fkey m < 0 := fun hk => by
      have hbelow : flt m 0#32 = true := flt_iff.2 ⟨hnan, rfl, hk⟩
      exact Bool.false_ne_true (hlt.symm.trans hbelow)
    unfold fkey at hkey
    cases hs : fsign m
    · exact .inl rfl
    · rw [hs, if_pos rfl] at hkey
      exact .inr (by omega)

/-- The one infinity that is not negative is +∞. -/
theorem isInf_iff_of_nonneg {v : Word} (h : fsign v = false ∨ fbits v = 0) : isInf v = true ↔ v = 0x7F800000#32 := by
  refine ⟨fun hinf => ?_, fun hv => by rw [hv]; rfl⟩
  have hv := eq_signed_of_isInf hinf
  rcases h with hs | hb
  · rwa [hs] at hv
  · rw [hv, fbits_signed _ (by norm_num)] at hb
    exact absurd hb (by norm_num)

/-- The fraction of a value that is not negative is a word of its own (`20_memory.md` R82 (a)). -/
theorem fraction_exact {v : Word} (h : fsign v = false ∨ fbits v = 0) :
    isFinite (rndUnits (fmag v % unitsPerOne : Nat) 1) = true ∧ fsign (rndUnits (fmag v % unitsPerOne : Nat) 1) = false ∧
      fval (rndUnits (fmag v % unitsPerOne : Nat) 1) = fval v - ⌊fval v⌋ := by
  obtain ⟨M, e, hM, hfrac⟩ := exists_fmag_mod_eq v
  have hlt : M * 2 ^ e < 2 ^ 277 := calc
    M * 2 ^ e = fmag v % 2 ^ 149 := hfrac.symm
    _ < 2 ^ 149 := Nat.mod_lt _ (by positivity)
    _ < 2 ^ 277 := by gcongr <;> norm_num
  obtain ⟨hmag, hfin⟩ := fmag_roundMag_exact false hM hlt
  have hword : rndUnits (fmag v % unitsPerOne : Nat) 1 = signed false (roundMag (M * 2 ^ e) 1) := by
    rw [rndUnits, unitsPerOne, hfrac, Int.natAbs_natCast, decide_eq_false (Int.natCast_nonneg _).not_gt]
  have hsign : fsign (signed false (roundMag (M * 2 ^ e) 1)) = false := fsign_signed false (by omega)
  rw [hword]
  refine ⟨isFinite_signed false hfin, hsign, ?_⟩
  have hsplit : (fmag v : Rat) = 2 ^ 149 * (fmag v / 2 ^ 149 : Nat) + (M * 2 ^ e : Nat) := by
    rw [← hfrac]
    exact_mod_cast (Nat.div_add_mod (fmag v) (2 ^ 149)).symm
  rw [fval_eq_fmag (.inl hsign), hmag, floor_fval h, fval_eq_fmag h, hsplit, Int.cast_natCast]
  field_simp
  ring

/-- At +∞ the delay saturates. -/
theorem modDelay_of_isInf {S : DLState} {m : Word} (h : isInf (modInput m) = true) : modDelay S m = (S.cap - 1, 0#32) := by
  have hsat : S.cap - 1 ≤ S.dly + S.cap := by omega
  simp only [modDelay, h, if_true, hsat]

/-- Below +∞ the whole part lengthens the delay, and the fraction is kept where the delay does not saturate. -/
theorem modDelay_of_not_isInf {S : DLState} {m : Word} (h : isInf (modInput m) = false) :
    modDelay S m = if S.cap - 1 ≤ S.dly + fmag (modInput m) / unitsPerOne then (S.cap - 1, 0#32)
      else (S.dly + fmag (modInput m) / unitsPerOne, rndUnits (fmag (modInput m) % unitsPerOne : Nat) 1) := by
  simp only [modDelay, h, Bool.false_eq_true, if_false]

/-- The delay and the fraction that the model computes are those of `20_memory.md` R81. -/
theorem modulated_modDelay (S : DLState) (m : Word) : modulated S m (modDelay S m).1 (modDelay S m).2 := by
  have hnonneg := modInput_nonneg m
  have hinput : (if isNaN m = true ∨ flt m 0x00000000#32 = true then 0x00000000#32 else m) = modInput m := by
    simp only [modInput, Bool.or_eq_true]
  unfold modulated
  simp only [hinput, ← isInf_iff_of_nonneg hnonneg]
  cases hinf : isInf (modInput m)
  · have hwhole : ⌊fval (modInput m)⌋ = ((fmag (modInput m) / unitsPerOne : Nat) : Int) := floor_fval hnonneg
    have hsat : (S.cap : Int) - 1 ≤ S.dly + ⌊fval (modInput m)⌋ ↔
        S.cap - 1 ≤ S.dly + fmag (modInput m) / unitsPerOne := by
      rw [hwhole]
      generalize fmag (modInput m) / unitsPerOne = q
      omega
    rw [modDelay_of_not_isInf hinf]
    by_cases hle : S.cap - 1 ≤ S.dly + fmag (modInput m) / unitsPerOne
    · rw [if_pos (.inr (hsat.2 hle)), if_pos hle]
      exact ⟨rfl, rfl⟩
    · rw [if_neg (not_or.2 ⟨Bool.false_ne_true, mt hsat.1 hle⟩), if_neg hle]
      exact ⟨by rw [hwhole, Nat.cast_add], fraction_exact hnonneg⟩
  · rw [if_pos (.inl rfl), modDelay_of_isInf hinf]
    exact ⟨rfl, rfl⟩

theorem modDelay_le (S : DLState) (m : Word) : (modDelay S m).1 ≤ S.cap - 1 := by
  cases hinf : isInf (modInput m)
  · rw [modDelay_of_not_isInf hinf]
    split
    · exact le_rfl
    · rename_i h
      exact (not_le.1 h).le
  · rw [modDelay_of_isInf hinf]

/-- A modulated read is the interpolation of R81 between two slots of the legal offsets. -/
theorem modRead_eq_interpolated (S : DLState) (m : Word) (c : Nat) :
    modRead S m c = interpolated S c (modDelay S m).1 (modDelay S m).2 := by
  have hD := (modDelay_le S m).trans (Nat.sub_le _ _)
  have hnext : min ((modDelay S m).1 + 1) (S.cap - 1) ≤ S.cap := (min_le_right _ _).trans (Nat.sub_le _ _)
  rw [modRead, interpolated, ridx_eq_behind _ hD, ridx_eq_behind _ hnext]

/-- Settles O35: the split is `modDelay`'s, and the write at the write index comes after the reads. -/
theorem delayLineProcessModCompletes : Obligations.DelayLineProcessModCompletes := by
  intro s u ch in0 in1 mod0 mod1 p S hp hS hprep hwf
  obtain ⟨hn, -⟩ := nchan_mem (ch := ch) (ranges_of_wf hprep hwf).nch
  rw [← nchan_eq_clampN ch (ranges_of_wf hprep hwf).nch]
  refine ⟨_, fun c => (modDelay S (pick mod0 mod1 c)).1, fun c => (modDelay S (pick mod0 mod1 c)).2,
    fun c => modulated_modDelay S _, storedAt_memWrite hprep hwf _ ⟨in0, in1⟩, ?_⟩
  rw [exec_dlProcessMod hp hS hprep ch ⟨in0, in1⟩ ⟨mod0, mod1⟩, dlMod, Chans.get_upTo _ _ _ Nat.zero_lt_two,
    Chans.get_upTo _ _ _ Nat.one_lt_two, if_pos (show 0 < _ from hn)]
  simp only [modRead_eq_interpolated]
  rfl

end Sys2Proof.Delay
end

