-- ==== Sys2Proof/Proofs/DelayRun.lean ====
section
/-! PROOFS. A run of `DL_PROCESS` packets (`20_memory.md` R78, `42_delayline.md` R138). After `k` steps the slot `d` behind
the write index holds the input of step `k - d`; this is the invariant that every step keeps and from which its output
follows. -/

namespace Sys2Proof.Delay

open Sys2Proof.Machine Sys2Proof.Claims

/-! ### The packet -/

section Fields
variable (op : Byte) (u ch : Nat) (flags : Byte)

theorem extract_op_cmdWord : (cmdWord op u ch flags).extractLsb' 24 8 = op := by
  rw [cmdWord, BitVec.extractLsb'_append_eq_of_le (by decide), BitVec.extractLsb'_append_eq_of_le (by decide)]
  exact BitVec.extractLsb'_append_eq_left

theorem extract_unit_cmdWord : (cmdWord op u ch flags).extractLsb' 16 8 = BitVec.ofNat 8 u := by
  rw [cmdWord, BitVec.extractLsb'_append_eq_of_le (by decide), BitVec.extractLsb'_append_eq_of_le (by decide)]
  exact BitVec.extractLsb'_append_eq_right

theorem extract_ch_cmdWord : (cmdWord op u ch flags).extractLsb' 8 8 = BitVec.ofNat 8 ch := by
  rw [cmdWord, BitVec.extractLsb'_append_eq_of_le (by decide)]
  exact BitVec.extractLsb'_append_eq_right

/-- With zero flags no must-be-zero bit of format `C` is set (`30_encoding.md` R93). -/
theorem cmdWord_and_mbz_c : cmdWord op u ch 0#8 &&& Format.mbz .c = 0#32 := by
  have hmask : Format.mbz .c = 0#24 ++ 0xFF#8 := rfl
  rw [cmdWord, hmask, BitVec.and_append, BitVec.and_zero, BitVec.zero_and]
  rfl

end Fields

/-- The decoder reads back the packet of a `DL_PROCESS` (`30_encoding.md` R97). -/
theorem decode_encode_dlProcess {u ch : Nat} (hu : u < 256) (hch : ch < 256) (a b : Word) :
    decode (encode (.dlProcess u ch a b)) = .ok (.dlProcess u ch a b) := by
  have hop : (encode (.dlProcess u ch a b)).op = 0x23#8 := extract_op_cmdWord 0x23#8 u ch 0#8
  have hrow : opRow 0x23#8 = some ⟨0x23#8, .c, fun p => .dlProcess p.unit p.ch p.d0 p.d1⟩ := rfl
  have hunit : (encode (.dlProcess u ch a b)).unit = u := by
    rw [Packet.unit, encode, extract_unit_cmdWord, BitVec.toNat_ofNat, Nat.mod_eq_of_lt hu]
  have hchan : (encode (.dlProcess u ch a b)).ch = ch := by
    rw [Packet.ch, encode, extract_ch_cmdWord, BitVec.toNat_ofNat, Nat.mod_eq_of_lt hch]
  have hmbz : (encode (.dlProcess u ch a b)).word &&& Format.mbz .c = 0#32 := cmdWord_and_mbz_c 0x23#8 u ch
  simp only [decode, hop, hrow, hmbz, if_true, hunit, hchan]
  rfl

/-! ### The words held -/

/-- The input of step `k - d` on channel `c`, +0.0 where there is none. -/
def delayed (xs : List (Chans Word)) (d k c : Nat) : Word :=
  if d ≤ k then ((xs[k - d]?).map fun x => x.get c).getD 0#32 else 0#32

theorem delayed_succ (xs : List (Chans Word)) (d k c : Nat) : delayed xs (d + 1) (k + 1) c = delayed xs d k c := by
  simp only [delayed, Nat.add_le_add_iff_right, Nat.add_sub_add_right]

theorem delayed_one {xs : List (Chans Word)} {k : Nat} {x : Chans Word} (h : xs[k]? = some x) (c : Nat) :
    delayed xs 1 (k + 1) c = x.get c := by
  simp [delayed, h]

/-- `20_memory.md` R78: before step `k` the slot `d` behind the write index holds the input of step `k - d`, on the
channels below `n`. -/
def HoldsPast (S : DLState) (n : Nat) (xs : List (Chans Word)) (k : Nat) : Prop :=
  ∀ c < n, ∀ d, 1 ≤ d → d ≤ S.cap - 1 → memRead S.mem c (ridx S.w d S.cap) = delayed xs d k c

/-- A cleared buffer holds the past of the first step: none. -/
theorem holdsPast_of_cleared {S : DLState} (h : cleared S.mem) (n : Nat) (xs : List (Chans Word)) :
    HoldsPast S n xs 0 := by
  intro c _ d hd _
  rw [h, delayed, if_neg (by omega)]

section Step
variable {depth : Nat} {S : DLState} (hprep : S.prepared = true) (hwf : DLState.wf depth S = true)
  {n k : Nat} {xs : List (Chans Word)} (hpast : HoldsPast S n xs k)
include hprep hwf hpast

/-- A step keeps the invariant: the slot it writes is the one at offset 1, every other offset grows by one. -/
theorem holdsPast_dlFixed (hn : n ≤ S.nch) {x : Chans Word} (hx : xs[k]? = some x) : HoldsPast (dlFixed S n x).2 n xs (k + 1) := by
  have h := ranges_of_wf hprep hwf
  intro c hc d hd hle
  have hc2 : c < 2 := hc.trans_le (hn.trans h.nch_le)
  obtain ⟨e, rfl⟩ := Nat.exists_eq_add_of_le' hd
  show memRead (memWrite S.mem n S.w x) c (ridx (advance S.w S.cap) (e + 1) S.cap) = _
  rcases Nat.eq_zero_or_pos e with rfl | he
  · rw [ridx_advance_one h.w, memRead_memWrite h.mem n S.w x hc2, if_pos ⟨hc, rfl⟩, delayed_one hx]
  · have hle' : e ≤ S.cap - 1 := (Nat.le_succ e).trans hle
    rw [ridx_advance_succ, memRead_memWrite_ridx hprep hwf n x hc2 he hle', hpast c hc e he hle', delayed_succ]

/-- The output of a step is the input `dly` steps before it. -/
theorem dlFixed_out_of_holdsPast (x : Chans Word) {c : Nat} (hc : c < 2) :
    (dlFixed S n x).1.get c = if c < n then delayed xs S.dly k c else 0#32 := by
  have h := ranges_of_wf hprep hwf
  rw [dlFixed_out hprep hwf n x hc]
  exact ite_congr rfl (fun hcn => hpast c hcn S.dly h.dly h.dly_le) fun _ => rfl

end Step

/-! ### The run -/

/-- The packets of a run. -/
def processEvents (u ch : Nat) (xs : List (Chans Word)) : List PortEvent :=
  xs.map fun x => .command (encode (.dlProcess u ch x.c0 x.c1))

/-- The response of step `k`. -/
def delayedResponse (xs : List (Chans Word)) (n dly k : Nat) : Response :=
  ⟨0x00#8, if 0 < n then delayed xs dly k 0 else 0#32, if 1 < n then delayed xs dly k 1 else 0#32⟩

theorem run_succ_of_step {s t : State} (h : step s = .next t) (k : Nat) : core.run (k + 1) s = core.run k t := by
  have hcore : core.step s = .next t := h
  simp only [Host.Core.run, hcore]

/-- The state stands before step `k` of the run on DelayLine `u`, whose record is `S`. -/
structure BeforeStep (u ch : Nat) (p : DLParams) (xs : List (Chans Word)) (k : Nat) (S : DLState) (s : State) : Prop where
  params : s.cfg.dl[u]? = some p
  unit : s.dls[u]? = some S
  prepared : S.prepared = true
  wf : DLState.wf p.depth S = true
  past : HoldsPast S (nchan ch S.nch) xs k
  presented : s.inp = processEvents u ch (xs.drop k)

section Run
variable {u ch : Nat} (hu : u < 256) (hch : ch < 256) {p : DLParams} {xs : List (Chans Word)}
include hu hch

/-- One step of the run answers its delayed inputs and leads before the next step. -/
theorem step_of_beforeStep {k : Nat} {S : DLState} {s : State} (h : BeforeStep u ch p xs k S s) (hk : k < xs.length) :
    ∃ t : State, step s = .next t ∧ t.rspQ = s.rspQ ++ [delayedResponse xs (nchan ch S.nch) S.dly k] ∧
      BeforeStep u ch p xs (k + 1) (dlFixed S (nchan ch S.nch) xs[k]).2 t := by
  obtain ⟨hp, hS, hprep, hwf, hpast, hinp⟩ := h
  rw [List.drop_eq_getElem_cons hk] at hinp
  obtain ⟨-, hn⟩ := nchan_mem (ch := ch) (ranges_of_wf hprep hwf).nch
  obtain ⟨hlen, -⟩ := List.getElem?_eq_some_iff.1 hS
  have hstep := (step_command hinp).trans <|
    (acceptPacket_ok (decode_encode_dlProcess hu hch xs[k].c0 xs[k].c1) s).trans (exec_dlProcess hp hS hprep ch xs[k])
  refine ⟨_, hstep, ?_, hp, List.getElem?_set_self hlen, hprep, dlFixed_wf hwf hprep _ _,
    holdsPast_dlFixed hprep hwf hpast hn (List.getElem?_eq_getElem hk), congrArg List.tail hinp⟩
  rw [complete_rspQ, putDl_rspQ, dlFixed_out_of_holdsPast hprep hwf hpast _ Nat.zero_lt_two,
    dlFixed_out_of_holdsPast hprep hwf hpast _ Nat.one_lt_two, delayedResponse]

/-- The `m` steps that remain answer the delayed inputs. -/
theorem run_of_beforeStep (m : Nat) {k : Nat} {S : DLState} {s : State} (h : BeforeStep u ch p xs k S s)
    (hlen : k + m = xs.length) :
    ∃ t : State, core.run m s = .next t ∧
      t.rspQ = s.rspQ ++ (List.range' k m).map (delayedResponse xs (nchan ch S.nch) S.dly) := by
  induction m generalizing k S s with
  | zero => exact ⟨s, rfl, (List.append_nil _).symm⟩
  | succ m ih =>
    obtain ⟨t, hstep, hrsp, hnext⟩ := step_of_beforeStep hu hch h (by omega)
    obtain ⟨t', hrun, hrsp'⟩ := ih hnext (by omega)
    refine ⟨t', (run_succ_of_step hstep m).trans hrun, ?_⟩
    rw [hrsp', hrsp, List.append_assoc, List.range'_succ]
    rfl

end Run

/-- Settles O38: a cleared buffer holds the past of step 0, and the run is the one of all the inputs. -/
theorem delayLineDelaysByItsSetting : Obligations.DelayLineDelaysByItsSetting := by
  intro s u ch p S xs hu hch hp hS hprep hwf hclear hinp
  obtain ⟨t, hrun, hrsp⟩ := run_of_beforeStep hu hch xs.length (k := 0)
    ⟨hp, hS, hprep, hwf, holdsPast_of_cleared hclear _ xs, hinp⟩ (Nat.zero_add _)
  refine ⟨t, hrun, hrsp.trans ?_⟩
  rw [List.range_eq_range', ← nchan_eq_clampN ch (ranges_of_wf hprep hwf).nch]
  refine congrArg _ (List.map_congr_left fun k _ => ?_)
  simp only [delayedResponse, delayed, ite_and]

end Sys2Proof.Delay
end

section
/-! PROOFS. The encoding of commands (`30_encoding.md` R92 to R101): the packets a row of the opcode map accepts are those
whose word spells the row's fields and nothing else, from which decode and encode agree in both directions; and what one
step answers to a packet. -/

namespace Sys2Proof.Encoding

open Sys2Proof.Machine Sys2Proof.Claims Sys2Proof.Delay

/-! ### The fields of a word -/

/-- A word is its four bytes. -/
theorem word_eq_iff (v w : Word) : v = w ↔ v.extractLsb' 24 8 = w.extractLsb' 24 8 ∧
    v.extractLsb' 16 8 = w.extractLsb' 16 8 ∧ v.extractLsb' 8 8 = w.extractLsb' 8 8 ∧
    v.extractLsb' 0 8 = w.extractLsb' 0 8 := by
  refine ⟨fun h => by simp [h], fun ⟨h24, h16, h8, h0⟩ => BitVec.eq_of_toNat_eq ?_⟩
  simp only [← BitVec.toNat_inj, BitVec.extractLsb'_toNat, Nat.shiftRight_eq_div_pow] at h24 h16 h8 h0
  omega

theorem extract_flags_cmdWord (op : Byte) (u ch : Nat) (flags : Byte) :
    (cmdWord op u ch flags).extractLsb' 0 8 = flags :=
  BitVec.extractLsb'_append_eq_right

section Fields
variable (p : Packet)

theorem unit_lt : p.unit < 256 := BitVec.isLt _

theorem ch_lt : p.ch < 256 := BitVec.isLt _

theorem ofNat_unit : BitVec.ofNat 8 p.unit = p.word.extractLsb' 16 8 := by
  rw [Packet.unit, BitVec.ofNat_toNat, BitVec.setWidth_eq]

theorem ofNat_ch : BitVec.ofNat 8 p.ch = p.word.extractLsb' 8 8 := by
  rw [Packet.ch, BitVec.ofNat_toNat, BitVec.setWidth_eq]

theorem flag_eq : p.flag = (p.word.extractLsb' 0 8).getLsbD 0 := by simp [Packet.flag]

end Fields

/-! ### The words a format accepts -/

/-- The word with opcode `op` and the fields of `p` that a format names, every other bit zero (`30_encoding.md` R93). -/
def spelled (op : Byte) (p : Packet) : Format → Word
  | .s => cmdWord op 0 0 0#8
  | .n => cmdWord op p.unit 0 0#8
  | .c => cmdWord op p.unit p.ch 0#8
  | .f => cmdWord op p.unit 0 (flagByte p.flag)

theorem extract_op_spelled (op : Byte) (p : Packet) (fmt : Format) : (spelled op p fmt).extractLsb' 24 8 = op := by
  cases fmt <;> exact extract_op_cmdWord ..

/-- No bit of a byte but bit 0 is set exactly where the byte is the one of a flag. -/
theorem and_eq_zero_iff_eq_flagByte : ∀ b : Byte, b &&& 0xFE#8 = 0#8 ↔ b = flagByte (b.getLsbD 0) := by
  decide

/-- The must-be-zero bits of a word are zero exactly where the word is spelled by its own fields (`30_encoding.md` R98). -/
theorem and_mbz_eq_zero_iff (p : Packet) (fmt : Format) : p.word &&& fmt.mbz = 0#32 ↔ p.word = spelled p.op p fmt := by
  have hfull (b : Byte) : b &&& 0xFF#8 = b := BitVec.and_allOnes
  have hop : p.word.extractLsb' 24 8 = p.op := rfl
  rw [word_eq_iff, word_eq_iff p.word, extract_op_spelled]
  cases fmt <;>
    simp only [Format.mbz, spelled, BitVec.extractLsb'_and, BitVec.reduceExtractLsb', BitVec.and_zero, hfull, hop,
      extract_unit_cmdWord, extract_ch_cmdWord, extract_flags_cmdWord, ofNat_unit, ofNat_ch, flag_eq,
      and_eq_zero_iff_eq_flagByte, true_and]

/-! ### The rows of the opcode map -/

/-- No two rows of the opcode map share an `op` byte (`30_encoding.md` R97). -/
theorem opTable_nodup : (opTable.map OpRow.op).Nodup := by decide

theorem opRow_eq_some_iff {op : Byte} {r : OpRow} : opRow op = some r ↔ r ∈ opTable ∧ r.op = op := by
  have hsound {r : OpRow} (h : opRow op = some r) : r ∈ opTable ∧ r.op = op :=
    ⟨List.mem_of_find?_eq_some h, eq_of_beq (List.find?_some (p := fun r : OpRow => r.op == op) h)⟩
  refine ⟨hsound, fun ⟨hmem, hop⟩ => ?_⟩
  have hfound : (opRow op).isSome := List.find?_isSome.2 ⟨r, hmem, beq_iff_eq.2 hop⟩
  obtain ⟨r', hr'⟩ := Option.isSome_iff_exists.1 hfound
  obtain ⟨hmem', hop'⟩ := hsound hr'
  rw [hr', List.inj_on_of_nodup_map opTable_nodup hmem' hmem (hop'.trans hop.symm)]

/-- What the decoder accepts: a packet of a row's opcode whose word the row's format spells (`30_encoding.md` R101). -/
theorem decode_eq_ok_iff {p : Packet} {i : Instr} : decode p = .ok i ↔
    ∃ r ∈ opTable, p.word = spelled r.op p r.fmt ∧ r.build p = i := by
  constructor
  · intro h
    unfold decode at h
    split at h
    · cases h
    · next r hrow =>
      obtain ⟨hmem, hop⟩ := opRow_eq_some_iff.1 hrow
      split at h
      · next hmbz => exact ⟨r, hmem, hop ▸ (and_mbz_eq_zero_iff p r.fmt).1 hmbz, Except.ok.inj h⟩
      · cases h
  · rintro ⟨r, hmem, hword, rfl⟩
    have hop : r.op = p.op := by rw [Packet.op, hword, extract_op_spelled]
    simp only [decode, opRow_eq_some_iff.2 ⟨hmem, hop⟩, (and_mbz_eq_zero_iff p r.fmt).2 (hop ▸ hword), if_true]

theorem toFlag_ofFlag (b : Bool) : (Waveform.ofFlag b).toFlag = b := by cases b <;> rfl

theorem ofFlag_toFlag (w : Waveform) : Waveform.ofFlag w.toFlag = w := by cases w <;> rfl

theorem wellFormed_iff (i : Instr) : i.wellFormed = true ↔
    (∀ k u, i.target = some (k, u) → u < 256) ∧ ∀ ch, i.channel = some ch → ch < 256 := by
  unfold Instr.wellFormed Instr.unitFits Instr.channelFits
  rcases i.target with _ | ⟨k, u⟩ <;> cases i.channel <;> simp

/-- The command that a row builds has its unit and channel from the fields of the packet. -/
theorem build_wellFormed {r : OpRow} (h : r ∈ opTable) (p : Packet) : (r.build p).wellFormed = true := by
  revert r
  simp only [opTable, opRowsSysRamp, opRowsDelay, opRowsFilter, List.cons_append, List.nil_append,
    List.forall_mem_cons]
  simp [wellFormed_iff, Instr.target, Instr.channel, unit_lt, ch_lt]

/-- The encoder writes the fields that the row's format names, under the row's opcode. -/
theorem encode_build_word {r : OpRow} (h : r ∈ opTable) (p : Packet) :
    (encode (r.build p)).word = spelled r.op p r.fmt := by
  revert r
  simp only [opTable, opRowsSysRamp, opRowsDelay, opRowsFilter, List.cons_append, List.nil_append,
    List.forall_mem_cons]
  simp [encode, spelled, toFlag_ofFlag]

/-! ### The packet of a command -/

section Written
variable {op : Byte} {u ch : Nat} {flags : Byte} {w d0 d1 d2 d3 : Word}

theorem unit_of_cmdWord (h : u < 256) : (Packet.mk (cmdWord op u ch flags) d0 d1 d2 d3).unit = u := by
  rw [Packet.unit, extract_unit_cmdWord, BitVec.toNat_ofNat, Nat.mod_eq_of_lt h]

theorem ch_of_cmdWord (h : ch < 256) : (Packet.mk (cmdWord op u ch flags) d0 d1 d2 d3).ch = ch := by
  rw [Packet.ch, extract_ch_cmdWord, BitVec.toNat_ofNat, Nat.mod_eq_of_lt h]

theorem flag_of_cmdWord (b : Bool) : (Packet.mk (cmdWord op u ch (flagByte b)) d0 d1 d2 d3).flag = b := by
  rw [flag_eq, extract_flags_cmdWord]
  cases b <;> rfl

/-- The two halves of a sample rate make it up again (`30_encoding.md` R94). -/
theorem fs_of_halves (fs : Word64) : (Packet.mk w (lowWord fs) (highWord fs) d2 d3).fs = fs := by
  have hsplit : fs.extractLsb' 32 32 ++ fs.extractLsb' 0 32 = fs.extractLsb' 0 64 :=
    BitVec.extractLsb'_append_extractLsb'_eq_extractLsb' rfl
  exact hsplit.trans BitVec.extractLsb'_eq_self

end Written

/-- The constructors of `Instr` stand in the order of the opcode map: the row at a well-formed command's place builds the
command from the command's own packet. -/
theorem exists_row_build_encode {i : Instr} (h : i.wellFormed = true) :
    ∃ r, opTable[i.ctorIdx]? = some r ∧ r.build (encode i) = i := by
  cases i <;> refine ⟨_, rfl, ?_⟩ <;>
    simp [wellFormed_iff, Instr.target, Instr.channel] at h <;>
    simp [encode, unit_of_cmdWord, ch_of_cmdWord, flag_of_cmdWord, fs_of_halves, ofFlag_toFlag, *]

/-- Settles O1: the row that builds the command accepts the command's packet, whose word is spelled from its own fields. -/
theorem decodeInvertsEncode : Obligations.DecodeInvertsEncode := by
  intro i h
  obtain ⟨r, hrow, hbuild⟩ := exists_row_build_encode h
  have hmem := List.mem_of_getElem? hrow
  have hword := encode_build_word hmem (encode i)
  rw [hbuild] at hword
  exact decode_eq_ok_iff.2 ⟨r, hmem, hword, hbuild⟩

/-- Settles O2: the accepted word is spelled from the fields of the packet, and so is the one that is written again. -/
theorem decodedCommandKeepsEveryWordBit : Obligations.DecodedCommandKeepsEveryWordBit := by
  intro p i h
  obtain ⟨r, hmem, hword, rfl⟩ := decode_eq_ok_iff.1 h
  exact ⟨build_wellFormed hmem p, (encode_build_word hmem p).trans hword.symm⟩

/-! ### The answer to a packet -/

/-- The outcome is a next state that `s` reaches by taking its packet off the channel and adding one response, of one of the
five status codes (`30_encoding.md` R90, `60_exceptions.md` R221). -/
def Answers (s : State) (o : Host.Outcome State Fault Refusal) : Prop :=
  ∃ (t : State) (r : Response), o = .next t ∧ t.inp = s.inp.tail ∧ t.rspQ = s.rspQ ++ [r] ∧ r.status.toNat ≤ 4

theorem answers_takeFault (f : FaultCode) (s : State) : Answers s (.next (takeFault f s)) :=
  ⟨_, ⟨faultCode f, 0#32, 0#32⟩, rfl, rfl, rfl, by cases f <;> decide⟩

/-- A command that completes answers, if all that it did before leaves the two channels alone. -/
theorem answers_complete (r0 r1 : Word) {s t : State} (hinp : t.inp = s.inp) (hrsp : t.rspQ = s.rspQ) :
    Answers s (.next (complete r0 r1 t)) :=
  ⟨_, ⟨0x00#8, r0, r1⟩, rfl, congrArg List.tail hinp, congrArg (· ++ _) hrsp, Nat.zero_le 4⟩

theorem answers_runUnit {P R : Type} (found : Option (P × R)) (blocked : R → Bool) {put : R → State → State}
    (cmd : P → R → Reply R) (s : State) (hinp : ∀ r, (put r s).inp = s.inp) (hrsp : ∀ r, (put r s).rspQ = s.rspQ) :
    Answers s (runUnit found blocked put cmd s) := by
  rcases runUnit_cases found blocked put cmd s with ⟨-, h⟩ | ⟨-, -, -, -, h⟩ | ⟨p, r, -, -, h⟩
  · exact h ▸ answers_takeFault .badUnit s
  · exact h ▸ answers_takeFault .unprepared s
  · exact h ▸ answers_complete _ _ (hinp _) (hrsp _)

theorem eq_nop_or_eq_sysStatus {i : Instr} (h : i.target = none) : i = .nop ∨ i = .sysStatus := by
  cases i <;> simp [Instr.target] at h ⊢

/-- Every command answers: a system command completes, any other is one call of `runUnit` on the units of its kind. -/
theorem answers_exec (i : Instr) (s : State) : Answers s (exec i s) := by
  match h : i.target with
  | none =>
    obtain rfl | rfl := eq_nop_or_eq_sysStatus h
    · exact answers_complete 0#32 0#32 rfl rfl
    · exact answers_complete (s.err.setWidth 32) 0#32 rfl rfl
  | some (.ramp, u) =>
    obtain ⟨cmd, hexec⟩ := exec_onRamp h
    exact hexec s ▸ answers_runUnit _ _ _ s (fun _ => rfl) fun _ => rfl
  | some (.dl, u) =>
    obtain ⟨cmd, hexec⟩ := exec_onDl h
    exact hexec s ▸ answers_runUnit _ _ _ s (fun _ => rfl) fun _ => rfl
  | some (.ap, u) =>
    obtain ⟨cmd, hexec⟩ := exec_onAp h
    exact hexec s ▸ answers_runUnit _ _ _ s (fun _ => rfl) fun _ => rfl
  | some (.li, u) =>
    obtain ⟨cmd, hexec⟩ := exec_onLi h
    exact hexec s ▸ answers_runUnit _ _ _ s (fun _ => rfl) fun _ => rfl
  | some (.lfo, u) =>
    obtain ⟨cmd, hexec⟩ := exec_onLfo h
    exact hexec s ▸ answers_runUnit _ _ _ s (fun _ => rfl) fun _ => rfl
  | some (.gps, u) =>
    obtain ⟨cmd, hexec⟩ := exec_onGps h
    exact hexec s ▸ answers_runUnit _ _ _ s (fun _ => rfl) fun _ => rfl

/-- A packet that spells no command is answered by the decoder's fault. -/
theorem answers_acceptPacket (p : Packet) (s : State) : Answers s (acceptPacket p s) := by
  match h : decode p with
  | .ok i => exact acceptPacket_ok h s ▸ answers_exec i s
  | .error f => exact acceptPacket_error h s ▸ answers_takeFault f s

/-- Settles O6: the step accepts the packet, and every acceptance answers. -/
theorem everyPacketGetsOneResponse : Obligations.EveryPacketGetsOneResponse := by
  intro s p rest hinp
  obtain ⟨t, r, hnext, htail, hrsp, hstatus⟩ := answers_acceptPacket p s
  exact ⟨t, r, (step_command hinp).trans hnext, htail.trans (congrArg List.tail hinp), hrsp, hstatus⟩

/-- Settles O4: the step accepts the packet, and the packet decodes. -/
theorem stepRunsTheDecodedCommand : Obligations.StepRunsTheDecodedCommand := by
  intro s p rest i hinp hdec
  exact (step_command hinp).trans (acceptPacket_ok hdec s)

/-- Settles O5: an idle step and a delivery are named updates of the state. -/
theorem deliveryAndIdleKeepTheMachine : Obligations.DeliveryAndIdleKeepTheMachine := by
  intro s rest
  refine ⟨step_idle, fun hinp => ?_⟩
  rw [step_deliver hinp, deliverResponse, hinp, List.tail_cons]

end Sys2Proof.Encoding
end

section
/-! PROOFS. The system commands (`40_sys.md` R110, R111) and the packets that the spec writes out as examples. -/

namespace Sys2Proof.System

open Sys2Proof.Machine Sys2Proof.Claims Sys2Proof.Encoding

/-! ### The packets written out -/

/-- `SYS_STATUS` is read from `cmd_word` alone, whatever the data words (`40_sys.md` R111). -/
theorem decode_sysStatus_of_word {p : Packet} (h : p.word = (encode .sysStatus).word) : decode p = .ok .sysStatus :=
  decode_eq_ok_iff.2 ⟨⟨0x01#8, .s, fun _ => .sysStatus⟩, List.mem_of_getElem? (i := 1) rfl, h, rfl⟩

/-- Settles O3: the first packet carries data words that its command ignores; every other is the packet its command encodes to. -/
theorem specPacketsDecode : Obligations.SpecPacketsDecode := by
  have hencoded : ∀ x ∈ sampleWords.tail, x.2.wellFormed = true ∧ x.1 = encode x.2 := by decide
  refine List.forall_mem_cons.2 ⟨decode_sysStatus_of_word (by decide), fun x hx => ?_⟩
  obtain ⟨hwf, hpacket⟩ := hencoded x hx
  rw [hpacket]
  exact decodeInvertsEncode x.2 hwf

/-! ### The answers -/

theorem complete_eq_answered (r0 r1 : Word) (s : State) : complete r0 r1 s = answered r0 r1 s := rfl

theorem exec_nop (s : State) : exec .nop s = .next (complete 0#32 0#32 s) := rfl

theorem exec_sysStatus (s : State) : exec .sysStatus s = .next (complete (s.err.zeroExtend 32) 0#32 s) := rfl

/-- Settles O13: each system command is one completion, which takes the packet and adds the response. -/
theorem nopAndStatusComplete : Obligations.NopAndStatusComplete := by
  intro s
  rw [exec_nop, exec_sysStatus, complete_eq_answered, complete_eq_answered]
  exact ⟨rfl, rfl⟩

end Sys2Proof.System
end

section
/-! PROOFS. The Ramp (`41_ramp.md` R120 to R128): one equation for each branch of its three functions, the five commands,
and the run of a transition to its target. -/

namespace Sys2Proof.Ramps

open Sys2Proof.Machine Sys2Proof.Claims Sys2Proof.Scope Sys2Proof.System

/-! ### The three functions -/

theorem rampPrep_eq (R : Ramp) (tc : Word) (fs : Rat) :
    rampPrep R tc fs =
      ⟨BitVec.ofNat 32 (clampN (ms2n tc fs) 1 (2 ^ 32 - 1)), R.tgt, R.tgt, 0x00000000#32, 0#32⟩ := by
  rw [rampPrep, stepsOf, clampu_eq_min_max (by norm_num), clampN]

theorem rampSet_of_snap (R : Ramp) (v : Word) {force prep : Bool} (h : force = true ∨ prep = false) :
    rampSet R v force prep = ⟨R.nsteps, v, v, 0x00000000#32, 0#32⟩ :=
  if_pos (by simpa using h)

/-- A set that starts a transition (`41_ramp.md` R121). -/
theorem rampSet_of_glide (R : Ramp) (v : Word) :
    rampSet R v false true = ⟨R.nsteps, R.cur, v, fdiv (fsub v R.cur) (u2f R.nsteps.toNat), R.nsteps⟩ := rfl

theorem rampAdvance_of_idle {R : Ramp} (h : R.cnt.toNat = 0) : rampAdvance R = R :=
  if_pos (BitVec.eq_of_toNat_eq h)

theorem rampAdvance_of_last {R : Ramp} (h : R.cnt.toNat = 1) :
    rampAdvance R = ⟨R.nsteps, R.tgt, R.tgt, R.inc, 0#32⟩ := by
  have hcnt : R.cnt = 1#32 := BitVec.eq_of_toNat_eq h
  simp [rampAdvance, hcnt]

theorem rampAdvance_of_running {R : Ramp} (h : 1 < R.cnt.toNat) :
    rampAdvance R = ⟨R.nsteps, rampNext R, R.tgt, R.inc, BitVec.ofNat 32 (R.cnt.toNat - 1)⟩ := by
  have h0 : R.cnt ≠ 0#32 := by intro he; simp [he] at h
  have h1 : R.cnt ≠ 1#32 := by intro he; simp [he] at h
  have hcnt : R.cnt - 1#32 = BitVec.ofNat 32 (R.cnt.toNat - 1) := by bv_omega
  rw [rampAdvance, if_neg h0, if_neg h1, hcnt]

/-- The value after a step that is not the last, with the guard of `41_ramp.md` R122 as a proposition. -/
theorem rampNext_eq (R : Ramp) : rampNext R =
    if (flt 0x00000000#32 R.inc = true ∧ flt R.tgt (fadd R.cur R.inc) = true) ∨
        (flt R.inc 0x00000000#32 = true ∧ flt (fadd R.cur R.inc) R.tgt = true)
      then R.tgt else fadd R.cur R.inc := by
  simp only [rampNext, Bool.or_eq_true, Bool.and_eq_true]

/-- Settles O28: an equation for each branch. -/
theorem rampFunctionsFollowTheSpec : Obligations.RampFunctionsFollowTheSpec := by
  intro R tc v fs force prep
  refine ⟨rampPrep_eq R tc fs, rampSet_of_snap R v, ?_, rampAdvance_of_idle, rampAdvance_of_last, fun h => ?_⟩
  · rintro rfl rfl
    exact rampSet_of_glide R v
  · rw [rampAdvance_of_running h, rampNext_eq]

/-! ### The commands -/

theorem nchMax_eq_two_iff (ch : Nat) : nchMax ch = 2 ↔ 2 ≤ ch := by
  rw [nchMax, clampu_eq_min_max (by norm_num)]
  omega

section Commands
variable {s : State} {u : Nat} {p : RampParams} {r : RampUnit} (hp : s.cfg.ramp[u]? = some p)
  (hr : s.ramps[u]? = some r)
include hp hr

theorem exec_rampPrepare (fs : Word64) :
    exec (.rampPrepare u fs) s = .next (complete (rampPrep r.ramp p.tcMs (fsval s.cfg.fsMax fs)).nsteps 0#32
      (s.putRamp u ⟨true, fsval s.cfg.fsMax fs, rampPrep r.ramp p.tcMs (fsval s.cfg.fsMax fs)⟩)) :=
  onRamp_completes _ hp hr nofun

theorem exec_rampSetTarget (force : Bool) (v : Word) :
    exec (.rampSetTarget u force v) s = .next (complete 0#32 0#32
      (s.putRamp u ⟨r.prepared, r.fs, rampSet r.ramp v force r.prepared⟩)) :=
  onRamp_completes _ hp hr nofun

theorem exec_rampGetNext (hprep : r.prepared = true) :
    exec (.rampGetNext u) s = .next (complete r.ramp.cur 0#32 (s.putRamp u { r with ramp := rampAdvance r.ramp })) :=
  onRamp_completes _ hp hr fun _ => hprep

theorem exec_rampApplyGain (hprep : r.prepared = true) (ch : Nat) (in0 in1 : Word) :
    exec (.rampApplyGain u ch in0 in1) s = .next (complete (fmul in0 r.ramp.cur)
      (if nchMax ch = 2 then fmul in1 r.ramp.cur else 0#32) (s.putRamp u { r with ramp := rampAdvance r.ramp })) :=
  onRamp_completes _ hp hr fun _ => hprep

theorem exec_rampApplySum (hprep : r.prepared = true) (ch : Nat) (in0 in1 : Word) :
    exec (.rampApplySum u ch in0 in1) s = .next (complete (fadd in0 r.ramp.cur)
      (if nchMax ch = 2 then fadd in1 r.ramp.cur else 0#32) (s.putRamp u { r with ramp := rampAdvance r.ramp })) :=
  onRamp_completes _ hp hr fun _ => hprep

end Commands

/-- Settles O29: neither command needs a prepared unit, so both complete with their reply. -/
theorem rampSettersComplete : Obligations.RampSettersComplete := by
  intro s u p r hp hr
  exact ⟨exec_rampPrepare hp hr, exec_rampSetTarget hp hr⟩

/-- Settles O30: the three commands complete with one step of the Ramp, and their second word asks for two channels. -/
theorem rampStepsComplete : Obligations.RampStepsComplete := by
  intro s u ch in0 in1 p r hp hr hprep
  rw [exec_rampGetNext hp hr hprep, exec_rampApplyGain hp hr hprep, exec_rampApplySum hp hr hprep]
  simp only [nchMax_eq_two_iff, hprep, complete_eq_answered, State.putRamp, and_self]

/-! ### The run to the target -/

/-- The key orders finite words as their values. -/
theorem fkey_le_iff_fval (a b : Word) : fkey a ≤ fkey b ↔ fval a ≤ fval b := by
  have hunits : fkey a ≤ fkey b ↔ funits a ≤ funits b := by have := fkey_lt_iff b a; omega
  rw [hunits, fval_eq_units, fval_eq_units, div_le_div_iff_of_pos_right (by positivity), Int.cast_le]

theorem isFinite_maxF : isFinite maxF = true := by decide

theorem isFinite_fneg_maxF : isFinite (fneg maxF) = true := by rw [isFinite_fneg, isFinite_maxF]

theorem inRange_maxF_iff (x : Word) : inRange (fneg maxF) maxF x = true ↔ isFinite x = true := by
  refine ⟨isFinite_of_inRange isFinite_fneg_maxF isFinite_maxF, fun hx => ?_⟩
  have hlo : fkey (fneg maxF) = -0x7F7FFFFF := rfl
  have hhi : fkey maxF = 0x7F7FFFFF := rfl
  obtain ⟨hgt, hlt⟩ := fkey_of_isFinite hx
  rw [inRange_iff (isNaN_of_isFinite isFinite_fneg_maxF) (isNaN_of_isFinite isFinite_maxF)]
  exact ⟨isNaN_of_isFinite hx, by omega, by omega⟩

/-- A transition between finite values: every finite word lies between the largest one and its negative, so this is the
shape that every step keeps (`rampAdvance_within`) with no bound on the values. -/
def FiniteRun (R : Ramp) : Prop := R.within (fneg maxF) maxF = true

theorem finiteRun_iff {R : Ramp} : FiniteRun R ↔
    isFinite R.cur = true ∧ isFinite R.tgt = true ∧ isNaN R.inc = false ∧
      (0 < fkey R.inc → fkey R.cur ≤ fkey R.tgt) ∧ (fkey R.inc < 0 → fkey R.tgt ≤ fkey R.cur) := by
  rw [FiniteRun, Ramp.within_iff (isNaN_of_isFinite isFinite_fneg_maxF) (isNaN_of_isFinite isFinite_maxF),
    inRange_maxF_iff, inRange_maxF_iff]

theorem finiteRun_advance {R : Ramp} (h : FiniteRun R) : FiniteRun (rampAdvance R) :=
  rampAdvance_within isFinite_fneg_maxF isFinite_maxF h

theorem isFinite_cur {R : Ramp} (h : FiniteRun R) : isFinite R.cur = true := (finiteRun_iff.1 h).1

/-- The Ramp with no transition in progress, at its value. -/
def atRest (R : Ramp) : Ramp := ⟨R.nsteps, R.cur, R.cur, 0x00000000#32, 0#32⟩

/-- A set reads of the Ramp its value and its step count alone: what a transition in progress has left does not matter. -/
theorem rampSet_eq_rampSet_atRest (R : Ramp) (v : Word) (force prep : Bool) :
    rampSet R v force prep = rampSet (atRest R) v force prep := rfl

theorem finiteRun_rampSet {R : Ramp} {v : Word} (hcur : isFinite R.cur = true) (hv : isFinite v = true)
    (hn : 1 ≤ R.nsteps.toNat) : FiniteRun (rampSet R v false true) := by
  have hrest : FiniteRun (atRest R) :=
    finiteRun_iff.2 ⟨hcur, hcur, (by decide : isNaN 0#32 = false), fun _ => le_rfl, fun _ => le_rfl⟩
  rw [rampSet_eq_rampSet_atRest]
  exact rampSet_within isFinite_fneg_maxF isFinite_maxF hrest ((inRange_maxF_iff v).2 hv) fun _ => hn

/-- One step moves the value towards the target and not past it (`41_ramp.md` R128). -/
theorem rampAdvance_towards_target {R : Ramp} (h : FiniteRun R) :
    (fval R.cur ≤ fval R.tgt → fval R.cur ≤ fval (rampAdvance R).cur ∧ fval (rampAdvance R).cur ≤ fval R.tgt) ∧
    (fval R.tgt ≤ fval R.cur → fval (rampAdvance R).cur ≤ fval R.cur ∧ fval R.tgt ≤ fval (rampAdvance R).cur) := by
  rcases Nat.lt_trichotomy R.cnt.toNat 1 with hcnt | hcnt | hcnt
  · rw [rampAdvance_of_idle (by omega)]
    exact ⟨fun hle => ⟨le_rfl, hle⟩, fun hle => ⟨le_rfl, hle⟩⟩
  · rw [rampAdvance_of_last hcnt]
    exact ⟨fun hle => ⟨hle, le_rfl⟩, fun hle => ⟨hle, le_rfl⟩⟩
  · obtain ⟨-, -, -, hup, hdown⟩ := finiteRun_iff.1 h
    obtain ⟨-, hpos, hneg, hzero⟩ := rampNext_between isFinite_fneg_maxF isFinite_maxF h
    rw [rampAdvance_of_running hcnt]
    simp only [← fkey_le_iff_fval]
    omega

/-- The number of steps left. -/
theorem cnt_rampAdvance (R : Ramp) : (rampAdvance R).cnt.toNat = R.cnt.toNat - 1 := by
  rcases Nat.lt_trichotomy R.cnt.toNat 1 with hcnt | hcnt | hcnt
  · rw [rampAdvance_of_idle (by omega)]; omega
  · rw [rampAdvance_of_last hcnt, hcnt]; rfl
  · rw [rampAdvance_of_running hcnt]
    have := R.cnt.isLt
    rw [BitVec.toNat_ofNat, Nat.mod_eq_of_lt (by omega)]

/-- With no step left the Ramp stands at its target. -/
def Arrives (R : Ramp) : Prop := R.cnt.toNat = 0 → R.cur = R.tgt

theorem arrives_advance {R : Ramp} (h : Arrives R) : Arrives (rampAdvance R) := by
  intro hdone
  rw [cnt_rampAdvance] at hdone
  rcases Nat.lt_or_ge R.cnt.toNat 1 with hcnt | hcnt
  · rw [rampAdvance_of_idle (by omega)]
    exact h (by omega)
  · rw [rampAdvance_of_last (by omega)]

/-- What holds of the Ramp `k` steps after a set to `v` that starts a transition. -/
structure Gliding (R : Ramp) (v : Word) (k : Nat) (S : Ramp) : Prop where
  finite : FiniteRun S
  tgt : S.tgt = v
  cnt : S.cnt.toNat = R.nsteps.toNat - k
  arrives : Arrives S
  above : fval R.cur ≤ fval v → fval S.cur ≤ fval v
  below : fval v ≤ fval R.cur → fval v ≤ fval S.cur

theorem gliding_iterate {R : Ramp} {v : Word} (hcur : isFinite R.cur = true) (hv : isFinite v = true)
    (hn : 1 ≤ R.nsteps.toNat) (k : Nat) : Gliding R v k (rampAdvance^[k] (rampSet R v false true)) := by
  induction k with
  | zero =>
    exact ⟨finiteRun_rampSet hcur hv hn, rfl, rfl, fun h0 => absurd h0 (Nat.ne_of_gt hn), id, id⟩
  | succ k ih =>
    rw [Function.iterate_succ_apply']
    obtain ⟨hfin, htgt, hcnt, harr, habove, hbelow⟩ := ih
    obtain ⟨hup, hdown⟩ := rampAdvance_towards_target hfin
    rw [htgt] at hup hdown
    refine ⟨finiteRun_advance hfin, (rampAdvance_tgt _).trans htgt, ?_, arrives_advance harr,
      fun hle => (hup (habove hle)).2, fun hle => (hdown (hbelow hle)).2⟩
    rw [cnt_rampAdvance, hcnt]; omega

/-- Where the distance to the target overflows, the increment is the infinity of its sign and the guard of `41_ramp.md` R122
holds the first step at the target. -/
theorem rampNext_of_overflow {R : Ramp} (hcur : isFinite R.cur = true) (htgt : isFinite R.tgt = true)
    (hinc : isInf R.inc = true) : rampNext R = R.tgt := by
  obtain ⟨-, hadd, -⟩ := operators_of_isInf_of_isFinite hinc hcur
  obtain ⟨htn, hnt, -⟩ := compare_isFinite_isInf htgt hinc
  obtain ⟨h0n, hn0, -⟩ := compare_isFinite_isInf (a := 0x00000000#32) rfl hinc
  rw [rampNext_eq, hadd, htn, hnt, h0n, hn0, if_pos (by cases fsign R.inc <;> simp)]

theorem isInf_signed (neg : Bool) : isInf (signed neg 0x7F800000) = true := by cases neg <;> rfl

theorem rampAdvance_of_overflow {R : Ramp} {v : Word} (hcur : isFinite R.cur = true) (hv : isFinite v = true)
    (hn : 1 ≤ R.nsteps.toNat) (hinf : isInf (fsub v R.cur) = true) :
    (rampAdvance (rampSet R v false true)).cur = v := by
  obtain ⟨hsteps, -⟩ := u2f_pos R.nsteps hn
  obtain ⟨-, -, -, -, hdiv, -⟩ := operators_of_isInf_of_isFinite hinf hsteps
  have hinc : isInf (rampSet R v false true).inc = true := by
    rw [rampSet_of_glide, hdiv]; exact isInf_signed _
  rcases Nat.eq_or_lt_of_le hn with hone | hmore
  · rw [rampAdvance_of_last hone.symm, rampSet_tgt]
  · rw [rampAdvance_of_running hmore]
    exact rampNext_of_overflow hcur hv hinc

/-- Settles O31: the invariant `Gliding` of every iterate, and one more step of it. -/
theorem rampReachesItsTargetMonotonically : Obligations.RampReachesItsTargetMonotonically := by
  intro R v hcur hv hn at'
  have hglide : ∀ k, Gliding R v k (rampAdvance^[k] (rampSet R v false true)) := gliding_iterate hcur hv hn
  have hsucc : ∀ k, at' (k + 1) = (rampAdvance (rampAdvance^[k] (rampSet R v false true))).cur := fun k =>
    congrArg Ramp.cur (Function.iterate_succ_apply' _ _ _)
  refine ⟨rfl, fun k => isFinite_cur (hglide k).finite, fun hle k => ?_, fun hle k => ?_, fun k hk => ?_,
    rampAdvance_of_overflow hcur hv hn, fun prep => ?_⟩
  · obtain ⟨hup, -⟩ := rampAdvance_towards_target (hglide k).finite
    rw [(hglide k).tgt] at hup
    have habove := (hglide k).above hle
    exact ⟨hsucc k ▸ (hup habove).1, habove⟩
  · obtain ⟨-, hdown⟩ := rampAdvance_towards_target (hglide k).finite
    rw [(hglide k).tgt] at hdown
    have hbelow := (hglide k).below hle
    exact ⟨hsucc k ▸ (hdown hbelow).1, hbelow⟩
  · have hcnt := (hglide k).cnt
    exact ((hglide k).arrives (by omega)).trans (hglide k).tgt
  · rw [rampSet_of_snap R v (.inl rfl)]

end Sys2Proof.Ramps
end

section
/-! PROOFS. PREPARE twice (`70_reset_and_hazards.md` R246): how a command reads and writes the units of its kind, said once
for the six kinds, and from that the repetition of any command whose effect on the record is idempotent. -/

namespace Sys2Proof.Prepare

open Sys2Proof.Machine Sys2Proof.Claims

/-! ### Reading and writing one unit -/

/-- A unit written is read back with its parameters. -/
theorem lookupUnit_set {P R : Type} {params : List P} {units : List R} {u : Nat} {p : P} {r : R} (r' : R)
    (h : lookupUnit params units u = some (p, r)) : lookupUnit params (units.set u r') u = some (p, r') := by
  obtain ⟨hp, hr⟩ := lookupUnit_eq_some.1 h
  obtain ⟨hu, -⟩ := List.getElem?_eq_some_iff.1 hr
  exact lookupUnit_eq_some.2 ⟨hp, List.getElem?_set_self hu⟩

/-- `find` reads a unit, whatever `ERR` and the ports hold, and `put` writes it, keeping the parameters and the responses. -/
structure Access {P R : Type} (find : State → Option (P × R)) (put : R → State → State) : Prop where
  find_takeFault : ∀ f s, find (takeFault f s) = find s
  find_complete : ∀ r0 r1 s, find (complete r0 r1 s) = find s
  find_put : ∀ {s p r} r', find s = some (p, r) → find (put r' s) = some (p, r')
  put_again : ∀ r r0 r1 s, sameMachine (put r s) (put r (complete r0 r1 (put r s)))
  put_cfg : ∀ r s, (put r s).cfg = s.cfg
  put_rspQ : ∀ r s, (put r s).rspQ = s.rspQ

theorem access_ramp (u : Nat) : Access (State.rampUnit · u) (State.putRamp u) :=
  ⟨fun _ _ => rfl, fun _ _ _ => rfl, lookupUnit_set, fun _ _ _ _ => by simp [sameMachine],
    fun _ _ => rfl, fun _ _ => rfl⟩

theorem access_dl (u : Nat) : Access (State.dlUnit · u) (State.putDl u) :=
  ⟨fun _ _ => rfl, fun _ _ _ => rfl, lookupUnit_set, fun _ _ _ _ => by simp [sameMachine],
    fun _ _ => rfl, fun _ _ => rfl⟩

theorem access_ap (u : Nat) : Access (State.apUnit · u) (State.putAp u) :=
  ⟨fun _ _ => rfl, fun _ _ _ => rfl, lookupUnit_set, fun _ _ _ _ => by simp [sameMachine],
    fun _ _ => rfl, fun _ _ => rfl⟩

theorem access_li (u : Nat) : Access (State.liUnit · u) (State.putLi u) :=
  ⟨fun _ _ => rfl, fun _ _ _ => rfl, lookupUnit_set, fun _ _ _ _ => by simp [sameMachine],
    fun _ _ => rfl, fun _ _ => rfl⟩

theorem access_lfo (u : Nat) : Access (State.lfoUnit · u) (State.putLfo u) :=
  ⟨fun _ _ => rfl, fun _ _ _ => rfl, lookupUnit_set, fun _ _ _ _ => by simp [sameMachine],
    fun _ _ => rfl, fun _ _ => rfl⟩

theorem access_gps (u : Nat) : Access (State.gpsUnit · u) (State.putGps u) :=
  ⟨fun _ _ => rfl, fun _ _ _ => rfl, lookupUnit_set, fun _ _ _ _ => by simp [sameMachine],
    fun _ _ => rfl, fun _ _ => rfl⟩

/-! ### A command run twice -/

/-- `a` and `b` are the states after the first and the second run of a command from `s`: the same machine, and the same
response twice. -/
def Repeats (s a b : State) : Prop :=
  sameMachine a b ∧ ∃ r, a.rspQ = s.rspQ ++ [r] ∧ b.rspQ = s.rspQ ++ [r, r]

/-- A fault taken twice: the `ERR` bit is sticky (`10_state.md` R33). -/
theorem repeats_takeFault (f : FaultCode) (s : State) : Repeats s (takeFault f s) (takeFault f (takeFault f s)) := by
  refine ⟨?_, ⟨faultCode f, 0#32, 0#32⟩, rfl, by simp⟩
  simp [sameMachine, raiseErr, BitVec.or_assoc]

section Twice
variable {P R : Type} {find : State → Option (P × R)} {put : R → State → State} (hacc : Access find put)
include hacc

/-- A reply given twice to the same unit. -/
theorem Access.repeats_complete (r0 r1 : Word) (r : R) (s : State) :
    Repeats s (complete r0 r1 (put r s)) (complete r0 r1 (put r (complete r0 r1 (put r s)))) := by
  refine ⟨?_, ⟨0x00#8, r0, r1⟩, ?_, ?_⟩
  · exact hacc.put_again r r0 r1 s
  · rw [complete_rspQ, hacc.put_rspQ]
  · rw [complete_rspQ, hacc.put_rspQ, complete_rspQ, hacc.put_rspQ, List.append_assoc]
    rfl

/-- A command that needs no prepared unit and that, run on the record it leaves, gives the same reply again. The reply may
read the parameters of the implementation, so it is given in each of the two states (`cmd`, `cmd'`). -/
theorem Access.repeats_runUnit {cmd cmd' : P → R → Reply R} {s a b : State}
    (ha : runUnit (find s) (fun _ => false) put cmd s = .next a)
    (hb : runUnit (find a) (fun _ => false) put cmd' a = .next b)
    (hidem : a.cfg = s.cfg → ∀ p r, cmd' p (cmd p r).unit = cmd p r) : Repeats s a b := by
  match hfind : find s with
  | none =>
    rw [hfind] at ha
    cases ha
    rw [hacc.find_takeFault, hfind] at hb
    cases hb
    exact repeats_takeFault .badUnit s
  | some (p, r) =>
    rw [runUnit_completes put cmd s hfind rfl] at ha
    cases ha
    have hfind' : find (complete (cmd p r).r0 (cmd p r).r1 (put (cmd p r).unit s)) = some (p, (cmd p r).unit) := by
      rw [hacc.find_complete, hacc.find_put _ hfind]
    rw [runUnit_completes put cmd' _ hfind' rfl, hidem (hacc.put_cfg _ _)] at hb
    cases hb
    exact hacc.repeats_complete _ _ _ s

end Twice

/-- Settles O59: each PREPARE sets every field that it computes from settings that it keeps. -/
theorem prepareIsIdempotent : Obligations.PrepareIsIdempotent := by
  intro i s a b hi ha hb
  change Repeats s a b
  obtain ⟨u, fs, rfl⟩ | ⟨u, ch, m, rfl⟩ | ⟨u, ch, fs, m, rfl⟩ | ⟨u, ch, fs, rfl⟩ | ⟨u, fs, rfl⟩ |
    ⟨u, ch, fs, ms, rfl⟩ := hi
  · exact (access_ramp u).repeats_runUnit ha hb fun hcfg p r => by rw [hcfg]; rfl
  · exact (access_dl u).repeats_runUnit ha hb fun _ p r => rfl
  · exact (access_ap u).repeats_runUnit ha hb fun hcfg p r => by rw [hcfg]; rfl
  · exact (access_li u).repeats_runUnit ha hb fun hcfg p r => by rw [hcfg]; rfl
  · exact (access_lfo u).repeats_runUnit ha hb fun hcfg p r => by rw [hcfg]; rfl
  · exact (access_gps u).repeats_runUnit ha hb fun hcfg p r => by rw [hcfg]; rfl

end Sys2Proof.Prepare
end

section
/-! PROOFS. The setting commands of the DelayLine (`42_delayline.md` R130 to R132): each completes with the record that its
rule names, and a cleared buffer is the canonical one that reads +0.0 everywhere. -/

namespace Sys2Proof.Delay

open Sys2Proof.Machine Sys2Proof.Claims Sys2Proof.System

theorem nchMax_eq_clampN (ch : Nat) : nchMax ch = clampN ch 1 2 := clampu_eq_min_max one_le_two

theorem cleared_memClear : cleared memClear := memRead_memClear

/-- The sized record with its clamps as minimum and maximum (`42_delayline.md` R130). A buffer of two slots
already has a delay in its range. -/
theorem dlSize_eq {depth : Nat} (hdepth : 2 ≤ depth) (S : DLState) (ch : Nat) (m : Word) (req : Nat) :
    dlSize S depth ch m req = ⟨true, clampN ch 1 2, clampN m.toNat 1 (depth - 1) + 1, 0, S.dlyReq,
      clampN req 1 (clampN m.toNat 1 (depth - 1)), memClear⟩ := by
  have hcap : clampu m.toNat 1 (depth - 1) = clampN m.toNat 1 (depth - 1) := clampu_eq_min_max (by omega)
  obtain ⟨hpos, -⟩ := clampu_mem (n := m.toNat) (lo := 1) (hi := depth - 1) (by omega)
  have hdly : clampu req 1 (clampu m.toNat 1 (depth - 1)) = clampN req 1 (clampu m.toNat 1 (depth - 1)) :=
    clampu_eq_min_max hpos
  rw [dlSize, Nat.add_sub_cancel, hdly, hcap, nchMax_eq_clampN]

theorem exec_dlSetDelay (u : Nat) (n : Word) (s : State) : exec (.dlSetDelay u n) s = execDlSetDelay u n s := rfl

section Setting
variable {s : State} {u : Nat} {p : DLParams} {S : DLState} (hp : s.cfg.dl[u]? = some p) (hS : s.dls[u]? = some S)
include hp hS

theorem exec_dlPrepare (ch : Nat) (m : Word) :
    exec (.dlPrepare u ch m) s = .next (complete (BitVec.ofNat 32 (dlSize S p.depth ch m S.dlyReq.toNat).cap)
      (BitVec.ofNat 32 (dlSize S p.depth ch m S.dlyReq.toNat).dly)
      (s.putDl u (dlSize S p.depth ch m S.dlyReq.toNat))) :=
  onDl_completes _ hp hS nofun

theorem exec_dlSetDelay_of_unprepared (hprep : S.prepared = false) (n : Word) :
    exec (.dlSetDelay u n) s = .next (complete 0#32 0#32 (s.putDl u { S with dlyReq := n })) := by
  rw [exec_dlSetDelay, execDlSetDelay, onDl_completes (needs := false) _ hp hS nofun, if_neg (Bool.eq_false_iff.1 hprep)]

theorem exec_dlSetDelay_of_prepared (hprep : S.prepared = true) (n : Word) :
    exec (.dlSetDelay u n) s = .next (complete (BitVec.ofNat 32 (clampu n.toNat 1 (S.cap - 1))) 0#32
      (s.putDl u { S with dlyReq := n, dly := clampu n.toNat 1 (S.cap - 1) })) := by
  rw [exec_dlSetDelay, execDlSetDelay, onDl_completes (needs := false) _ hp hS nofun, if_pos hprep]

theorem exec_dlClear (hprep : S.prepared = true) :
    exec (.dlClear u) s = .next (complete 0#32 0#32 (s.putDl u { S with mem := memClear })) :=
  onDl_completes _ hp hS fun _ => hprep

end Setting

/-- Settles O32: the unit becomes the sized record, whose capacity and delay are the reply. -/
theorem delayLinePrepareCompletes : Obligations.DelayLinePrepareCompletes := by
  intro s u ch m p S hp hS hdepth
  refine ⟨memClear, cleared_memClear, memClear_wf p.depth, ?_⟩
  rw [exec_dlPrepare hp hS, dlSize_eq hdepth]
  rfl

/-- Settles O33: the prepared bit alone decides whether a request takes effect at once, and a clear needs that bit. -/
theorem delayLineSetAndClearComplete : Obligations.DelayLineSetAndClearComplete := by
  intro s u n p S hp hS
  refine ⟨fun hprep => exec_dlSetDelay_of_unprepared hp hS hprep n, fun hprep hcap => ?_, fun hprep => ?_⟩
  · have hdly : clampu n.toNat 1 (S.cap - 1) = clampN n.toNat 1 (S.cap - 1) := clampu_eq_min_max (by omega)
    rw [exec_dlSetDelay_of_prepared hp hS hprep, hdly]
    rfl
  · exact ⟨memClear, cleared_memClear, memClear_wf p.depth, exec_dlClear hp hS hprep⟩

end Sys2Proof.Delay
end

section
/-! PROOFS. The AllPass (`43_allpass.md` R150 to R162). A step takes the words of its form from the input and the old feedback,
and one step of the private DelayLine, fixed or modulated; the two steps differ only in the words they read. -/

namespace Sys2Proof.AllPass

open Sys2Proof.Machine Sys2Proof.Claims Sys2Proof.Delay

/-! ### The settings -/

theorem exec_apSetDelayTime (u : Nat) (ms : Word) (s : State) :
    exec (.apSetDelayTime u ms) s = execApSetDelayTime u ms s := rfl

section Commands
variable {s : State} {u : Nat} {p : APParams} {A : APState} (hp : s.cfg.ap[u]? = some p) (hA : s.aps[u]? = some A)
include hp hA

theorem exec_apPrepare (ch : Nat) (fs : Word64) (m : Word) :
    exec (.apPrepare u ch fs m) s =
      .next (complete (BitVec.ofNat 32 (dlSize A.dl p.depth ch m (ms2n A.dtMs (fsval s.cfg.fsMax fs))).cap)
        (BitVec.ofNat 32 (dlSize A.dl p.depth ch m (ms2n A.dtMs (fsval s.cfg.fsMax fs))).dly)
        (s.putAp u { A with prepared := true, fs := fsval s.cfg.fsMax fs, fb := ⟨0#32, 0#32⟩,
                            dl := dlSize A.dl p.depth ch m (ms2n A.dtMs (fsval s.cfg.fsMax fs)) })) :=
  onAp_completes _ hp hA nofun

theorem exec_apSetCoeff (g : Word) :
    exec (.apSetCoeff u g) s = .next (complete (clampf g (fneg p.gmax) p.gmax) 0#32
      (s.putAp u { A with g := clampf g (fneg p.gmax) p.gmax })) :=
  onAp_completes _ hp hA nofun

theorem exec_apSetDelayTime_of_unprepared (hprep : A.prepared = false) (ms : Word) :
    exec (.apSetDelayTime u ms) s = .next (complete 0#32 0#32 (s.putAp u { A with dtMs := clampf ms 0#32 maxF })) := by
  rw [exec_apSetDelayTime, execApSetDelayTime, onAp_completes (needs := false) _ hp hA nofun]
  simp only [hprep, Bool.false_eq_true, if_false]

theorem exec_apSetDelayTime_of_prepared (hprep : A.prepared = true) (ms : Word) :
    exec (.apSetDelayTime u ms) s =
      .next (complete (BitVec.ofNat 32 (clampu (ms2n (clampf ms 0#32 maxF) A.fs) 1 (A.dl.cap - 1))) 0#32
        (s.putAp u { A with dtMs := clampf ms 0#32 maxF,
                            dl := { A.dl with dly := clampu (ms2n (clampf ms 0#32 maxF) A.fs) 1 (A.dl.cap - 1) } })) := by
  rw [exec_apSetDelayTime, execApSetDelayTime, onAp_completes (needs := false) _ hp hA nofun]
  simp only [hprep, if_true]

theorem exec_apClear (hprep : A.prepared = true) :
    exec (.apClear u) s = .next (complete 0#32 0#32
      (s.putAp u { A with fb := ⟨0#32, 0#32⟩, dl := { A.dl with mem := memClear } })) :=
  onAp_completes _ hp hA fun _ => hprep

theorem exec_apProcess (hprep : A.prepared = true) (ch : Nat) (x : Chans Word) :
    exec (.apProcess u ch x.c0 x.c1) s =
      .next (complete (apStep p.form dlFixed A (nchan ch A.dl.nch) x).1.c0
        (apStep p.form dlFixed A (nchan ch A.dl.nch) x).1.c1
        (s.putAp u (apStep p.form dlFixed A (nchan ch A.dl.nch) x).2)) :=
  onAp_completes _ hp hA fun _ => hprep

theorem exec_apProcessMod (hprep : A.prepared = true) (ch : Nat) (x m : Chans Word) :
    exec (.apProcessMod u ch x.c0 x.c1 m.c0 m.c1) s =
      .next (complete (apStep p.form (dlMod m) A (nchan ch A.dl.nch) x).1.c0
        (apStep p.form (dlMod m) A (nchan ch A.dl.nch) x).1.c1
        (s.putAp u (apStep p.form (dlMod m) A (nchan ch A.dl.nch) x).2)) :=
  onAp_completes _ hp hA fun _ => hprep

end Commands

/-- Settles O39: the private DelayLine becomes the sized record of a `DL_PREPARE` whose request is the delay time. -/
theorem allPassPrepareCompletes : Obligations.AllPassPrepareCompletes := by
  intro s u ch fs m p A hp hA hdepth
  refine ⟨memClear, cleared_memClear, memClear_wf p.depth, ?_⟩
  rw [exec_apPrepare hp hA, dlSize_eq hdepth]
  rfl

/-- Settles O40: the coefficient is stored at once; the prepared bit alone decides whether the delay follows the time. -/
theorem allPassSettersComplete : Obligations.AllPassSettersComplete := by
  intro s u x p A hp hA
  refine ⟨exec_apSetCoeff hp hA x, fun hprep => exec_apSetDelayTime_of_unprepared hp hA hprep x, fun hprep hcap => ?_⟩
  have hdly : ∀ t, clampu t 1 (A.dl.cap - 1) = clampN t 1 (A.dl.cap - 1) := fun t => clampu_eq_min_max (by omega)
  rw [exec_apSetDelayTime_of_prepared hp hA hprep, hdly]
  rfl

/-- Settles O41: a cleared buffer is the canonical one that reads +0.0 everywhere. -/
theorem allPassClearCompletes : Obligations.AllPassClearCompletes := by
  intro s u p A hp hA hprep
  exact ⟨memClear, cleared_memClear, memClear_wf p.depth, exec_apClear hp hA hprep⟩

/-! ### The step of the private DelayLine -/

/-- `step`, on `n` channels of `S`, answers the words `read`, writes its input at the write index and advances
(`20_memory.md` R79, R81). -/
def ReadsAndStores (step : DLState → Nat → Chans Word → Chans Word × DLState) (S : DLState) (n : Nat)
    (read : Nat → Word) : Prop :=
  ∀ x, step S n x =
    (Chans.upTo n read silence, { S with mem := memWrite S.mem n S.w x, w := advance S.w S.cap })

/-- The fixed step reads `dly` behind the write index, since its own write never meets that slot. -/
theorem readsAndStores_dlFixed {depth : Nat} {S : DLState} (hprep : S.prepared = true) (hwf : DLState.wf depth S = true)
    (n : Nat) : ReadsAndStores dlFixed S n fun c => memRead S.mem c (behind S.w S.dly S.cap) := by
  intro x
  have hdly : S.dly ≤ S.cap := (ranges_of_wf hprep hwf).dly_le.trans (Nat.sub_le _ _)
  have hout : ∀ c < 2, (dlFixed S n x).1.get c = if c < n then memRead S.mem c (behind S.w S.dly S.cap) else 0#32 :=
    fun c hc => by rw [dlFixed_out hprep hwf n x hc, ridx_eq_behind _ hdly]
  exact Prod.ext (congrArg₂ Chans.mk (hout 0 Nat.zero_lt_two) (hout 1 Nat.one_lt_two)) rfl

/-- The modulated step reads the interpolated words, before its write. -/
theorem readsAndStores_dlMod (m : Chans Word) (S : DLState) (n : Nat) :
    ReadsAndStores (dlMod m) S n
      fun c => interpolated S c (modDelay S (m.get c)).1 (modDelay S (m.get c)).2 := by
  intro x
  simp only [dlMod, modRead_eq_interpolated]

/-! ### The step of the AllPass -/

/-- The words of a channel satisfy the two equations of the unit's form (`43_allpass.md` R156, R157, R162). -/
theorem apWords_apNode (form : ApForm) (g x fb : Word) :
    apWords form g x fb (apNode form g x fb).1 (apNode form g x fb).2 := by
  cases form <;> exact ⟨rfl, rfl⟩

/-- Replacing channels by those of a replacement of the same channels. -/
theorem upTo_get_upTo {α : Type} (n : Nat) (f : Nat → α) (x y : Chans α) :
    Chans.upTo n (fun c => (Chans.upTo n f x).get c) y = Chans.upTo n f y :=
  congrArg₂ Chans.mk (ite_congr rfl (fun h => if_pos h) fun _ => rfl) (ite_congr rfl (fun h => if_pos h) fun _ => rfl)

/-- An AllPass step in terms of the words that its DelayLine reads: they become the feedback words of the processed
channels, and the delay inputs go to the write index. -/
theorem apStep_of_readsAndStores {step : DLState → Nat → Chans Word → Chans Word × DLState} {A : APState} {n : Nat}
    {read : Nat → Word} (h : ReadsAndStores step A.dl n read) (form : ApForm) (x : Chans Word) :
    apStep form step A n x =
      (Chans.upTo n (fun c => (apNode form A.g (x.get c) (A.fb.get c)).1) silence,
        { A with
          fb := Chans.upTo n read A.fb
          dl := { A.dl with
            mem := memWrite A.dl.mem n A.dl.w
              (Chans.upTo n (fun c => (apNode form A.g (x.get c) (A.fb.get c)).2) silence)
            w := advance A.dl.w A.dl.cap } }) := by
  simp only [apStep, h _, upTo_get_upTo]

/-- Writing the words of the processed channels alone stores them, whatever stands in the others. -/
theorem storedAt_memWrite_upTo {depth : Nat} {S : DLState} (hprep : S.prepared = true)
    (hwf : DLState.wf depth S = true) (n : Nat) (v : Nat → Word) (x : Chans Word) :
    storedAt depth S.mem (memWrite S.mem n S.w (Chans.upTo n v x)) n S.w v := by
  obtain ⟨hmem, hread⟩ := storedAt_memWrite hprep hwf n (Chans.upTo n v x)
  refine ⟨hmem, fun c j hc => (hread c j hc).trans (ite_congr rfl (fun hslot => ?_) fun _ => rfl)⟩
  exact (Chans.get_upTo n v x hc).trans (if_pos hslot.1)

/-- Settles O42: the step of every form, with the words `dly` behind the write index as the new feedback. -/
theorem allPassProcessCompletes : Obligations.AllPassProcessCompletes := by
  intro s u ch in0 in1 p A hp hA hprep hdl hwf
  have hnch := (ranges_of_wf hdl hwf).nch
  obtain ⟨hn, -⟩ := nchan_mem (ch := ch) hnch
  rw [← nchan_eq_clampN ch hnch]
  refine ⟨_, _, _, fun c => apWords_apNode p.form A.g (pick in0 in1 c) (A.fb.get c),
    storedAt_memWrite_upTo hdl hwf _ _ silence, ?_⟩
  rw [exec_apProcess hp hA hprep ch ⟨in0, in1⟩, apStep_of_readsAndStores (readsAndStores_dlFixed hdl hwf _),
    Chans.upTo_c0, if_pos (show 0 < _ from hn)]
  rfl

/-- Settles O43: as O42, with the interpolated words as the new feedback. -/
theorem allPassProcessModCompletes : Obligations.AllPassProcessModCompletes := by
  intro s u ch in0 in1 mod0 mod1 p A hp hA hprep hdl hwf
  have hnch := (ranges_of_wf hdl hwf).nch
  obtain ⟨hn, -⟩ := nchan_mem (ch := ch) hnch
  rw [← nchan_eq_clampN ch hnch]
  refine ⟨_, _, _, _, _, fun c => apWords_apNode p.form A.g (pick in0 in1 c) (A.fb.get c),
    fun c => modulated_modDelay A.dl (pick mod0 mod1 c), storedAt_memWrite_upTo hdl hwf _ _ silence, ?_⟩
  rw [exec_apProcessMod hp hA hprep ch ⟨in0, in1⟩ ⟨mod0, mod1⟩,
    apStep_of_readsAndStores (readsAndStores_dlMod ⟨mod0, mod1⟩ A.dl _)]
  simp only [Chans.upTo, if_pos (show 0 < nchan ch A.dl.nch from hn)]
  rfl

end Sys2Proof.AllPass
end

section
/-! PROOFS. The LeakyIntegrator (`44_integrator.md` R170 to R175): the settings, and the filter at the two ends of its
coefficient's range. There one product is the word itself and the other a zero or a NaN, so the filter is a sum with a zero. -/

namespace Sys2Proof.Integrator

open Sys2Proof.Machine Sys2Proof.Claims Sys2Proof.Scope

/-! ### The settings -/

section Commands
variable {s : State} {u : Nat} {p : LIParams} {L : LIState} (hp : s.cfg.li[u]? = some p) (hL : s.lis[u]? = some L)
include hp hL

theorem exec_liPrepare (ch : Nat) (fs : Word64) :
    exec (.liPrepare u ch fs) s =
      .next (complete (rampPrep L.cr p.tcMs (fsval s.cfg.fsMax fs)).nsteps 0#32
        (s.putLi u ⟨true, fsval s.cfg.fsMax fs, nchMax ch, ⟨0#32, 0#32⟩,
          rampPrep L.cr p.tcMs (fsval s.cfg.fsMax fs)⟩)) :=
  onLi_completes _ hp hL nofun

theorem exec_liSetCoeff (force : Bool) (c : Word) :
    exec (.liSetCoeff u force c) s = .next (complete (clampf c 0#32 oneF) 0#32
      (s.putLi u { L with cr := rampSet L.cr (clampf c 0#32 oneF) force L.prepared })) :=
  onLi_completes _ hp hL nofun

theorem exec_liClear (hprep : L.prepared = true) :
    exec (.liClear u) s = .next (complete 0#32 0#32 (s.putLi u { L with y := ⟨0#32, 0#32⟩ })) :=
  onLi_completes _ hp hL fun _ => hprep

end Commands

/-- Settles O44: the three commands complete with their reply; only a clear needs the prepared bit. -/
theorem integratorSettersComplete : Obligations.IntegratorSettersComplete := by
  intro s u p L hp hL
  refine ⟨fun ch fs => ?_, exec_liSetCoeff hp hL, exec_liClear hp hL⟩
  rw [exec_liPrepare hp hL, Delay.nchMax_eq_clampN]
  rfl

/-! ### Exact operations on a word -/

theorem isInf_of_not_isFinite {v : Word} (hfin : isFinite v = false) (hnan : isNaN v = false) : isInf v = true := by
  simp_all [isFinite, isNaN, isInf]

theorem fval_oneF : fval oneF = 1 := by
  have hmag : fmag oneF = 2 ^ 149 := by decide +kernel
  rw [fval_eq_fmag (.inl rfl), hmag]
  norm_num

/-- A word of value zero is one of the two zeros. -/
theorem eq_signed_zero_of_fval {v : Word} (h : fval v = 0) : v = signed (fsign v) 0 := by
  rw [fval_eq_zero_iff, fmag_eq_zero_iff] at h
  rw [← h, signed_fbits]

theorem fval_signed_zero (neg : Bool) : fval (signed neg 0) = 0 := by
  rw [fval_eq_zero_iff, fmag_eq_zero_iff, fbits_signed neg (by norm_num)]

theorem fval_zero : fval 0#32 = 0 := fval_signed_zero false

/-- A value other than zero rounds to its own word. -/
theorem rnd32_fval {v : Word} (hv : isFinite v = true) (h : fval v ≠ 0) : rnd32 (fval v) = v := by
  have hmag : |fval v| * 2 ^ 149 = (fmag v : Rat) / (1 : Nat) := by
    rw [abs_fval, Nat.cast_one, div_one, div_mul_cancel₀ _ (by positivity)]
  rw [rnd32_eq_signed Nat.one_pos hmag, ← fsign_eq_of_ne_zero h, roundMag_fmag hv, signed_fbits]

/-- 1.0 times a word that is no NaN is the word. -/
theorem fmul_oneF {v : Word} (hnan : isNaN v = false) : fmul oneF v = v := by
  have hone : isFinite oneF = true := by decide
  have hsign : fsign oneF = false := by decide
  cases hfin : isFinite v
  · have hinf := isInf_of_not_isFinite hfin hnan
    obtain ⟨-, -, -, hmul, -⟩ := operators_of_isInf_of_isFinite hinf hone
    rw [hmul, fval_oneF, if_neg one_ne_zero, hsign, Bool.bne_false, ← eq_signed_of_isInf hinf]
  · rw [fmul_of_finite hone hfin, fval_oneF, one_mul, hsign, Bool.false_bne]
    split
    · rename_i h; exact rnd32_fval hfin h
    · rename_i h; exact (eq_signed_zero_of_fval (not_not.1 h)).symm

/-- +0.0 times a finite word is the zero of the word's sign. -/
theorem zero_fmul_of_isFinite {v : Word} (h : isFinite v = true) : fmul 0#32 v = signed (fsign v) 0 := by
  rw [fmul_of_finite (by decide) h, fval_zero, zero_mul, if_neg (not_not.2 rfl), show fsign 0#32 = false by decide,
    Bool.false_bne]

/-- +0.0 times an infinity or a NaN is a NaN. -/
theorem zero_fmul_of_not_isFinite {v : Word} (h : isFinite v = false) : fmul 0#32 v = qNaN := by
  cases hnan : isNaN v
  · obtain ⟨-, -, -, hmul, -⟩ := operators_of_isInf_of_isFinite (isInf_of_not_isFinite h hnan)
      (show isFinite 0#32 = true by decide)
    rw [hmul, if_pos fval_zero]
  · obtain ⟨-, -, hmul, -⟩ := operators_of_isNaN (a := 0#32) (.inr hnan)
    exact hmul

/-- A zero added to a word that is no NaN changes it only where -0.0 meets +0.0. -/
theorem fadd_signed_zero {v : Word} (hnan : isNaN v = false) (neg : Bool) :
    fadd v (signed neg 0) = if v = 0x80000000#32 ∧ neg = false then 0x00000000#32 else v := by
  have hzero : isFinite (signed neg 0) = true := isFinite_signed neg (by norm_num)
  cases hfin : isFinite v
  · have hne : v ≠ 0x80000000#32 := by rintro rfl; exact absurd hfin (by decide)
    obtain ⟨hadd, -⟩ := operators_of_isInf_of_isFinite (isInf_of_not_isFinite hfin hnan) hzero
    rw [hadd, if_neg fun h => hne h.1]
  · rw [fadd_of_finite hfin hzero, fval_signed_zero, add_zero, fsign_signed neg (by norm_num)]
    split
    · rename_i h
      have hne : v ≠ 0x80000000#32 := by rintro rfl; exact h (fval_signed_zero true)
      rw [rnd32_fval hfin h, if_neg fun h => hne h.1]
    · rename_i h
      rw [eq_signed_zero_of_fval (not_not.1 h), fsign_signed _ (by norm_num)]
      generalize fsign v = sgn
      revert sgn neg
      decide

theorem fadd_comm (a b : Word) : fadd a b = fadd b a := by
  by_cases hnan : isNaN a = true ∨ isNaN b = true
  · rw [(operators_of_isNaN hnan).1, (operators_of_isNaN hnan.symm).1]
  · obtain ⟨ha, hb⟩ : isNaN a = false ∧ isNaN b = false := by simpa using hnan
    cases hfa : isFinite a <;> cases hfb : isFinite b
    · have ia := isInf_of_not_isFinite hfa ha
      have ib := isInf_of_not_isFinite hfb hb
      rw [(operators_of_isInf ia ib).1, (operators_of_isInf ib ia).1]
      by_cases hs : fsign a = fsign b
      · rw [if_neg (not_not.2 hs), if_neg (not_not.2 hs.symm), (isInf_eq_iff ia ib).2 hs]
      · rw [if_pos hs, if_pos (Ne.symm hs)]
    · obtain ⟨hab, hba, -⟩ := operators_of_isInf_of_isFinite (isInf_of_not_isFinite hfa ha) hfb
      rw [hab, hba]
    · obtain ⟨hba, hab, -⟩ := operators_of_isInf_of_isFinite (isInf_of_not_isFinite hfb hb) hfa
      rw [hab, hba]
    · rw [fadd_of_finite hfa hfb, fadd_of_finite hfb hfa, add_comm, Bool.and_comm]

/-! ### The filter at the ends of the coefficient's range -/

/-- At coefficient 1.0 the memory's weight is +0.0. -/
theorem liFilter_oneF (x y : Word) : liFilter oneF x y = fadd (fmul oneF x) (fmul 0#32 y) := by
  rw [liFilter, show fsub oneF oneF = 0#32 by decide +kernel]

/-- At coefficient +0.0 the memory's weight is 1.0. -/
theorem liFilter_zero (x y : Word) : liFilter 0#32 x y = fadd (fmul 0#32 x) (fmul oneF y) := by
  rw [liFilter, show fsub oneF 0#32 = oneF by decide +kernel]

/-- A NaN product makes the filter a NaN. -/
theorem isNaN_fadd_of_eq_qNaN {a b : Word} (h : a = qNaN ∨ b = qNaN) : isNaN (fadd a b) = true := by
  have hq : isNaN qNaN = true := by decide
  obtain ⟨hadd, -⟩ := operators_of_isNaN (a := a) (b := b)
    (h.imp (fun h => by rw [h, hq]) fun h => by rw [h, hq])
  rw [hadd, hq]

theorem fmul_of_isNaN {a b : Word} (h : isNaN b = true) : fmul a b = qNaN := by
  obtain ⟨-, -, hmul, -⟩ := operators_of_isNaN (a := a) (.inr h)
  exact hmul

/-- Settles O46: the word of weight 1.0 plus the zero, or the NaN, that the word of weight +0.0 becomes. -/
theorem integratorCornerCoefficients : Obligations.IntegratorCornerCoefficients := by
  refine ⟨fun x y hy hx => ?_, fun x y hy => ?_, fun x y hx hy => ?_, fun x y hx => ?_, fun c x y h => ?_⟩
  · change liFilter oneF x y = _
    rw [liFilter_oneF, fmul_oneF hx, zero_fmul_of_isFinite hy, fadd_signed_zero hx]
  · change isNaN (liFilter oneF x y) = true
    rw [liFilter_oneF]
    exact isNaN_fadd_of_eq_qNaN (.inr (zero_fmul_of_not_isFinite hy))
  · rw [liFilter_zero, fmul_oneF hy, zero_fmul_of_isFinite hx, fadd_comm, fadd_signed_zero hy]
  · rw [liFilter_zero]
    exact isNaN_fadd_of_eq_qNaN (.inl (zero_fmul_of_not_isFinite hx))
  · exact isNaN_fadd_of_eq_qNaN (h.imp fmul_of_isNaN fmul_of_isNaN)

end Sys2Proof.Integrator
end

section
/-! PROOFS. The LFO (`45_lfo.md` R180 to R189). Every branch of `sinturn` gives a word with the properties of R181, where the
tolerance of (c) is the larger of `SIN_TOL` and the error of the correctly rounded sine. Both waveforms are a rational of 0..1
rounded once, and rounding goes past no word: so a wave lies in +0.0..1.0, and the depth times it in +0.0..depth. -/

namespace Sys2Proof.Lfo

-- As in `Sys2Proof/Tests/Slice0.lean`: a proof that waits for an earlier kernel evaluation would hold a thread of its own.
set_option Elab.async false

open Sys2Proof.Machine Sys2Proof.Claims Sys2Proof.Scope Sys2Proof.System Sys2Proof.Ramps Sys2Proof.Integrator

/-! ### Properties of a sine -/

/-- What `45_lfo.md` R181 (b), (c), (e) ask of the value `w` at phase `p`. -/
structure IsSine (tol : Rat) (p w : Word) : Prop where
  range : inRange 0xBF800000#32 0x3F800000#32 w = true
  near : |((fval w : Rat) : ℝ) - turnSin p| ≤ (tol : ℝ)
  firstHalf : p.toNat ≤ 2 ^ 31 → flt w 0x00000000#32 = false
  secondHalf : 2 ^ 31 ≤ p.toNat → flt 0x00000000#32 w = false

theorem IsSine.mono {tol tol' : Rat} {p w : Word} (h : IsSine tol p w) (hle : tol ≤ tol') : IsSine tol' p w :=
  ⟨h.range, h.near.trans (by exact_mod_cast hle), h.firstHalf, h.secondHalf⟩

/-- The model's test of a free generator's value asks for these properties. -/
theorem isSine_of_sineAllowed {tol : Rat} {p w : Word} (h : sineAllowed tol p w = true) : IsSine tol p w := by
  simp only [sineAllowed, Bool.and_eq_true, Bool.or_eq_true, decide_eq_true_eq, Bool.not_eq_true', sineWithin_iff] at h
  obtain ⟨⟨⟨⟨-, hrange⟩, hnear⟩, hfirst⟩, hsecond⟩ := h
  exact ⟨hrange, hnear, fun hp => hfirst.resolve_left (by omega), fun hp => hsecond.resolve_left (by omega)⟩

/-! ### The correctly rounded sine -/

section Signed
variable {bits : Nat} (h : bits ≤ 0x3F800000)
include h

/-- Bits up to those of 1.0 make a word of -1.0..1.0. -/
theorem inRange_signed (neg : Bool) : inRange 0xBF800000#32 0x3F800000#32 (signed neg bits) = true := by
  rw [inRange_iff (by decide) (by decide), fkey_signed neg (by omega), show fkey 0xBF800000#32 = -0x3F800000 by rfl,
    show fkey 0x3F800000#32 = 0x3F800000 by rfl]
  refine ⟨isNaN_signed neg (by omega), ?_⟩
  split <;> omega

theorem flt_signed_false_zero : flt (signed false bits) 0x00000000#32 = false := by
  rw [flt_eq (isNaN_signed _ (by omega)) (by decide), fkey_signed _ (by omega), show fkey 0x00000000#32 = 0 by rfl]
  simp

theorem flt_zero_signed_true : flt 0x00000000#32 (signed true bits) = false := by
  rw [flt_eq (by decide) (isNaN_signed _ (by omega)), fkey_signed _ (by omega), show fkey 0x00000000#32 = 0 by rfl]
  simp

end Signed

/-- Off the half turn, where `sinturn` does not ask for it, the sign of the rounded sine is that of its half. -/
theorem isSine_sineRounded {p : Word} (hp : p.toNat ≠ 2 ^ 31) : IsSine (1 / 2 ^ 25) p (sineRounded p) := by
  have hnear : |((fval (sineRounded p) : Rat) : ℝ) - turnSin p| ≤ ((1 / 2 ^ 25 : Rat) : ℝ) := by
    push_cast; exact sineRounded_near p
  rcases Nat.lt_or_gt_of_ne hp with hlt | hgt
  · have heq : sineRounded p = signed false (sineNearest p) := if_pos hlt.le
    obtain ⟨hbits, -⟩ := sineNearest_near hlt.le
    rw [heq] at hnear ⊢
    exact ⟨inRange_signed hbits false, hnear, fun _ => flt_signed_false_zero hbits, fun hge => absurd hge (by omega)⟩
  · have heq : sineRounded p = signed true (sineNearest (p - 0x80000000#32)) := if_neg (by omega)
    obtain ⟨hbits, -⟩ := sineNearest_near (p := p - 0x80000000#32) (by bv_omega)
    rw [heq] at hnear ⊢
    exact ⟨inRange_signed hbits true, hnear, fun hle => absurd hle (by omega), fun _ => flt_zero_signed_true hbits⟩

/-! ### The cardinal phases -/

theorem turnSin_zero : turnSin 0x00000000#32 = 0 := by simp [turnSin]

theorem turnSin_quarter : turnSin 0x40000000#32 = 1 := by
  rw [turnSin, ← Real.sin_pi_div_two]
  congr 1; norm_num; ring

theorem turnSin_half : turnSin 0x80000000#32 = 0 := by
  rw [turnSin, ← Real.sin_pi]
  congr 1; norm_num; ring

theorem turnSin_threeQuarters : turnSin 0xC0000000#32 = -1 := by
  rw [turnSin, ← Real.sin_pi_div_two, ← Real.sin_neg, ← Real.sin_sub_two_pi]
  congr 1; norm_num; ring

theorem fval_negOne : fval 0xBF800000#32 = -1 := by
  rw [show 0xBF800000#32 = fneg oneF by decide, fval_fneg, fval_oneF]

/-- A word whose value is the sine is near it. -/
theorem near_of_eq {tol : Rat} (htol : 0 ≤ tol) {p w : Word} {x : Rat} (hw : fval w = x) (hp : turnSin p = (x : ℝ)) :
    |((fval w : Rat) : ℝ) - turnSin p| ≤ (tol : ℝ) := by
  rw [hw, hp, sub_self, abs_zero]
  exact_mod_cast htol

/-! ### The generator -/

theorem sinturn_cardinal (cfg : Config) : sinturn cfg 0x00000000#32 = 0x00000000#32 ∧
    sinturn cfg 0x40000000#32 = 0x3F800000#32 ∧ sinturn cfg 0x80000000#32 = 0x00000000#32 ∧
    sinturn cfg 0xC0000000#32 = 0xBF800000#32 := ⟨rfl, rfl, rfl, rfl⟩

theorem isSine_sinturn (cfg : Config) (p : Word) : IsSine (max cfg.sinTol (1 / 2 ^ 25)) p (sinturn cfg p) := by
  have htol : (0 : Rat) ≤ max cfg.sinTol (1 / 2 ^ 25) := le_max_of_le_right (by norm_num)
  unfold sinturn
  split_ifs with hzero hquarter hhalf hthree
  · subst hzero
    exact ⟨by decide, near_of_eq htol fval_zero (by rw [turnSin_zero, Rat.cast_zero]), by decide, by decide⟩
  · subst hquarter
    exact ⟨by decide, near_of_eq htol fval_oneF (by rw [turnSin_quarter, Rat.cast_one]), by decide, by decide⟩
  · subst hhalf
    exact ⟨by decide, near_of_eq htol fval_zero (by rw [turnSin_half, Rat.cast_zero]), by decide, by decide⟩
  · subst hthree
    exact ⟨by decide, near_of_eq htol fval_negOne (by rw [turnSin_threeQuarters]; norm_num), by decide, by decide⟩
  · have hrounded : IsSine (max cfg.sinTol (1 / 2 ^ 25)) p (sineRounded p) :=
      (isSine_sineRounded fun h => hhalf (BitVec.eq_of_toNat_eq h)).mono (le_max_right _ _)
    cases cfg.sine with
    | rounded => exact hrounded
    | free n =>
      dsimp only
      split
      · rename_i hallowed
        exact (isSine_of_sineAllowed hallowed).mono (le_max_left _ _)
      · exact hrounded

/-- Settles O27: a tolerance of at least the rounded sine's error is the larger of the two. -/
theorem sineGeneratorKeepsItsProperties : Obligations.SineGeneratorKeepsItsProperties := by
  intro cfg
  refine ⟨fun p => ?_, sinturn_cardinal cfg⟩
  obtain ⟨hrange, hnear, hfirst, hsecond⟩ := isSine_sinturn cfg p
  refine ⟨hrange, fun htol => ?_, hfirst, hsecond⟩
  rwa [max_eq_left htol] at hnear

/-! ### Values and rounding -/

/-- Between finite bounds a range of words is the range of their values. -/
theorem inRange_iff_fval {lo hi x : Word} (hlo : isFinite lo = true) (hhi : isFinite hi = true) :
    inRange lo hi x = true ↔ isFinite x = true ∧ fval lo ≤ fval x ∧ fval x ≤ fval hi := by
  have hkeys := inRange_iff (x := x) (isNaN_of_isFinite hlo) (isNaN_of_isFinite hhi)
  rw [fkey_le_iff_fval, fkey_le_iff_fval] at hkeys
  constructor
  · intro h
    exact ⟨isFinite_of_inRange hlo hhi h, (hkeys.1 h).2⟩
  · rintro ⟨hfin, hbounds⟩
    exact hkeys.2 ⟨isNaN_of_isFinite hfin, hbounds⟩

theorem fval_nonneg_of_fsign {v : Word} (h : fsign v = false) : 0 ≤ fval v := by
  rw [fval_eq_fmag (.inl h)]; positivity

/-- Rounding a value no larger than that of a finite word gives a word no larger. -/
theorem rnd32_within {q : Rat} {v : Word} (hv : isFinite v = true) (h : |q| ≤ |fval v|) :
    isFinite (rnd32 q) = true ∧ |fval (rnd32 q)| ≤ |fval v| := by
  have hd : (0 : Rat) < q.den := by exact_mod_cast q.den_pos
  have hunits : q.num.natAbs * 2 ^ 149 ≤ fmag v * q.den := by
    rw [abs_fval, le_div_iff₀ (by positivity), abs_mul_units, div_le_iff₀ hd] at h
    exact_mod_cast h
  have hbits := roundMag_le_fbits q.den_pos hv hunits
  have hfin := (isFinite_iff_fbits (isNaN_of_isFinite hv)).1 hv
  rw [rnd32_eq, abs_fval, abs_fval, div_le_div_iff_of_pos_right (by positivity), Nat.cast_le]
  refine ⟨isFinite_signed _ (by omega), not_lt.1 fun hlt => ?_⟩
  rw [fmag_lt_iff, fbits_signed _ (by omega)] at hlt
  omega

theorem rnd32_zero : rnd32 0 = 0x00000000#32 := by decide

/-- A sum whose first word has sign 0 needs no case for an exact zero. -/
theorem fadd_eq_rnd32 {a b : Word} (ha : isFinite a = true) (hb : isFinite b = true) (hs : fsign a = false) :
    fadd a b = rnd32 (fval a + fval b) := by
  rw [fadd_of_finite ha hb]
  split
  · rfl
  · rename_i h
    rw [not_not.1 h, rnd32_zero, hs, Bool.false_and]
    rfl

/-- A factor of -1.0..1.0 does not make a word larger. -/
theorem fmul_within {a b : Word} (ha : isFinite a = true) (hb : isFinite b = true) (h : |fval b| ≤ 1) :
    isFinite (fmul a b) = true ∧ |fval (fmul a b)| ≤ |fval a| := by
  rw [fmul_of_finite ha hb]
  split
  · refine rnd32_within ha ?_
    rw [abs_mul]
    exact mul_le_of_le_one_right (abs_nonneg _) h
  · rw [fval_signed_zero, abs_zero]
    exact ⟨isFinite_signed _ (by norm_num), abs_nonneg _⟩

theorem fval_fmul_nonneg {a b : Word} (ha : isFinite a = true) (hb : isFinite b = true) (ha0 : 0 ≤ fval a)
    (hb0 : 0 ≤ fval b) : 0 ≤ fval (fmul a b) := by
  rw [fmul_of_finite ha hb]
  split
  · apply fval_nonneg_of_fsign
    rw [fsign_rnd32, decide_eq_false (mul_nonneg ha0 hb0).not_gt]
  · rw [fval_signed_zero]

/-! ### The waveforms -/

theorem fval_half : fval 0x3F000000#32 = 1 / 2 := by
  have hmag : fmag 0x3F000000#32 = 2 ^ 148 := by simp [fmag, fexp, ffrac]
  rw [fval_eq_fmag (.inl rfl), hmag]
  norm_num

theorem sinturn_bounded (cfg : Config) (p : Word) :
    isFinite (sinturn cfg p) = true ∧ |fval (sinturn cfg p)| ≤ 1 := by
  have hrange := (isSine_sinturn cfg p).range
  rw [inRange_iff_fval (by decide) (by decide), fval_negOne, show fval 0x3F800000#32 = 1 from fval_oneF] at hrange
  rwa [abs_le]

theorem wave_triangle (cfg : Config) (p : Word) :
    wave cfg .triangle p = rnd32 (|(p.toNat : Rat) - 2 ^ 31| / 2 ^ 31) := by
  have hunits : |(|(p.toNat : Rat) - 2 ^ 31| / 2 ^ 31)| * 2 ^ 149 =
      ((((p.toNat : Int) - 2 ^ 31).natAbs * unitsPerOne : Nat) : Rat) / (2 ^ 31 : Nat) := by
    rw [abs_of_nonneg (by positivity), Nat.cast_mul, unitsPerOne_cast, Nat.cast_natAbs, Int.cast_abs]
    push_cast; ring_nf
  rw [rnd32_eq_signed (by norm_num) hunits, decide_eq_false (not_lt.2 (by positivity))]
  rw [wave, rndUnits, Int.natAbs_natCast, decide_eq_false (not_lt.2 (Int.natCast_nonneg _))]

/-- Either waveform is a rational of 0..1, rounded once. -/
theorem wave_eq_rnd32 (cfg : Config) (typ : Waveform) (p : Word) : ∃ q, 0 ≤ q ∧ q ≤ 1 ∧ wave cfg typ p = rnd32 q := by
  cases typ with
  | sine =>
    obtain ⟨hfin, hle⟩ := sinturn_bounded cfg p
    obtain ⟨hmul, hbound⟩ := fmul_within (a := 0x3F000000#32) (by decide) hfin hle
    rw [fval_half, abs_of_pos (by norm_num : (0 : Rat) < 1 / 2), abs_le] at hbound
    obtain ⟨hlo, hhi⟩ := hbound
    refine ⟨_, ?_, ?_, fadd_eq_rnd32 (by decide) hmul (by decide)⟩
    · rw [fval_half]; linarith
    · rw [fval_half]; linarith
  | triangle =>
    have hp : (p.toNat : Rat) < 2 ^ 32 := by exact_mod_cast p.isLt
    refine ⟨_, by positivity, ?_, wave_triangle cfg p⟩
    have hp0 : (0 : Rat) ≤ p.toNat := Nat.cast_nonneg _
    rw [div_le_one (by norm_num), abs_le]
    constructor <;> linarith

theorem wave_bounded (cfg : Config) (typ : Waveform) (p : Word) :
    isFinite (wave cfg typ p) = true ∧ fsign (wave cfg typ p) = false ∧ |fval (wave cfg typ p)| ≤ 1 := by
  obtain ⟨q, h0, h1, heq⟩ := wave_eq_rnd32 cfg typ p
  have hle : |q| ≤ |fval oneF| := by rwa [fval_oneF, abs_one, abs_of_nonneg h0]
  obtain ⟨hfin, hbound⟩ := rnd32_within (v := oneF) (by decide) hle
  rw [fval_oneF, abs_one] at hbound
  rw [heq, fsign_rnd32]
  exact ⟨hfin, decide_eq_false h0.not_gt, hbound⟩

theorem wave_inRange (cfg : Config) (typ : Waveform) (p : Word) :
    inRange 0x00000000#32 0x3F800000#32 (wave cfg typ p) = true := by
  obtain ⟨hfin, hsign, hle⟩ := wave_bounded cfg typ p
  rw [inRange_iff_fval (by decide) (by decide), fval_zero, show fval 0x3F800000#32 = 1 from fval_oneF]
  exact ⟨hfin, fval_nonneg_of_fsign hsign, (le_abs_self _).trans hle⟩

/-- A cardinal phase of the sine is a sum of fixed words. -/
theorem wave_sine_of_sinturn {cfg : Config} {p w : Word} (h : sinturn cfg p = w) :
    wave cfg .sine p = fadd 0x3F000000#32 (fmul 0x3F000000#32 w) := by rw [wave, h]

/-- Settles O26: both waveforms round a rational of 0..1; the cardinal values are computed. -/
theorem waveformsStayInRange : Obligations.WaveformsStayInRange := by
  intro cfg
  obtain ⟨hzero, hquarter, hhalf, hthree⟩ := sinturn_cardinal cfg
  refine ⟨fun p => ⟨rfl, wave_triangle cfg p⟩, fun typ p => ?_, ?_, ?_, ?_, ?_, ?_, ?_, ?_, ?_⟩
  · obtain ⟨-, hsign, -⟩ := wave_bounded cfg typ p
    exact ⟨wave_inRange cfg typ p, hsign⟩
  · rw [wave_sine_of_sinturn hzero]; decide +kernel
  · rw [wave_sine_of_sinturn hquarter]; decide +kernel
  · rw [wave_sine_of_sinturn hhalf]; decide +kernel
  · rw [wave_sine_of_sinturn hthree]; decide +kernel
  all_goals rw [wave]; decide +kernel

/-! ### The commands -/

/-- The value of `LFO_NEXT` on one channel (`45_lfo.md` R188). -/
def lfoOut (cfg : Config) (O : LFOState) (P : Word) : Word :=
  fadd O.offsetRamp.cur (fmul O.depthRamp.cur (wave cfg O.typ P))

section Commands
variable {s : State} {u : Nat} {p : LFOParams} {O : LFOState} (hp : s.cfg.lfo[u]? = some p) (hO : s.lfos[u]? = some O)
include hp hO

theorem exec_lfoPrepare (fs : Word64) :
    exec (.lfoPrepare u fs) s = .next (complete (phaseStep O.fq (fsval s.cfg.fsMax fs)) 0#32
      (s.putLfo u { O with
        prepared := true, fs := fsval s.cfg.fsMax fs, K := phaseStep O.fq (fsval s.cfg.fsMax fs), P := 0#32
        depthRamp := rampPrep { O.depthRamp with tgt := ms2f O.depthMs (fsval s.cfg.fsMax fs) } p.depthTcMs
          (fsval s.cfg.fsMax fs)
        offsetRamp := rampPrep { O.offsetRamp with tgt := ms2f O.offsetMs (fsval s.cfg.fsMax fs) } p.offsetTcMs
          (fsval s.cfg.fsMax fs) })) :=
  onLfo_completes _ hp hO nofun

theorem exec_lfoSetType (typ : Waveform) :
    exec (.lfoSetType u typ) s = .next (complete 0#32 0#32 (s.putLfo u { O with typ := typ })) :=
  onLfo_completes _ hp hO nofun

theorem exec_lfoClear (hprep : O.prepared = true) :
    exec (.lfoClear u) s = .next (complete 0#32 0#32 (s.putLfo u { O with P := 0#32 })) :=
  onLfo_completes _ hp hO fun _ => hprep

theorem exec_lfoNext (hprep : O.prepared = true) (ch : Nat) :
    exec (.lfoNext u ch) s = .next (complete (lfoOut s.cfg O (channelPhase O.P 0))
      (if 2 ≤ ch then lfoOut s.cfg O (channelPhase O.P 1) else 0#32)
      (s.putLfo u { O with
        P := O.P + O.K, depthRamp := rampAdvance O.depthRamp, offsetRamp := rampAdvance O.offsetRamp })) := by
  have hrun : exec (.lfoNext u ch) s = _ := onLfo_completes _ hp hO fun _ => hprep
  have htwo : 1 < nchMax ch ↔ 2 ≤ ch := by
    have := nchMax_eq_two_iff ch
    have := nchMax_cases ch
    omega
  have hone : 0 < nchMax ch := by have := nchMax_cases ch; omega
  simp only [Chans.upTo, htwo, hone, if_true] at hrun
  exact hrun

theorem exec_lfoSetFreq (hz : Word) :
    exec (.lfoSetFreq u hz) s = .next (if O.prepared
      then complete (phaseStep (clampf hz 0#32 maxF) O.fs) 0#32
        (s.putLfo u { O with fq := clampf hz 0#32 maxF, K := phaseStep (clampf hz 0#32 maxF) O.fs })
      else complete 0#32 0#32 (s.putLfo u { O with fq := clampf hz 0#32 maxF })) := by
  have hrun : exec (.lfoSetFreq u hz) s = _ := onLfo_completes _ hp hO nofun
  rw [hrun]
  dsimp only
  split <;> dsimp only

theorem exec_lfoSetDepth (force : Bool) (ms : Word) :
    exec (.lfoSetDepth u force ms) s = .next (if O.prepared
      then complete (ms2f (clampf ms 0#32 maxF) O.fs) 0#32
        (s.putLfo u { O with
          depthMs := clampf ms 0#32 maxF
          depthRamp := rampSet O.depthRamp (ms2f (clampf ms 0#32 maxF) O.fs) force true })
      else complete 0#32 0#32 (s.putLfo u { O with depthMs := clampf ms 0#32 maxF })) := by
  have hrun : exec (.lfoSetDepth u force ms) s = _ := onLfo_completes _ hp hO nofun
  rw [hrun]
  dsimp only
  split <;> dsimp only

theorem exec_lfoSetOffset (force : Bool) (ms : Word) :
    exec (.lfoSetOffset u force ms) s = .next (if O.prepared
      then complete (ms2f (clampf ms 0#32 maxF) O.fs) 0#32
        (s.putLfo u { O with
          offsetMs := clampf ms 0#32 maxF
          offsetRamp := rampSet O.offsetRamp (ms2f (clampf ms 0#32 maxF) O.fs) force true })
      else complete 0#32 0#32 (s.putLfo u { O with offsetMs := clampf ms 0#32 maxF })) := by
  have hrun : exec (.lfoSetOffset u force ms) s = _ := onLfo_completes _ hp hO nofun
  rw [hrun]
  dsimp only
  split <;> dsimp only

end Commands

/-- Settles O47: both Ramps are snapped to targets derived from the settings. -/
theorem lfoPrepareCompletes : Obligations.LfoPrepareCompletes := by
  intro s u fs p O hp hO
  simp only [exec_lfoPrepare hp hO, rampPrep, complete_eq_answered, State.putLfo]

/-- Settles O48: the prepared bit alone decides whether a setting is also converted. -/
theorem lfoSettersComplete : Obligations.LfoSettersComplete := by
  intro s u force typ x p O hp hO
  rw [exec_lfoSetType hp hO, exec_lfoSetFreq hp hO, exec_lfoSetDepth hp hO, exec_lfoSetOffset hp hO]
  simp only [complete_eq_answered]
  refine ⟨rfl, fun hprep => ?_, fun hprep => ?_⟩ <;> rw [hprep] <;> exact ⟨rfl, rfl, rfl⟩

theorem channelPhase_zero (P : Word) : channelPhase P 0 = BitVec.ofNat 32 P.toNat := by
  simp [channelPhase]

/-- Channel 1 is a quarter turn ahead, modulo a turn. -/
theorem channelPhase_one (P : Word) : channelPhase P 1 = BitVec.ofNat 32 ((P.toNat + 2 ^ 30) % 2 ^ 32) := by
  unfold channelPhase
  bv_omega

/-- Settles O49: the phases as whole numbers modulo a turn. -/
theorem lfoClearAndNextComplete : Obligations.LfoClearAndNextComplete := by
  intro s u ch p O hp hO hprep
  have hadvance : O.P + O.K = BitVec.ofNat 32 ((O.P.toNat + O.K.toNat) % 2 ^ 32) := by bv_omega
  refine ⟨exec_lfoClear hp hO hprep, ?_⟩
  rw [exec_lfoNext hp hO hprep, channelPhase_zero, channelPhase_one, hadvance]
  rfl

/-! ### The sign of an output -/

/-- A word that is no NaN and not below +0.0 (`45_lfo.md` R189). -/
def NotNegative (w : Word) : Prop := isNaN w = false ∧ flt w 0x00000000#32 = false

theorem notNegative_iff {w : Word} : NotNegative w ↔ isNaN w = false ∧ 0 ≤ fkey w := by
  rw [NotNegative, and_congr_right_iff]
  intro hnan
  rw [flt_eq hnan (by decide), show fkey 0x00000000#32 = 0 by rfl, decide_eq_false_iff_not, not_lt]

theorem notNegative_zero : NotNegative 0x00000000#32 := by
  rw [notNegative_iff]; decide

theorem notNegative_fadd {a b : Word} (ha : isFinite a = true) (hb : isFinite b = true) (ha0 : 0 ≤ fval a)
    (hb0 : 0 ≤ fval b) : NotNegative (fadd a b) := by
  have hkey : ∀ v, 0 ≤ fval v → 0 ≤ fkey v := fun v hv => by
    rwa [← fval_zero, ← fkey_le_iff_fval, show fkey 0#32 = 0 by rfl] at hv
  rw [notNegative_iff]
  exact ⟨isNaN_fadd ha hb, (hkey a ha0).trans (fkey_le_fadd ha hb (hkey b hb0))⟩

/-- The value of a Ramp whose legal values are 0..MAXF. -/
theorem cur_of_within {R : Ramp} (h : R.within 0#32 maxF = true) : isFinite R.cur = true ∧ 0 ≤ fval R.cur := by
  rw [Ramp.within_iff (by decide) (by decide)] at h
  obtain ⟨hcur, -⟩ := h
  obtain ⟨hfin, hlo, -⟩ := (inRange_iff_fval (by decide) (by decide)).1 hcur
  rw [fval_zero] at hlo
  exact ⟨hfin, hlo⟩

theorem lfo_of_smoothed {s : State} {u : Nat} {O : LFOState} (h : s.smoothed = true) (hO : s.lfos[u]? = some O) :
    O.depthRamp.within 0#32 maxF = true ∧ O.offsetRamp.within 0#32 maxF = true := by
  simp only [State.smoothed, Bool.and_eq_true, List.all_eq_true] at h
  obtain ⟨-, hlfos⟩ := h
  exact hlfos O (List.mem_of_getElem? hO)

/-- Depth and offset are finite and not negative, and the wave lies in 0..1. -/
theorem notNegative_lfoOut (cfg : Config) {O : LFOState} (hdepth : O.depthRamp.within 0#32 maxF = true)
    (hoffset : O.offsetRamp.within 0#32 maxF = true) (P : Word) : NotNegative (lfoOut cfg O P) := by
  obtain ⟨hdfin, hd0⟩ := cur_of_within hdepth
  obtain ⟨hofin, ho0⟩ := cur_of_within hoffset
  obtain ⟨hwfin, hsign, hw1⟩ := wave_bounded cfg O.typ P
  obtain ⟨hmul, -⟩ := fmul_within hdfin hwfin hw1
  exact notNegative_fadd hofin hmul ho0 (fval_fmul_nonneg hdfin hwfin hd0 (fval_nonneg_of_fsign hsign))

/-- Settles O50: a unit with no parameters answers the zeros of a fault; any other answers outputs, and a zero for the
channel that a mono call leaves out. -/
theorem lfoOutputIsNeverNegative : Obligations.LfoOutputIsNeverNegative := by
  intro s t u ch O hsmooth hO hprep hexec
  obtain ⟨hdepth, hoffset⟩ := lfo_of_smoothed hsmooth hO
  have hout := notNegative_lfoOut s.cfg hdepth hoffset
  suffices h : ∃ r, t.rspQ = s.rspQ ++ [r] ∧ NotNegative r.r0 ∧ NotNegative r.r1 by
    obtain ⟨r, hr, ⟨hn0, hl0⟩, hn1, hl1⟩ := h
    exact ⟨r, hr, hn0, hl0, hn1, hl1⟩
  cases hp : s.cfg.lfo[u]? with
  | none =>
    have hfault : exec (.lfoNext u ch) s = _ :=
      runUnit_badUnit _ _ _ s (lookupUnit_none_of_le s.lfos (List.getElem?_eq_none_iff.1 hp))
    rw [hfault, Host.Outcome.next.injEq] at hexec
    subst hexec
    exact ⟨_, takeFault_rspQ _ _, notNegative_zero, notNegative_zero⟩
  | some p =>
    rw [exec_lfoNext hp hO hprep, Host.Outcome.next.injEq] at hexec
    subst hexec
    rw [complete_rspQ, putLfo_rspQ]
    refine ⟨_, rfl, hout (channelPhase O.P 0), ?_⟩
    dsimp only
    split
    · exact hout (channelPhase O.P 1)
    · exact notNegative_zero

end Sys2Proof.Lfo
end

section
/-! PROOFS. The commands of the GranularPitchShifter and its envelopes (`46_granular.md` R201 to R206). A legal ratio is a
whole number of 2^-25, so a read position counted in these units is the rational of the spec exactly, and so are its
remainder, its whole part and its fraction. -/

namespace Sys2Proof.Granular

-- As in `Sys2Proof/Tests/Slice0.lean`: a proof that waits for an earlier kernel evaluation would hold a thread of its own.
set_option Elab.async false

open Sys2Proof.Machine Sys2Proof.Claims Sys2Proof.Scope

/-! ### The pitch ratio -/

/-- The values 0.25..2.0 to which `GPS_SET_PITCH_RATIO` clamps (`46_granular.md` R202). -/
abbrev LegalRatio (r : Word) : Prop := inRange 0x3E800000#32 0x40000000#32 r = true

/-- A legal ratio is a positive word with a biased exponent of at least 125. -/
theorem fields_of_legalRatio {r : Word} (h : LegalRatio r) : fsign r = false ∧ 125 ≤ fexp r := by
  obtain ⟨-, hlo, -⟩ := (inRange_iff (by decide) (by decide)).1 h
  rw [show fkey 0x3E800000#32 = 0x3E800000 by rfl, fkey] at hlo
  have hfrac := ffrac_lt r
  have hbits := fbits_eq r
  cases hsign : fsign r
  · rw [hsign, if_neg Bool.false_ne_true] at hlo
    exact ⟨rfl, by omega⟩
  · rw [hsign, if_pos rfl] at hlo
    omega

/-- No bit of a legal ratio lies below 2^-25 (`10_state.md` R53). -/
theorem fmag_eq_ratio25 {r : Word} (h : LegalRatio r) : fmag r = ratio25 r * 2 ^ 124 := by
  obtain ⟨-, hexp⟩ := fields_of_legalRatio h
  obtain ⟨e, he⟩ := Nat.exists_eq_add_of_le hexp
  have hmag : fmag r = (2 ^ 23 + ffrac r) * 2 ^ e * 2 ^ 124 := by
    rw [fmag, if_neg (by omega), show fexp r - 1 = e + 124 by omega, pow_add, Nat.mul_assoc]
  rw [ratio25, hmag, Nat.mul_div_cancel _ (by positivity)]

theorem fval_eq_ratio25 {r : Word} (h : LegalRatio r) : fval r = (ratio25 r : Rat) / 2 ^ 25 := by
  rw [fval_eq_fmag (.inl (fields_of_legalRatio h).1), fmag_eq_ratio25 h]
  push_cast
  field_simp
  norm_num

/-- The bounds 0.25 and 2.0 in units of 2^-25. -/
theorem ratio25_mem {r : Word} (h : LegalRatio r) : 2 ^ 23 ≤ ratio25 r ∧ ratio25 r ≤ 2 ^ 26 := by
  obtain ⟨-, hlo, hhi⟩ := (Lfo.inRange_iff_fval (by decide) (by decide)).1 h
  have hquarter : ratio25 0x3E800000#32 = 2 ^ 23 := by simp [ratio25, fmag, fexp, ffrac]
  have htwo : ratio25 0x40000000#32 = 2 ^ 26 := by simp [ratio25, fmag, fexp, ffrac]
  rw [fval_eq_ratio25 h, fval_eq_ratio25 (by decide), div_le_div_iff_of_pos_right (by positivity)] at hlo hhi
  rw [← hquarter, ← htwo]
  exact ⟨by exact_mod_cast hlo, by exact_mod_cast hhi⟩

/-! ### Read positions -/

/-- A position reduced modulo the buffer, in units and in slots. -/
theorem slots_emod {N : Nat} (hN : 0 < N) (z : Int) :
    slots (z % ((N * 2 ^ 25 : Nat) : Int)).toNat = ratMod ((z : Rat) / 2 ^ 25) N := by
  have hpos : ((N * 2 ^ 25 : Nat) : Int) ≠ 0 := by positivity
  have hN' : (N : Rat) ≠ 0 := by positivity
  have hfloor : ⌊(z : Rat) / 2 ^ 25 / N⌋ = z / ((N * 2 ^ 25 : Nat) : Int) := by
    rw [← Rat.floor_intCast_div_natCast, div_div]
    push_cast
    norm_num [mul_comm (N : Rat)]
  have hcast : (((z % ((N * 2 ^ 25 : Nat) : Int)).toNat : Nat) : Rat) = ((z % ((N * 2 ^ 25 : Nat) : Int) : Int) : Rat) := by
    rw [← Int.cast_natCast, Int.toNat_of_nonneg (Int.emod_nonneg _ hpos)]
  rw [slots, ratMod, hfloor, hcast, Int.emod_def, Int.cast_sub, Int.cast_mul]
  push_cast
  ring

/-- The anchor of `46_granular.md` R205 as the rational of the spec. -/
theorem slots_anchor {G : GPSState} (hN : 0 < G.N) (hr : LegalRatio G.r) :
    slots (anchor G) = ratMod ((G.w : Rat) - 2 * G.H * fval G.r) G.N := by
  rw [anchor, slots_emod hN, fval_eq_ratio25 hr]
  congr 1
  push_cast
  ring

/-- The advance of step (5) of `46_granular.md` R204 as the rational of the spec. -/
theorem slots_advance {r : Word} {N : Nat} (hN : 0 < N) (hr : LegalRatio r) (q : Nat) :
    slots ((q + ratio25 r) % (N * 2 ^ 25)) = ratMod (slots q + fval r) N := by
  have hemod := slots_emod hN ((q + ratio25 r : Nat) : Int)
  rw [← Int.natCast_emod, Int.toNat_natCast] at hemod
  rw [hemod, fval_eq_ratio25 hr, slots]
  congr 1
  push_cast
  ring

theorem floor_slots (q : Nat) : ⌊slots q⌋ = ((q / 2 ^ 25 : Nat) : Int) := by
  have hcast : slots q = ((q : Nat) : Rat) / ((2 ^ 25 : Nat) : Rat) := by rw [slots]; norm_num
  rw [hcast, Rat.floor_natCast_div_natCast, Int.natCast_ediv]

/-- The fraction of a position, rounded once (`20_memory.md` R85). -/
theorem rnd32_fract_slots (q : Nat) :
    rnd32 (slots q - ⌊slots q⌋) = rndUnits ((q % 2 ^ 25 * 2 ^ 124 : Nat) : Int) 1 := by
  have hsplit : (q : Rat) = 2 ^ 25 * (q / 2 ^ 25 : Nat) + (q % 2 ^ 25 : Nat) := by
    exact_mod_cast (Nat.div_add_mod q (2 ^ 25)).symm
  have hfract : slots q - ⌊slots q⌋ = ((q % 2 ^ 25 : Nat) : Rat) / 2 ^ 25 := by
    rw [floor_slots, slots, Int.cast_natCast, hsplit]
    field_simp
    ring
  have hunits : |slots q - ⌊slots q⌋| * 2 ^ 149 = ((q % 2 ^ 25 * 2 ^ 124 : Nat) : Rat) / (1 : Nat) := by
    rw [hfract, abs_of_nonneg (by positivity)]
    push_cast
    field_simp
    norm_num
  have hnonneg : ¬ slots q - ⌊slots q⌋ < 0 := by
    rw [hfract]
    exact not_lt.2 (by positivity)
  rw [rnd32_eq_signed Nat.one_pos hunits, rndUnits, Int.natAbs_natCast, decide_eq_false hnonneg,
    decide_eq_false (Int.natCast_nonneg _).not_gt]

/-- The grain read of the model is the one of `20_memory.md` R85. -/
theorem grainRead_eq_grainWord (G : GPSState) (c q : Nat) : grainRead G c q = grainWord G.mem G.N c (slots q) := by
  rw [grainRead, grainWord, rnd32_fract_slots, floor_slots, Int.toNat_natCast]

/-! ### The parts of the step -/

section Start
variable (G : GPSState)

@[simp] theorem grainStart_w : (grainStart G).w = G.w := by unfold grainStart; split <;> rfl
@[simp] theorem grainStart_k : (grainStart G).k = G.k := by unfold grainStart; split <;> rfl
@[simp] theorem grainStart_N : (grainStart G).N = G.N := by unfold grainStart; split <;> rfl
@[simp] theorem grainStart_H : (grainStart G).H = G.H := by unfold grainStart; split <;> rfl
@[simp] theorem grainStart_mem : (grainStart G).mem = G.mem := by unfold grainStart; split <;> rfl

theorem grainStart_r : (grainStart G).r = if G.k = 0 then G.rSet else G.r := by unfold grainStart; split <;> rfl

theorem grainStart_ng : (grainStart G).ng = if G.k = 0 then !G.ng else G.ng := by unfold grainStart; split <;> rfl

/-- Only the start of a half-grain moves the new grain, to the anchor of the ratio it latches. -/
theorem grainPos_grainStart_new : grainPos (grainStart G).rp (grainStart G).ng =
    if G.k = 0 then anchor { G with r := (grainStart G).r } else grainPos G.rp (grainStart G).ng := by
  unfold grainStart
  split
  · cases G.ng <;> rfl
  · rfl

/-- The start of a half-grain leaves the grain that is then the old one where it is. -/
theorem grainPos_grainStart_old : grainPos (grainStart G).rp (!(grainStart G).ng) = grainPos G.rp (!(grainStart G).ng) := by
  unfold grainStart
  split
  · cases G.ng <;> rfl
  · rfl

theorem grainPos_grainAdvance (g : Bool) :
    grainPos (grainAdvance G).rp g = (grainPos G.rp g + ratio25 G.r) % (G.N * 2 ^ 25) := by
  cases g <;> rfl

/-- What a step changes (`46_granular.md` R204 (2) and (5)). -/
theorem grainAdvance_grainStart_eq : grainAdvance (grainStart G) =
    { G with
      r := if G.k = 0 then G.rSet else G.r
      ng := if G.k = 0 then !G.ng else G.ng
      rp := (grainAdvance (grainStart G)).rp
      w := (G.w + 1) % G.N
      k := (G.k + 1) % G.H } := by
  unfold grainStart
  split <;> rfl

end Start

/-! ### A prepared unit in its legal ranges -/

/-- The ranges of `10_state.md` R54, which a prepared unit keeps. -/
structure Ranges (depth : Nat) (G : GPSState) : Prop where
  mem : Memory.wf depth G.mem = true
  rSet : LegalRatio G.rSet
  r : LegalRatio G.r
  nch : 1 ≤ G.nch
  N : 17 ≤ G.N
  N_le : G.N ≤ depth
  H : 4 ≤ G.H
  H_le : 4 * G.H ≤ G.N - 1
  w : G.w < G.N
  k : G.k < G.H

theorem ranges_of_wf {fsMax : Rat} {p : GPSParams} {G : GPSState} (hprep : G.prepared = true)
    (hwf : GPSState.wf fsMax p G = true) : Ranges p.depth G := by
  obtain ⟨hmem, hset, hranges⟩ := GPSState.wf_iff.1 hwf
  obtain ⟨-, hcount, hN, hdepth, hH, hle, hw, hk, hr, -⟩ := hranges hprep
  have hnch : G.nch = 1 ∨ G.nch = 2 := by simpa [legalCount] using hcount
  exact ⟨hmem, hset, hr, by omega, hN, hdepth, hH, by omega, hw, hk⟩

/-! ### PREPARE, SET_PITCH_RATIO and CLEAR -/

/-- A restart anchors both grains with the requested ratio (`46_granular.md` R201, R203). -/
theorem anchored_grainRestart {G : GPSState} (hN : 0 < G.N) (hr : LegalRatio G.rSet) : anchored (grainRestart G) :=
  ⟨slots_anchor (G := { G with r := G.rSet }) hN hr, slots_anchor (G := { G with r := G.rSet }) hN hr⟩

/-- The record that `GPS_PREPARE` sizes before it restarts the grains (`46_granular.md` R201). -/
def sized (G : GPSState) (p : GPSParams) (rate : Rat) (ch : Nat) (ms : Word) : GPSState :=
  { G with
    prepared := true
    fs := rate
    nch := clampN ch 1 2
    N := clampN (secondOf rate) 17 p.depth
    H := clampN (halfGrainOf (clampf ms 0#32 maxF) rate) 4 ((clampN (secondOf rate) 17 p.depth - 1) / 4)
    w := 0 }

/-- The unit once the inputs of a step are written, before its half-grain starts (`46_granular.md` R204 (1)). -/
def written (G : GPSState) (n : Nat) (x : Chans Word) : GPSState := { G with mem := memWrite G.mem n G.w x }

section Commands
variable {s : State} {u : Nat} {p : GPSParams} {G : GPSState} (hp : s.cfg.gps[u]? = some p) (hG : s.gpss[u]? = some G)
include hp hG

/-- A buffer of at least 17 slots leaves a half-grain of 4 steps room, so that both clamps have bounds in order. -/
theorem exec_gpsPrepare (hdepth : 17 ≤ p.depth) (ch : Nat) (fs : Word64) (ms : Word) :
    exec (.gpsPrepare u ch fs ms) s =
      .next (complete (BitVec.ofNat 32 (sized G p (fsval s.cfg.fsMax fs) ch ms).N)
        (BitVec.ofNat 32 (sized G p (fsval s.cfg.fsMax fs) ch ms).H)
        (s.putGps u (grainRestart (sized G p (fsval s.cfg.fsMax fs) ch ms)))) := by
  have hrun : exec (.gpsPrepare u ch fs ms) s = _ := onGps_completes _ hp hG nofun
  have hN : clampu (secondOf (fsval s.cfg.fsMax fs)) 17 p.depth = clampN (secondOf (fsval s.cfg.fsMax fs)) 17 p.depth :=
    clampu_eq_min_max hdepth
  have hfour : 4 ≤ (clampN (secondOf (fsval s.cfg.fsMax fs)) 17 p.depth - 1) / 4 := by
    unfold clampN; omega
  dsimp only at hrun
  rw [hN, clampu_eq_min_max hfour, Delay.nchMax_eq_clampN] at hrun
  exact hrun

theorem exec_gpsSetPitchRatio (x : Word) :
    exec (.gpsSetPitchRatio u x) s = .next (complete (clampf x 0x3E800000#32 0x40000000#32) 0#32
      (s.putGps u { G with rSet := clampf x 0x3E800000#32 0x40000000#32 })) :=
  onGps_completes _ hp hG nofun

theorem exec_gpsClear (hprep : G.prepared = true) :
    exec (.gpsClear u) s = .next (complete 0#32 0#32 (s.putGps u (grainRestart G))) :=
  onGps_completes _ hp hG fun _ => hprep

theorem exec_gpsProcess (hprep : G.prepared = true) (ch : Nat) (x : Chans Word) :
    exec (.gpsProcess u ch x.c0 x.c1) s = .next (complete
      (if 0 < nchan ch G.nch then grainMix s.cfg (grainStart (written G (nchan ch G.nch) x)) 0 else 0#32)
      (if 1 < nchan ch G.nch then grainMix s.cfg (grainStart (written G (nchan ch G.nch) x)) 1 else 0#32)
      (s.putGps u (grainAdvance (grainStart (written G (nchan ch G.nch) x))))) :=
  onGps_completes _ hp hG fun _ => hprep

end Commands

/-- Settles O51: the unit becomes the sized record with its grains restarted. -/
theorem granularPrepareCompletes : Obligations.GranularPrepareCompletes := by
  intro s u ch fs ms p G hp hG hdepth hr
  have hN : 0 < (sized G p (fsval s.cfg.fsMax fs) ch ms).N := by
    show 0 < clampN _ 17 p.depth
    unfold clampN; omega
  exact ⟨grainRestart (sized G p (fsval s.cfg.fsMax fs) ch ms), Delay.cleared_memClear, memClear_wf p.depth,
    anchored_grainRestart hN hr, rfl, exec_gpsPrepare hp hG hdepth ch fs ms⟩

/-- Settles O52: a clear is a restart of the grains, whose anchors need a legal requested ratio. -/
theorem granularSetAndClearComplete : Obligations.GranularSetAndClearComplete := by
  intro s u x p G hp hG
  refine ⟨exec_gpsSetPitchRatio hp hG x, fun hprep hwf => ?_⟩
  have h := ranges_of_wf hprep hwf
  exact ⟨grainRestart G, Delay.cleared_memClear, memClear_wf p.depth,
    anchored_grainRestart (Nat.zero_lt_of_lt h.w) h.rSet, rfl, exec_gpsClear hp hG hprep⟩

/-! ### PROCESS -/

theorem envelopePhase_add_quarter (G : GPSState) :
    envelopePhase G + 0x40000000#32 = BitVec.ofNat 32 (G.k * 2 ^ 30 / G.H + 2 ^ 30) := by
  rw [envelopePhase, BitVec.ofNat_add]
  rfl

theorem grainPos_not (rp : Chans Nat) (g : Bool) : grainPos rp (!g) = if g then rp.c0 else rp.c1 := by cases g <;> rfl

/-- The ratio in force during a step is legal. -/
theorem legalRatio_grainStart {depth : Nat} {G : GPSState} (h : Ranges depth G) : LegalRatio (grainStart G).r := by
  rw [grainStart_r]
  split
  · exact h.rSet
  · exact h.r

/-- Where the new grain reads, in slots. -/
theorem slots_grainStart_new {depth : Nat} {G : GPSState} (h : Ranges depth G) :
    slots (grainPos (grainStart G).rp (grainStart G).ng) =
      if G.k = 0 then ratMod ((G.w : Rat) - 2 * G.H * fval (grainStart G).r) G.N
      else slots (grainPos G.rp (grainStart G).ng) := by
  rw [grainPos_grainStart_new, apply_ite slots,
    slots_anchor (G := { G with r := (grainStart G).r }) (Nat.zero_lt_of_lt h.w) (legalRatio_grainStart h)]

/-- Both grains advance by the ratio in force (`46_granular.md` R204 (5)). -/
theorem slots_grainAdvance {depth : Nat} {G : GPSState} (h : Ranges depth G) (g : Bool) :
    slots (grainPos (grainAdvance (grainStart G)).rp g) =
      ratMod (slots (grainPos (grainStart G).rp g) + fval (grainStart G).r) G.N := by
  have hN : 0 < (grainStart G).N := by rw [grainStart_N]; exact Nat.zero_lt_of_lt h.w
  rw [grainPos_grainAdvance, slots_advance hN (legalRatio_grainStart h), grainStart_N]

/-- The mix of a channel: both grains read and weighted (`46_granular.md` R204 (3) and (4)). -/
theorem grainMix_grainStart {depth : Nat} {G : GPSState} (h : Ranges depth G) (cfg : Config) (c : Nat) :
    grainMix cfg (grainStart G) c =
      fadd (fmul (sinturn cfg (BitVec.ofNat 32 (G.k * 2 ^ 30 / G.H + 2 ^ 30)))
          (grainWord G.mem G.N c (slots (grainPos G.rp (!(grainStart G).ng)))))
        (fmul (sinturn cfg (BitVec.ofNat 32 (G.k * 2 ^ 30 / G.H)))
          (grainWord G.mem G.N c
            (if G.k = 0 then ratMod ((G.w : Rat) - 2 * G.H * fval (grainStart G).r) G.N
              else slots (grainPos G.rp (grainStart G).ng)))) := by
  rw [grainMix, envelopePhase_add_quarter, envelopePhase, grainRead_eq_grainWord, grainRead_eq_grainWord,
    slots_grainStart_new h, grainPos_grainStart_old, grainStart_k, grainStart_H, grainStart_mem, grainStart_N]

theorem ranges_written {depth : Nat} {G : GPSState} (h : Ranges depth G) (n : Nat) (x : Chans Word) :
    Ranges depth (written G n x) :=
  ⟨memWrite_wf h.mem n (h.w.trans_le h.N_le) x, h.rSet, h.r, h.nch, h.N, h.N_le, h.H, h.H_le, h.w, h.k⟩

theorem storedAt_written {depth : Nat} {G : GPSState} (h : Ranges depth G) (n : Nat) (x : Chans Word) :
    storedAt depth G.mem (written G n x).mem n G.w (pick x.c0 x.c1) :=
  ⟨(ranges_written h n x).mem, fun _ j hc => memRead_memWrite h.mem n G.w x hc j⟩

/-- Settles O53: the new grain starts from its anchor at the start of a half-grain, and each from where it was otherwise. -/
theorem granularProcessCompletes : Obligations.GranularProcessCompletes := by
  intro s u ch in0 in1 p G hp hG hprep hwf
  have h := ranges_of_wf hprep hwf
  obtain ⟨hn, -⟩ := nchan_mem (ch := ch) h.nch
  have hstep : exec (.gpsProcess u ch in0 in1) s = _ := exec_gpsProcess hp hG hprep ch ⟨in0, in1⟩
  have hstored := storedAt_written h (nchan ch G.nch) ⟨in0, in1⟩
  have h' := ranges_written h (nchan ch G.nch) ⟨in0, in1⟩
  rw [if_pos (show 0 < _ from hn)] at hstep
  rw [← Delay.nchan_eq_clampN ch h.nch]
  have hnew := slots_grainAdvance h' (grainStart (written G (nchan ch G.nch) ⟨in0, in1⟩)).ng
  have hold := slots_grainAdvance h' (!(grainStart (written G (nchan ch G.nch) ⟨in0, in1⟩)).ng)
  rw [slots_grainStart_new h', grainStart_r, grainStart_ng] at hnew
  rw [grainPos_grainStart_old, grainPos_not, grainPos_not, grainStart_r, grainStart_ng] at hold
  rw [grainMix_grainStart h', grainMix_grainStart h', grainPos_not, grainAdvance_grainStart_eq, grainStart_r,
    grainStart_ng] at hstep
  exact ⟨_, _, hstored, hnew, hold, hstep⟩

/-! ### The envelopes -/

theorem toNat_envelopePhase_lt {G : GPSState} (hk : G.k < G.H) : (envelopePhase G).toNat < 2 ^ 30 := by
  have hlt : G.k * 2 ^ 30 / G.H < 2 ^ 30 :=
    (Nat.div_lt_iff_lt_mul (Nat.zero_lt_of_lt hk)).2 (by rw [Nat.mul_comm]; gcongr)
  rw [envelopePhase, BitVec.toNat_ofNat]
  exact (Nat.mod_le _ _).trans_lt hlt

/-- In the first half turn the generator's values lie in +0.0..1.0 (`45_lfo.md` R181 (b), (e)). -/
theorem sinturn_inRange_of_firstHalf (cfg : Config) {p : Word} (hp : p.toNat ≤ 2 ^ 31) :
    inRange 0x00000000#32 0x3F800000#32 (sinturn cfg p) = true := by
  have hsine := Lfo.isSine_sinturn cfg p
  have hrange := hsine.range
  have hnonneg := hsine.firstHalf hp
  simp only [inRange, Bool.and_eq_true, Bool.not_eq_true'] at hrange ⊢
  obtain ⟨⟨hnan, -⟩, hhi⟩ := hrange
  exact ⟨⟨hnan, hnonneg⟩, hhi⟩

/-- Settles O54: the phase stays below a quarter turn, so that both weights are read in the first half turn. -/
theorem envelopeWeightsStayInRange : Obligations.EnvelopeWeightsStayInRange := by
  intro cfg p G hprep hwf
  have hphase := toNat_envelopePhase_lt (ranges_of_wf hprep hwf).k
  refine ⟨hphase, sinturn_inRange_of_firstHalf cfg (by omega), sinturn_inRange_of_firstHalf cfg (by bv_omega),
    fun hk => ?_⟩
  obtain ⟨hzero, hquarter, -⟩ := Lfo.sinturn_cardinal cfg
  have hstart : envelopePhase G = 0x00000000#32 := by simp [envelopePhase, hk]
  rw [hstart]
  exact ⟨hzero, hquarter⟩

end Sys2Proof.Granular
end

section
/-! PROOFS. The delays of the grains behind the write index (`46_granular.md` R205 to R208). A step adds `1 - r` to both,
modulo the buffer; a grain anchored `k` steps ago at the ratio in force stands at `2H·r + k·(1 - r)`, which never leaves
`H/2 .. 4H`, so the remainder never wraps. -/

namespace Sys2Proof.Granular

-- As in `Sys2Proof/Tests/Slice0.lean`: a proof that waits for an earlier kernel evaluation would hold a thread of its own.
set_option Elab.async false

open Sys2Proof.Machine Sys2Proof.Claims

/-! ### Delays through a step -/

/-- The buffer's length in units of 2^-25 slot. -/
abbrev span (G : GPSState) : Int := ((G.N * 2 ^ 25 : Nat) : Int)

theorem grainDelay_grainAdvance (G : GPSState) (g : Bool) :
    grainDelay (grainAdvance G) g = (grainDelay G g + (2 ^ 25 - (ratio25 G.r : Int))) % span G := by
  have hw : ((((G.w + 1) % G.N * 2 ^ 25 : Nat) : Int)) = (((G.w + 1) * 2 ^ 25 : Nat) : Int) % span G := by
    rw [← Int.natCast_emod, Nat.mul_mod_mul_right]
  have hsum : (((G.w + 1) * 2 ^ 25 : Nat) : Int) - ((grainPos G.rp g + ratio25 G.r : Nat) : Int) =
      (((G.w * 2 ^ 25 : Nat) : Int) - (grainPos G.rp g : Int)) + (2 ^ 25 - (ratio25 G.r : Int)) := by
    push_cast; ring
  rw [grainDelay, grainPos_grainAdvance, Int.natCast_emod]
  show ((((G.w + 1) % G.N * 2 ^ 25 : Nat) : Int) - _ % span G) % span G = _
  rw [hw, ← Int.sub_emod, hsum, grainDelay, Int.emod_add_emod]

/-- A grain at its anchor stands `2H·r` behind the write index, modulo the buffer (`46_granular.md` R205). -/
theorem delay_anchor {G : GPSState} (hN : 0 < G.N) :
    (((G.w * 2 ^ 25 : Nat) : Int) - (anchor G : Int)) % span G = (2 * (G.H : Int) * ratio25 G.r) % span G := by
  have hspan : span G ≠ 0 := by unfold span; positivity
  rw [anchor, Int.toNat_of_nonneg (Int.emod_nonneg _ hspan), Int.sub_emod_emod]
  congr 1
  push_cast
  ring

/-- The start of a half-grain puts the new grain at its anchor, with the ratio it latches. -/
theorem grainDelay_grainStart_new {G : GPSState} (hN : 0 < G.N) : grainDelay (grainStart G) (grainStart G).ng =
    if G.k = 0 then (2 * (G.H : Int) * ratio25 (grainStart G).r) % span G else grainDelay G (grainStart G).ng := by
  rw [grainDelay, grainPos_grainStart_new, grainStart_w, grainStart_N]
  split
  · exact delay_anchor (G := { G with r := (grainStart G).r }) hN
  · rfl

theorem grainDelay_grainStart_old (G : GPSState) :
    grainDelay (grainStart G) (!(grainStart G).ng) = grainDelay G (!(grainStart G).ng) := by
  rw [grainDelay, grainPos_grainStart_old, grainStart_w, grainStart_N, grainDelay]

/-! ### The bounds of R208 and placed grains -/

theorem grainReadSafe_iff {G : GPSState} {g : Bool} : grainReadSafe G g = true ↔
    2 * 2 ^ 25 ≤ grainDelay G g ∧ grainDelay G g ≤ 4 * (G.H : Int) * 2 ^ 25 := by
  simp only [grainReadSafe, Bool.and_eq_true, decide_eq_true_eq]

/-- How far the steps of a half-grain so far have moved a grain from the write index, `k·(1 - r)`. -/
def drift (S : GPSState) : Int := (S.k : Int) * (2 ^ 25 - (ratio25 S.r : Int))

/-- The delay of a grain `k` steps after it was anchored at the ratio in force, `2H·r + k·(1 - r)`. -/
def nominalDelay (S : GPSState) (k : Nat) : Int :=
  2 * (S.H : Int) * ratio25 S.r + (k : Int) * (2 ^ 25 - (ratio25 S.r : Int))

/-- At the start of a half-grain only the grain about to become the old one has a place to keep. -/
theorem grainsPlaced_of_start {G : GPSState} (hk : G.k = 0) : grainsPlaced G = true ↔
    5 * (G.H : Int) * 2 ^ 25 ≤ 4 * grainDelay G G.ng ∧ grainDelay G G.ng ≤ 3 * (G.H : Int) * 2 ^ 25 := by
  simp [grainsPlaced, hk]

theorem grainsPlaced_of_running {G : GPSState} (hk : G.k ≠ 0) : grainsPlaced G = true ↔
    (5 * (G.H : Int) * 2 ^ 25 ≤ 4 * (grainDelay G (!G.ng) - drift G) ∧
      grainDelay G (!G.ng) - drift G ≤ 3 * (G.H : Int) * 2 ^ 25) ∧ grainDelay G G.ng = nominalDelay G G.k := by
  simp [grainsPlaced, hk, drift, nominalDelay]

/-! ### A grain played at the ratio it was anchored with -/

/-- The ranges during a step of a half-grain, when the ratio in force is latched. -/
structure InForce (S : GPSState) : Prop where
  H : 4 ≤ S.H
  fits : 4 * S.H < S.N
  k : S.k < S.H
  r : LegalRatio S.r

theorem inForce_grainStart {depth : Nat} {G : GPSState} (h : Ranges depth G) : InForce (grainStart G) := by
  have hle := h.H_le
  have hN := h.N
  refine ⟨?_, ?_, ?_, legalRatio_grainStart h⟩
  · rw [grainStart_H]; exact h.H
  · rw [grainStart_H, grainStart_N]; omega
  · rw [grainStart_k, grainStart_H]; exact h.k

theorem inForce_grainAdvance {S : GPSState} (h : InForce S) : InForce (grainAdvance S) :=
  ⟨h.H, h.fits, Nat.mod_lt _ (Nat.zero_lt_of_lt h.k), h.r⟩

section InForce
variable {S : GPSState} (h : InForce S)
include h

theorem drift_mem : -((S.k : Int) * 2 ^ 25) ≤ drift S ∧ 4 * drift S ≤ 3 * (S.k : Int) * 2 ^ 25 := by
  obtain ⟨hlo, hhi⟩ := ratio25_mem h.r
  zify at hlo hhi
  have hk : (0 : Int) ≤ S.k := Int.natCast_nonneg _
  unfold drift
  constructor
  · linarith [mul_le_mul_of_nonneg_left hhi hk]
  · linarith [mul_le_mul_of_nonneg_left hlo hk]

/-- The proof sketch of `46_granular.md` R208: from `2H·r` towards `H·(1 + r)`, all in `H/2 .. 4H`. -/
theorem nominalDelay_mem {k : Nat} (hk : k ≤ S.H) :
    (S.H : Int) * 2 ^ 24 ≤ nominalDelay S k ∧ nominalDelay S k ≤ 4 * (S.H : Int) * 2 ^ 25 := by
  obtain ⟨hlo, hhi⟩ := ratio25_mem h.r
  zify at hlo hhi hk
  have hleft : (0 : Int) ≤ 2 * S.H - k := by omega
  unfold nominalDelay
  constructor
  · linarith [mul_le_mul_of_nonneg_left hlo hleft]
  · linarith [mul_le_mul_of_nonneg_left hhi hleft]

/-- The end of a half-grain finds the grain at `H·(1 + r)`, in `1.25H .. 3H`. -/
theorem nominalDelay_last_mem :
    5 * (S.H : Int) * 2 ^ 25 ≤ 4 * nominalDelay S S.H ∧ nominalDelay S S.H ≤ 3 * (S.H : Int) * 2 ^ 25 := by
  obtain ⟨hlo, hhi⟩ := ratio25_mem h.r
  zify at hlo hhi
  have hH : (0 : Int) ≤ S.H := Int.natCast_nonneg _
  unfold nominalDelay
  constructor
  · linarith [mul_le_mul_of_nonneg_left hlo hH]
  · linarith [mul_le_mul_of_nonneg_left hhi hH]

/-- A delay of at most `4H` is its own remainder, since `4H` is less than the buffer. -/
theorem emod_span_of_le {d : Int} (h0 : 0 ≤ d) (hle : d ≤ 4 * (S.H : Int) * 2 ^ 25) : d % span S = d := by
  have hfits := h.fits
  refine Int.emod_eq_of_lt h0 ?_
  unfold span
  omega

theorem nominalDelay_emod {k : Nat} (hk : k ≤ S.H) : nominalDelay S k % span S = nominalDelay S k := by
  obtain ⟨hlo, hhi⟩ := nominalDelay_mem h hk
  exact emod_span_of_le h (by omega) hhi

theorem grainReadSafe_of_nominal {g : Bool} (hg : grainDelay S g = nominalDelay S S.k) : grainReadSafe S g = true := by
  obtain ⟨hlo, hhi⟩ := nominalDelay_mem h h.k.le
  have hH := h.H
  rw [grainReadSafe_iff, hg]
  exact ⟨by omega, hhi⟩

/-- A step takes a grain from its place of step `k` to that of step `k + 1`. -/
theorem grainDelay_grainAdvance_of_nominal {g : Bool} (hg : grainDelay S g = nominalDelay S S.k) :
    grainDelay (grainAdvance S) g = nominalDelay S (S.k + 1) := by
  have hsucc : nominalDelay S S.k + (2 ^ 25 - (ratio25 S.r : Int)) = nominalDelay S (S.k + 1) := by
    unfold nominalDelay; push_cast; ring
  rw [grainDelay_grainAdvance, hg, hsucc, nominalDelay_emod h h.k]

/-- Within a half-grain the grain is again where the counters say. -/
theorem nominal_grainAdvance (hk : S.k + 1 < S.H) {g : Bool} (hg : grainDelay S g = nominalDelay S S.k) :
    grainDelay (grainAdvance S) g = nominalDelay (grainAdvance S) (grainAdvance S).k := by
  have hnext : (grainAdvance S).k = S.k + 1 := Nat.mod_eq_of_lt hk
  rw [grainDelay_grainAdvance_of_nominal h hg, hnext]
  rfl

/-- At the end of a half-grain the new grain is about to become a placed old one. -/
theorem grainsPlaced_grainAdvance_of_last (hk : S.k + 1 = S.H) (hg : grainDelay S S.ng = nominalDelay S S.k) :
    grainsPlaced (grainAdvance S) = true := by
  have hnext : (grainAdvance S).k = 0 := by
    show (S.k + 1) % S.H = 0
    rw [hk, Nat.mod_self]
  have hlast := nominalDelay_last_mem h
  have hdelay : grainDelay (grainAdvance S) (grainAdvance S).ng = nominalDelay S S.H := by
    rw [← hk]
    exact grainDelay_grainAdvance_of_nominal h hg
  rw [grainsPlaced_of_start hnext, hdelay]
  exact hlast

end InForce

/-- The new grain of a half-grain is where the counters say after its start. -/
theorem nominal_grainStart_of_start {depth : Nat} {G : GPSState} (h : Ranges depth G) (hk : G.k = 0) :
    grainDelay (grainStart G) (grainStart G).ng = nominalDelay (grainStart G) (grainStart G).k := by
  have hemod := nominalDelay_emod (inForce_grainStart h) (Nat.zero_le _)
  rw [grainDelay_grainStart_new (Nat.zero_lt_of_lt h.w), if_pos hk, grainStart_k, hk, ← hemod]
  simp [nominalDelay, span]

theorem grainStart_of_running {G : GPSState} (hk : G.k ≠ 0) : grainStart G = G := if_neg hk

/-! ### From PREPARE or CLEAR to placed grains -/

/-- During a step the new grain is where the counters say. -/
structure HalfGrain (S : GPSState) : Prop where
  inForce : InForce S
  new : grainDelay S S.ng = nominalDelay S S.k

theorem halfGrain_grainStart {depth : Nat} {G : GPSState} (h : Ranges depth G) (hk : G.k = 0) :
    HalfGrain (grainStart G) := ⟨inForce_grainStart h, nominal_grainStart_of_start h hk⟩

theorem halfGrain_grainAdvance {S : GPSState} (h : HalfGrain S) (hk : S.k + 1 < S.H) : HalfGrain (grainAdvance S) :=
  ⟨inForce_grainAdvance h.inForce, nominal_grainAdvance h.inForce hk h.new⟩

/-- Every step of the half-grain that starts at `G` finds the new grain where the counters say. -/
theorem halfGrain_iterate_grainTurn {depth : Nat} {G : GPSState} (h : Ranges depth G) (hk : G.k = 0) {j : Nat}
    (hj : j < G.H) : (grainStart (grainTurn^[j] G)).H = G.H ∧ (grainStart (grainTurn^[j] G)).k = j ∧
      HalfGrain (grainStart (grainTurn^[j] G)) := by
  induction j with
  | zero => exact ⟨grainStart_H G, (grainStart_k G).trans hk, halfGrain_grainStart h hk⟩
  | succ j ih =>
    obtain ⟨hH, hkj, hhalf⟩ := ih (by omega)
    rw [Function.iterate_succ_apply', grainTurn]
    generalize grainStart (grainTurn^[j] G) = S at *
    have hlt : S.k + 1 < S.H := by omega
    have hnext : (grainAdvance S).k = S.k + 1 := Nat.mod_eq_of_lt hlt
    rw [grainStart_of_running (by omega)]
    exact ⟨hH, by omega, halfGrain_grainAdvance hhalf hlt⟩

theorem grainsPlaced_iterate_grainTurn {depth : Nat} {G : GPSState} (h : Ranges depth G) (hk : G.k = 0) :
    grainsPlaced (grainTurn^[G.H] G) = true := by
  obtain ⟨m, hm⟩ := Nat.exists_eq_add_of_lt h.k
  rw [hk, Nat.zero_add] at hm
  obtain ⟨hH, hkm, hforce, hnew⟩ := halfGrain_iterate_grainTurn h hk (j := m) (by omega)
  rw [hm, Function.iterate_succ_apply', grainTurn]
  exact grainsPlaced_grainAdvance_of_last hforce (by omega) hnew

/-! ### Placed grains -/

/-- During a step from placed grains the old grain, too, has its place: within `1.25H .. 3H` when its second half-grain
started. -/
structure Sounding (S : GPSState) : Prop extends HalfGrain S where
  old_lo : 5 * (S.H : Int) * 2 ^ 25 ≤ 4 * (grainDelay S (!S.ng) - drift S)
  old_hi : grainDelay S (!S.ng) - drift S ≤ 3 * (S.H : Int) * 2 ^ 25

theorem sounding_grainStart {depth : Nat} {G : GPSState} (h : Ranges depth G) (hplaced : grainsPlaced G = true) :
    Sounding (grainStart G) := by
  have hforce := inForce_grainStart h
  by_cases hk : G.k = 0
  · have hng : (!(grainStart G).ng) = G.ng := by rw [grainStart_ng, if_pos hk, Bool.not_not]
    have hdrift : drift (grainStart G) = 0 := by simp [drift, hk]
    have hold := grainDelay_grainStart_old G
    obtain ⟨hlo, hhi⟩ := (grainsPlaced_of_start hk).1 hplaced
    rw [hng] at hold
    exact ⟨halfGrain_grainStart h hk, by rwa [hng, hdrift, hold, grainStart_H, sub_zero],
      by rwa [hng, hdrift, hold, grainStart_H, sub_zero]⟩
  · rw [grainStart_of_running hk] at hforce ⊢
    obtain ⟨⟨hlo, hhi⟩, hnew⟩ := (grainsPlaced_of_running hk).1 hplaced
    exact ⟨⟨hforce, hnew⟩, hlo, hhi⟩

/-- The old grain keeps within `H/4 + 1 .. 4H` through its second half-grain, whatever its ratio. -/
theorem grainReadSafe_of_sounding {S : GPSState} (h : Sounding S) (g : Bool) : grainReadSafe S g = true := by
  obtain ⟨⟨hforce, hnew⟩, hlo, hhi⟩ := h
  by_cases hg : g = S.ng
  · rw [hg]
    exact grainReadSafe_of_nominal hforce hnew
  · obtain ⟨hdlo, hdhi⟩ := drift_mem hforce
    obtain ⟨hH, -, hk, -⟩ := hforce
    rw [Bool.eq_not_of_ne hg, grainReadSafe_iff]
    constructor <;> omega

theorem grainsPlaced_of_sounding {S : GPSState} (h : Sounding S) : grainsPlaced (grainAdvance S) = true := by
  obtain ⟨⟨hforce, hnew⟩, hlo, hhi⟩ := h
  obtain ⟨hdlo, hdhi⟩ := drift_mem hforce
  rcases Nat.lt_or_eq_of_le hforce.k with hlt | hlast
  · have hnext : (grainAdvance S).k = S.k + 1 := Nat.mod_eq_of_lt hlt
    have hdrift : drift (grainAdvance S) = drift S + (2 ^ 25 - (ratio25 S.r : Int)) := by
      unfold drift
      rw [hnext]
      push_cast
      exact add_one_mul _ _
    have hold : grainDelay (grainAdvance S) (!S.ng) = grainDelay S (!S.ng) + (2 ^ 25 - (ratio25 S.r : Int)) := by
      obtain ⟨hrlo, hrhi⟩ := ratio25_mem hforce.r
      rw [grainDelay_grainAdvance]
      exact emod_span_of_le hforce (by omega) (by omega)
    have hng : (grainAdvance S).ng = S.ng := rfl
    have hH : (grainAdvance S).H = S.H := rfl
    rw [grainsPlaced_of_running (by omega), hng, hold, hdrift, add_sub_add_right_eq_sub, hH]
    exact ⟨⟨hlo, hhi⟩, nominal_grainAdvance hforce hlt hnew⟩
  · exact grainsPlaced_grainAdvance_of_last hforce hlast hnew

/-- Settles O55: a half-grain places its new grain, and from placed grains each step is one of `Sounding` grains. -/
theorem placedGrainsStaySafe : Obligations.PlacedGrainsStaySafe := by
  intro fsMax p G hprep hwf
  have h := ranges_of_wf hprep hwf
  refine ⟨grainsPlaced_iterate_grainTurn h, fun hplaced => ?_⟩
  have hsound := sounding_grainStart h hplaced
  exact ⟨grainReadSafe_of_sounding hsound false, grainReadSafe_of_sounding hsound true,
    grainsPlaced_of_sounding hsound, fun _ => hplaced⟩

/-! ### The first half-grain -/

/-- A restart leaves both grains `2H·r` behind the write index, with no ratio requested but the one in force. -/
theorem freshGrains_grainRestart {G : GPSState} (hH : 4 ≤ G.H) (hfits : 4 * G.H < G.N) (hr : LegalRatio G.rSet) :
    freshGrains (grainRestart G) := by
  have hforce : InForce (grainRestart G) := ⟨hH, hfits, show 0 < G.H by omega, hr⟩
  have hdelay := delay_anchor (G := { G with r := G.rSet }) (show 0 < G.N by omega)
  have hnominal : nominalDelay (grainRestart G) 0 = 2 * (G.H : Int) * ratio25 G.rSet := by
    simp [nominalDelay, grainRestart]
  have hemod : (2 * (G.H : Int) * ratio25 G.rSet) % span G = nominalDelay (grainRestart G) 0 := by
    rw [← hnominal]
    exact nominalDelay_emod hforce (Nat.zero_le _)
  exact ⟨fun g => by cases g <;> exact hdelay.trans hemod, fun _ => rfl⟩

/-- The start of the first half-grain anchors its new grain where it already stands. -/
theorem nominal_grainStart_of_fresh {depth : Nat} {G : GPSState} (h : Ranges depth G) (hfresh : freshGrains G) (g : Bool) :
    grainDelay (grainStart G) g = nominalDelay (grainStart G) (grainStart G).k := by
  obtain ⟨hdelay, hratio⟩ := hfresh
  by_cases hk : G.k = 0
  · by_cases hg : g = (grainStart G).ng
    · rw [hg]
      exact nominal_grainStart_of_start h hk
    · have hr : (grainStart G).r = G.r := by rw [grainStart_r, if_pos hk, hratio hk]
      rw [Bool.eq_not_of_ne hg, grainDelay_grainStart_old, hdelay, nominalDelay, grainStart_k, grainStart_H, hr]
  · rw [grainStart_of_running hk]
    exact hdelay g

/-- Settles O60: both grains are where the counters say in every step, and the end of the half-grain places the new one. -/
theorem freshGrainsReadSafely : Obligations.FreshGrainsReadSafely := by
  refine ⟨fun G => freshGrains_grainRestart, fun fsMax p G hprep hwf hfresh => ?_⟩
  have h := ranges_of_wf hprep hwf
  have hforce := inForce_grainStart h
  have hnominal := nominal_grainStart_of_fresh h hfresh
  refine ⟨h.H_le, grainReadSafe_of_nominal hforce (hnominal false), grainReadSafe_of_nominal hforce (hnominal true),
    fun hk => ?_, fun hk => ?_, fun hk r => ⟨hfresh.1, fun h0 => absurd h0 hk⟩⟩
  · have hlt : (grainStart G).k + 1 < (grainStart G).H := by rwa [grainStart_k, grainStart_H]
    have hnext : (grainTurn G).k = (grainStart G).k + 1 := Nat.mod_eq_of_lt hlt
    exact ⟨fun g => nominal_grainAdvance hforce hlt (hnominal g), fun h0 => absurd h0 (by omega)⟩
  · exact grainsPlaced_grainAdvance_of_last hforce (by rwa [grainStart_k, grainStart_H]) (hnominal _)

/-! ### R208 as written -/

/-- The corner of R208 (log 18): the ratio 0.25, `GPS_PREPARE` at 17 Hz with grain length 0 (`N` = 17, `H` = 4), the ratio 2.0
and one step, on unit 0. -/
def cornerPackets : List Packet :=
  [encode (.gpsSetPitchRatio 0 0x3E800000#32), encode (.gpsPrepare 0 1 0x4031000000000000#64 0#32),
    encode (.gpsSetPitchRatio 0 0x40000000#32), encode (.gpsProcess 0 1 0#32 0#32)]

/-- Unit 0 after them: the old grain, anchored 2 slots behind the write index, has come 1 slot nearer. -/
def cornerUnit : GPSState where
  prepared := true
  fs := 17
  nch := 1
  N := 17
  H := 4
  w := 1
  k := 1
  rSet := 0x40000000#32
  r := 0x40000000#32
  ng := true
  rp := ⟨0, 3 * 2 ^ 25⟩
  mem := memClear

theorem run_cornerPackets : ∃ t, core.run cornerPackets.length
    { State.reset with inp := cornerPackets.map .command } = .next t ∧ t.gpss[0]? = some cornerUnit := by
  exact ⟨_, rfl, by decide +kernel⟩

theorem grainDelay_cornerUnit : grainDelay (grainStart cornerUnit) false = 2 ^ 25 := by
  simp [grainDelay, grainStart, grainPos, cornerUnit]

/-- Refutes O56: the next step would read the old grain at a delay of 1. -/
theorem not_grainReadsSafeAfterAnyCommands : ¬ Obligations.GrainReadsSafeAfterAnyCommands := by
  intro h
  obtain ⟨t, hrun, hunit⟩ := run_cornerPackets
  obtain ⟨-, hsafe, -⟩ := h cornerPackets t hrun cornerUnit (List.mem_of_getElem? hunit) rfl
  rw [grainReadSafe_iff, grainDelay_cornerUnit] at hsafe
  omega

end Sys2Proof.Granular
end

section
/-! PROOFS. The six kinds of unit under one interface (`10_state.md` R30): how the machine holds the units of a kind, and the
one shape that every command on a unit has, so that a rule about commands on units is proved once for all kinds. -/

namespace Sys2Proof.Banks

-- As in `Sys2Proof/Tests/Slice0.lean`: a proof that waits for an earlier kernel evaluation would hold a thread of its own.
set_option Elab.async false

open Sys2Proof.Machine Sys2Proof.Claims Sys2Proof.Encoding Sys2Proof.Prepare

/-! ### The units of a kind -/

/-- How the machine holds the units of one kind: their parameters, their records, the `prepared` bit of a record and the
update of one record. -/
structure Bank where
  P : Type
  R : Type
  params : Config → List P
  units : State → List R
  prepared : R → Bool
  put : Nat → R → State → State

/-- The bank of each kind. -/
def bank : Kind → Bank
  | .ramp => ⟨RampParams, RampUnit, Config.ramp, State.ramps, RampUnit.prepared, State.putRamp⟩
  | .dl => ⟨DLParams, DLState, Config.dl, State.dls, DLState.prepared, State.putDl⟩
  | .ap => ⟨APParams, APState, Config.ap, State.aps, APState.prepared, State.putAp⟩
  | .li => ⟨LIParams, LIState, Config.li, State.lis, LIState.prepared, State.putLi⟩
  | .lfo => ⟨LFOParams, LFOState, Config.lfo, State.lfos, LFOState.prepared, State.putLfo⟩
  | .gps => ⟨GPSParams, GPSState, Config.gps, State.gpss, GPSState.prepared, State.putGps⟩

/-- The parameters and the record of unit `u`. -/
def Bank.find (B : Bank) (u : Nat) (s : State) : Option (B.P × B.R) :=
  lookupUnit (B.params s.cfg) (B.units s) u

/-- A command on unit `u`; `needs` is the column P of `30_encoding.md` R97. -/
def Bank.run (B : Bank) (u : Nat) (needs : Bool) (cmd : B.P → B.R → Reply B.R) (s : State) :
    Host.Outcome State Fault Refusal :=
  runUnit (B.find u s) (fun r => needs && !B.prepared r) (B.put u) cmd s

/-- A command on a unit has the outcomes of `runUnit`. -/
theorem run_cases (B : Bank) (u : Nat) (needs : Bool) (cmd : B.P → B.R → Reply B.R) (s : State) :
    (B.find u s = none ∧ B.run u needs cmd s = .next (takeFault .badUnit s)) ∨
    (∃ p r, B.find u s = some (p, r) ∧ (needs && !B.prepared r) = true ∧
      B.run u needs cmd s = .next (takeFault .unprepared s)) ∨
    (∃ p r, B.find u s = some (p, r) ∧ (needs && !B.prepared r) = false ∧
      B.run u needs cmd s = .next (complete (cmd p r).r0 (cmd p r).r1 (B.put u (cmd p r).unit s))) :=
  runUnit_cases ..

theorem access_bank (k : Kind) (u : Nat) : Access ((bank k).find u) ((bank k).put u) := by
  cases k
  exacts [access_ramp u, access_dl u, access_ap u, access_li u, access_lfo u, access_gps u]

section Put
variable (k : Kind) (u : Nat) (r : (bank k).R) (s : State)

@[simp] theorem put_cfg : ((bank k).put u r s).cfg = s.cfg := (access_bank k u).put_cfg r s
@[simp] theorem put_err : ((bank k).put u r s).err = s.err := by cases k <;> rfl
@[simp] theorem put_inp : ((bank k).put u r s).inp = s.inp := by cases k <;> rfl
@[simp] theorem put_rspQ : ((bank k).put u r s).rspQ = s.rspQ := (access_bank k u).put_rspQ r s

@[simp] theorem units_put : (bank k).units ((bank k).put u r s) = ((bank k).units s).set u r := by cases k <;> rfl

theorem units_put_of_ne {k' : Kind} (h : k' ≠ k) : (bank k').units ((bank k).put u r s) = (bank k').units s := by
  cases k <;> cases k' <;> simp at h ⊢ <;> rfl

end Put

/-- The units are untouched by what touches only `ERR` and the ports. -/
theorem units_congr (k : Kind) (s : State) (err : Byte) (inp : List PortEvent) (rspQ : List Response) :
    (bank k).units { s with err := err, inp := inp, rspQ := rspQ } = (bank k).units s := by
  cases k <;> rfl

theorem instances_eq (c : Config) (k : Kind) : instances c k = ((bank k).params c).length := by cases k <;> rfl

theorem preparedBit_eq (s : State) (k : Kind) (u : Nat) :
    preparedBit s k u = ((bank k).units s)[u]?.map (bank k).prepared := by
  cases k <;> rfl

theorem sameMachine_of_units {s t : State} (hcfg : s.cfg = t.cfg) (herr : s.err = t.err)
    (hunits : ∀ k, (bank k).units s = (bank k).units t) : sameMachine s t :=
  ⟨hcfg, herr, hunits .ramp, hunits .dl, hunits .ap, hunits .li, hunits .lfo, hunits .gps⟩

theorem length_of_unitsWf {P R : Type} {good : P → R → Bool} {params : List P} {units : List R}
    (h : unitsWf good params units = true) : units.length = params.length := by
  rw [unitsWf, Bool.and_eq_true, beq_iff_eq] at h
  exact h.1.symm

/-- In a state that keeps the invariant there are as many records as parameters. -/
theorem length_units_of_inv {s : State} (h : s.inv = true) (k : Kind) :
    ((bank k).units s).length = ((bank k).params s.cfg).length := by
  obtain ⟨-, -, hramp, hdl, hap, hli, hlfo, hgps⟩ := State.inv_iff.1 h
  cases k
  exacts [length_of_unitsWf hramp, length_of_unitsWf hdl, length_of_unitsWf hap, length_of_unitsWf hli,
    length_of_unitsWf hlfo, length_of_unitsWf hgps]

/-! ### Finding a unit -/

section Find
variable {s : State} {k : Kind} {u : Nat}

theorem find_of_instances_le (h : instances s.cfg k ≤ u) : (bank k).find u s = none :=
  lookupUnit_none_of_le _ (instances_eq s.cfg k ▸ h)

theorem exists_find_of_inv (hinv : s.inv = true) (h : u < instances s.cfg k) :
    ∃ p r, (bank k).find u s = some (p, r) := by
  rw [instances_eq] at h
  exact ⟨_, _, lookupUnit_eq_some.2 ⟨List.getElem?_eq_getElem h,
    List.getElem?_eq_getElem ((length_units_of_inv hinv k).symm ▸ h)⟩⟩

theorem exists_find_of_preparedBit {b : Bool} (h : u < instances s.cfg k) (hb : preparedBit s k u = some b) :
    ∃ p r, (bank k).find u s = some (p, r) ∧ (bank k).prepared r = b := by
  rw [instances_eq] at h
  rw [preparedBit_eq, Option.map_eq_some_iff] at hb
  obtain ⟨r, hr, hbit⟩ := hb
  exact ⟨_, r, lookupUnit_eq_some.2 ⟨List.getElem?_eq_getElem h, hr⟩, hbit⟩

theorem preparedBit_of_find {p : (bank k).P} {r : (bank k).R} (h : (bank k).find u s = some (p, r)) :
    preparedBit s k u = some ((bank k).prepared r) := by
  obtain ⟨-, hr⟩ := lookupUnit_eq_some.1 h
  rw [preparedBit_eq, hr, Option.map_some]

end Find

/-! ### Commands on a unit -/

section Commands
variable {i : Instr} {k : Kind} {u : Nat}

/-- A command on a unit runs on the bank of its kind; its effect reads the parameters of the implementation and nothing
else of the state. -/
theorem exec_run (h : i.target = some (k, u)) : ∃ cmd : Config → (bank k).P → (bank k).R → Reply (bank k).R,
    ∀ s, exec i s = (bank k).run u i.needsPrepared (cmd s.cfg) s := by
  cases k
  exacts [exec_onRamp h, exec_onDl h, exec_onAp h, exec_onLi h, exec_onLfo h, exec_onGps h]

theorem grainStart_prepared (G : GPSState) : (grainStart G).prepared = G.prepared := by unfold grainStart; split <;> rfl

/-- No command clears the `prepared` bit of the record it works on (`60_exceptions.md` R227). -/
theorem exec_run_keeps_prepared (h : i.target = some (k, u)) (s : State) :
    ∃ cmd : (bank k).P → (bank k).R → Reply (bank k).R, exec i s = (bank k).run u i.needsPrepared cmd s ∧
      ∀ p r, (bank k).prepared r = true → (bank k).prepared (cmd p r).unit = true := by
  cases i <;> cases h <;> refine ⟨_, rfl, fun p r hr => ?_⟩
  case dlSetDelay | apSetDelayTime | lfoSetFreq | lfoSetDepth | lfoSetOffset =>
    dsimp only
    split <;> exact hr
  case rampPrepare | dlPrepare | apPrepare | liPrepare | lfoPrepare | gpsPrepare => rfl
  case gpsProcess => exact (grainStart_prepared _).trans hr
  all_goals exact hr

/-- Where the status of a response is a fault of `30_encoding.md` R101 steps 3 and 4, its condition held. -/
theorem exec_response (h : i.target = some (k, u)) {s t : State} (ht : exec i s = .next t) :
    ∃ r : Response, t.rspQ = s.rspQ ++ [r] ∧ (r.status = 0x03#8 → (bank k).find u s = none) ∧
      (r.status = 0x04#8 → i.needsPrepared = true ∧
        ∃ p x, (bank k).find u s = some (p, x) ∧ (bank k).prepared x = false) := by
  obtain ⟨cmd, hexec⟩ := exec_run h
  rw [hexec s] at ht
  obtain ⟨hfind, hrun⟩ | ⟨p, x, hfind, hblocked, hrun⟩ | ⟨p, x, -, -, hrun⟩ :=
      run_cases (bank k) u i.needsPrepared (cmd s.cfg) s <;>
    obtain rfl := Host.Outcome.next.inj (hrun.symm.trans ht)
  · exact ⟨_, rfl, fun _ => hfind, fun h4 => absurd h4 (by decide)⟩
  · rw [Bool.and_eq_true, Bool.not_eq_true'] at hblocked
    exact ⟨_, rfl, fun h3 => absurd h3 (by decide), fun _ => ⟨hblocked.1, p, x, hfind, hblocked.2⟩⟩
  · exact ⟨_, by rw [complete_rspQ, put_rspQ], by simp, by simp⟩

theorem exec_of_find_none (h : i.target = some (k, u)) {s : State} (hfind : (bank k).find u s = none) :
    exec i s = .next (takeFault .badUnit s) := by
  obtain ⟨cmd, hexec⟩ := exec_run h
  exact (hexec s).trans (runUnit_badUnit _ _ _ s hfind)

theorem exec_of_unprepared (h : i.target = some (k, u)) {s : State} (hneeds : i.needsPrepared = true) {p : (bank k).P}
    {r : (bank k).R} (hfind : (bank k).find u s = some (p, r)) (hr : (bank k).prepared r = false) :
    exec i s = .next (takeFault .unprepared s) := by
  obtain ⟨cmd, hexec⟩ := exec_run h
  rw [hexec s, Bank.run, hfind, runUnit, hneeds, hr]
  rfl

/-- A record put in place whose `prepared` bit stands where the old one's did leaves no such bit cleared. -/
theorem preparedBit_put {s : State} {p : (bank k).P} {r r' : (bank k).R} (hfind : (bank k).find u s = some (p, r))
    (hkeep : (bank k).prepared r = true → (bank k).prepared r' = true) {k' : Kind} {u' : Nat}
    (hbit : preparedBit s k' u' = some true) : preparedBit ((bank k).put u r' s) k' u' = some true := by
  by_cases hk : k' = k
  · subst hk
    by_cases hu : u' = u
    · subst hu
      have hold : (bank k').prepared r = true := Option.some.inj ((preparedBit_of_find hfind).symm.trans hbit)
      exact hkeep hold ▸ preparedBit_of_find ((access_bank k' u').find_put r' hfind)
    · rw [preparedBit_eq, units_put, List.getElem?_set_ne (Ne.symm hu), ← preparedBit_eq, hbit]
  · rw [preparedBit_eq, units_put_of_ne k u r' s hk, ← preparedBit_eq, hbit]

end Commands

/-- The prepared bits are untouched by what touches only `ERR` and the ports. -/
theorem preparedBit_congr (s : State) (k : Kind) (u : Nat) (err : Byte) (inp : List PortEvent) (rspQ : List Response) :
    preparedBit { s with err := err, inp := inp, rspQ := rspQ } k u = preparedBit s k u := by
  rw [preparedBit_eq, units_congr, ← preparedBit_eq]

/-- No command clears a `prepared` bit (`60_exceptions.md` R227). -/
theorem exec_keeps_preparedBit {i : Instr} {s t : State} (ht : exec i s = .next t) {k : Kind} {u : Nat}
    (hbit : preparedBit s k u = some true) : preparedBit t k u = some true := by
  match htarget : i.target with
  | none =>
    obtain rfl | rfl := eq_nop_or_eq_sysStatus htarget <;> cases ht <;> exact hbit
  | some (k', u') =>
    obtain ⟨cmd, hexec, hkeep⟩ := exec_run_keeps_prepared htarget s
    obtain ⟨f, rfl⟩ | ⟨p, r, hfind, -, rfl⟩ := runUnit_next (hexec.symm.trans ht)
    · exact (preparedBit_congr s k u _ _ _).trans hbit
    · exact (preparedBit_congr _ k u _ _ _).trans (preparedBit_put hfind (hkeep p r) hbit)

end Sys2Proof.Banks
end

section
/-! PROOFS. The faults (`60_exceptions.md` R221 to R227): which packets raise each, and that a fault changes nothing but its
`ERR` bit. -/

namespace Sys2Proof.Faults

-- As in `Sys2Proof/Tests/Slice0.lean`: a proof that waits for an earlier kernel evaluation would hold a thread of its own.
set_option Elab.async false

open Sys2Proof.Machine Sys2Proof.Claims Sys2Proof.Encoding Sys2Proof.System Sys2Proof.Banks

theorem takeFault_eq_faulted (f : FaultCode) (s : State) : takeFault f s = faulted (faultCode f) (errBit f) s := rfl

/-! ### The decoder's faults -/

/-- The list of R224 is the `op` column of the opcode map. -/
theorem legalOp_iff_mem : ∀ op : Byte, legalOp op.toNat ↔ op ∈ opTable.map OpRow.op := by
  unfold legalOp
  decide

/-- The masks of R225 are those of the rows' formats (`30_encoding.md` R93, R97). -/
theorem mbz_eq_reservedMask : ∀ r ∈ opTable, r.fmt.mbz = reservedMask r.op.toNat := by decide

theorem toNat_op (p : Packet) : p.op.toNat = p.word.toNat / 2 ^ 24 := by
  have := p.word.isLt
  rw [Packet.op, BitVec.extractLsb'_toNat, Nat.shiftRight_eq_div_pow]
  omega

theorem exists_opRow_of_legalOp {op : Byte} (h : legalOp op.toNat) : ∃ r, opRow op = some r := by
  obtain ⟨r, hmem, hop⟩ := List.mem_map.1 ((legalOp_iff_mem op).1 h)
  exact ⟨r, opRow_eq_some_iff.2 ⟨hmem, hop⟩⟩

theorem opRow_eq_none_of_not_legalOp {op : Byte} (h : ¬ legalOp op.toNat) : opRow op = none := by
  rw [Option.eq_none_iff_forall_ne_some]
  rintro r hr
  obtain ⟨hmem, rfl⟩ := opRow_eq_some_iff.1 hr
  exact h ((legalOp_iff_mem r.op).2 (List.mem_map_of_mem hmem))

section Decoder
variable {p : Packet}

theorem decode_of_not_legalOp (h : ¬ legalOp p.op.toNat) : decode p = .error .illegalOp := by
  rw [decode, opRow_eq_none_of_not_legalOp h]

/-- A packet with a legal opcode decodes unless a must-be-zero bit is 1 (`30_encoding.md` R101). -/
theorem decode_of_legalOp (h : legalOp p.op.toNat) : ∃ i, decode p =
    if p.word &&& reservedMask p.op.toNat = 0#32 then .ok i else .error .reservedField := by
  obtain ⟨r, hrow⟩ := exists_opRow_of_legalOp h
  obtain ⟨hmem, hop⟩ := opRow_eq_some_iff.1 hrow
  exact ⟨r.build p, by rw [decode, hrow, ← hop, ← mbz_eq_reservedMask r hmem]⟩

end Decoder

/-- Settles O7: the opcode map has a row for exactly the listed bytes. -/
theorem illegalOpIsReported : Obligations.IllegalOpIsReported := by
  intro s p rest hinp
  rw [← toNat_op]
  constructor
  · intro hillegal
    exact (step_command hinp).trans (acceptPacket_error (decode_of_not_legalOp hillegal) s)
  · intro hlegal
    obtain ⟨i, hdec⟩ := decode_of_legalOp hlegal
    rw [hdec]
    split <;> simp

/-- Settles O8: the masks are those of the row's format. -/
theorem reservedFieldIsReported : Obligations.ReservedFieldIsReported := by
  intro s p rest hinp hlegal
  rw [← toNat_op] at hlegal ⊢
  obtain ⟨i, hdec⟩ := decode_of_legalOp hlegal
  constructor
  · intro hmask
    rw [if_neg hmask] at hdec
    exact (step_command hinp).trans (acceptPacket_error hdec s)
  · intro hmask
    exact ⟨i, hdec.trans (if_pos hmask)⟩

/-! ### The faults of a command on a unit -/

/-- A system command completes. -/
theorem exec_system_response {i : Instr} (h : i.target = none) {s t : State} (ht : exec i s = .next t) :
    ∃ r0 r1, t.rspQ = s.rspQ ++ [⟨0x00#8, r0, r1⟩] := by
  obtain rfl | rfl := eq_nop_or_eq_sysStatus h <;> cases ht <;> exact ⟨_, _, rfl⟩

/-- Settles O9: a unit is found exactly below the count of its kind, in a state with a record for each set of parameters. -/
theorem badUnitIsReported : Obligations.BadUnitIsReported := by
  intro s p rest i hinp hdec
  rw [(step_command hinp).trans (acceptPacket_ok hdec s)]
  constructor
  · intro k u htarget hle
    exact exec_of_find_none htarget (find_of_instances_le hle)
  · intro hinv hexists t ht
    match htarget : i.target with
    | none =>
      obtain ⟨r0, r1, hrsp⟩ := exec_system_response htarget ht
      exact ⟨_, hrsp, by simp⟩
    | some (k, u) =>
      obtain ⟨_, _, hfind⟩ := exists_find_of_inv hinv (hexists k u htarget)
      obtain ⟨r, hrsp, hbad, -⟩ := exec_response htarget ht
      exact ⟨r, hrsp, fun h3 => by rw [hbad h3] at hfind; cases hfind⟩

/-- No step but a reset clears a `prepared` bit (`60_exceptions.md` R227). -/
theorem step_keeps_preparedBit {s t : State} (ht : step s = .next t) (hreset : s.inp.head? ≠ some .reset) {k : Kind}
    {u : Nat} (hbit : preparedBit s k u = some true) : preparedBit t k u = some true := by
  match hinp : s.inp with
  | [] =>
    obtain rfl := Host.Outcome.next.inj ((step_idle hinp).symm.trans ht)
    exact hbit
  | .command p :: _ =>
    rw [step_command hinp] at ht
    match hdec : decode p with
    | .ok i => exact exec_keeps_preparedBit ((acceptPacket_ok hdec s).symm.trans ht) hbit
    | .error f =>
      obtain rfl := Host.Outcome.next.inj ((acceptPacket_error hdec s).symm.trans ht)
      exact (preparedBit_congr s k u _ _ _).trans hbit
  | .deliver :: _ =>
    obtain rfl := Host.Outcome.next.inj ((step_deliver hinp).symm.trans ht)
    exact (preparedBit_congr s k u _ _ _).trans hbit
  | .reset :: _ => exact absurd (congrArg List.head? hinp) hreset

/-- Settles O10: the guard of a command reads the bit of the unit's record, and no command's effect clears it. -/
theorem unpreparedIsReported : Obligations.UnpreparedIsReported := by
  refine ⟨fun i s k u htarget hu => ⟨fun hneeds hbit => ?_, fun hready t ht => ?_⟩,
    fun s t k u ht hreset hbit => step_keeps_preparedBit ht hreset hbit⟩
  · obtain ⟨p, r, hfind, hr⟩ := exists_find_of_preparedBit hu hbit
    exact exec_of_unprepared htarget hneeds hfind hr
  · obtain ⟨r, hrsp, -, hunprepared⟩ := exec_response htarget ht
    refine ⟨r, hrsp, fun h4 => ?_⟩
    obtain ⟨hneeds, p, x, hfind, hx⟩ := hunprepared h4
    obtain hfree | hbit := hready
    · exact absurd hneeds (ne_true_of_eq_false hfree)
    · rw [preparedBit_of_find hfind, hx] at hbit
      cases hbit

/-! ### Faults are precise -/

/-- A packet is answered by a fault taken, or with status 0 (`60_exceptions.md` R221, R222). -/
theorem acceptPacket_next {p : Packet} {s t : State} (ht : acceptPacket p s = .next t) :
    (∃ f, t = takeFault f s) ∨ ∃ r0 r1, t.rspQ = s.rspQ ++ [⟨0x00#8, r0, r1⟩] := by
  match hdec : decode p with
  | .error f => exact .inl ⟨f, Host.Outcome.next.inj (ht.symm.trans (acceptPacket_error hdec s))⟩
  | .ok i =>
    rw [acceptPacket_ok hdec] at ht
    match htarget : i.target with
    | none => exact .inr (exec_system_response htarget ht)
    | some (k, u) =>
      obtain ⟨cmd, hexec⟩ := exec_run htarget
      obtain ⟨f, hf⟩ | ⟨p, r, -, -, rfl⟩ := runUnit_next ((hexec s).symm.trans ht)
      · exact .inl ⟨f, hf⟩
      · exact .inr ⟨_, _, by rw [complete_rspQ, put_rspQ]⟩

/-- Settles O11: a status other than 0 is that of a fault taken. -/
theorem faultsArePrecise : Obligations.FaultsArePrecise := by
  intro s t p rest r hinp ht hrsp hstatus
  rw [step_command hinp] at ht
  obtain ⟨f, rfl⟩ | ⟨r0, r1, hrsp'⟩ := acceptPacket_next ht
  · obtain rfl : (⟨faultCode f, 0#32, 0#32⟩ : Response) = r := by simpa using hrsp
    refine ⟨takeFault_eq_faulted f s, by cases f <;> decide, fun q hq => ?_⟩
    rw [step_command rfl, acceptPacket_ok hq, exec_nop]
    simp [complete, takeFault, State.answer, hinp]
  · obtain rfl : (⟨0x00#8, r0, r1⟩ : Response) = r := by simpa using hrsp'.symm.trans hrsp
    exact absurd rfl hstatus

end Sys2Proof.Faults
end

section
/-! PROOFS. Commands to different units (`70_reset_and_hazards.md` R253): a command's effect is computed from the parameters and
its own unit, and effects on two units commute. -/

namespace Sys2Proof.Hazards

-- As in `Sys2Proof/Tests/Slice0.lean`: a proof that waits for an earlier kernel evaluation would hold a thread of its own.
set_option Elab.async false

open Sys2Proof.Machine Sys2Proof.Claims Sys2Proof.Banks

/-- What a command on a unit does to the machine: the record it leaves, none where it faults, the `ERR` bits it raises and
its response. -/
structure Effect (R : Type) where
  record : Option R
  raised : Byte
  rsp : Response

/-- The effect of a fault. -/
def faultEffect {R : Type} (f : FaultCode) : Effect R := ⟨none, errBit f, ⟨faultCode f, 0#32, 0#32⟩⟩

/-- The effect of a command on the unit found (`30_encoding.md` R101, steps 3 to 5). -/
def effectOn (B : Bank) (needs : Bool) (cmd : B.P → B.R → Reply B.R) : Option (B.P × B.R) → Effect B.R
  | none => faultEffect .badUnit
  | some (p, r) =>
    if needs && !B.prepared r then faultEffect .unprepared
    else ⟨some (cmd p r).unit, 0#8, ⟨0x00#8, (cmd p r).r0, (cmd p r).r1⟩⟩

/-- `s` with the record of unit `u`, if there is a new one, put in place. -/
def putRecord (B : Bank) (u : Nat) (record : Option B.R) (s : State) : State :=
  record.elim s fun r => B.put u r s

/-- The state that an effect on unit `u` leaves: the packet is taken and the response added. -/
def applied (B : Bank) (u : Nat) (e : Effect B.R) (s : State) : State :=
  { putRecord B u e.record s with err := s.err ||| e.raised, inp := s.inp.tail, rspQ := s.rspQ ++ [e.rsp] }

theorem run_eq_applied (k : Kind) (u : Nat) (needs : Bool) (cmd : (bank k).P → (bank k).R → Reply (bank k).R) (s : State) :
    (bank k).run u needs cmd s = .next (applied (bank k) u (effectOn (bank k) needs cmd ((bank k).find u s)) s) := by
  obtain ⟨hfind, hrun⟩ | ⟨p, r, hfind, hblocked, hrun⟩ | ⟨p, r, hfind, hblocked, hrun⟩ :=
      run_cases (bank k) u needs cmd s <;>
    rw [hrun, hfind, effectOn]
  · rfl
  · rw [if_pos hblocked]
    rfl
  · rw [if_neg (ne_true_of_eq_false hblocked)]
    simp [applied, putRecord, complete, State.answer]

/-- Every command on a unit has its effect, which depends on the parameters and the unit alone. -/
theorem exec_eq_applied {i : Instr} {k : Kind} {u : Nat} (h : i.target = some (k, u)) :
    ∃ effect : Config → Option ((bank k).P × (bank k).R) → Effect (bank k).R,
      ∀ s, exec i s = .next (applied (bank k) u (effect s.cfg ((bank k).find u s)) s) := by
  obtain ⟨cmd, hexec⟩ := exec_run h
  exact ⟨fun c => effectOn (bank k) i.needsPrepared (cmd c), fun s => (hexec s).trans (run_eq_applied k u _ _ s)⟩

section Applied
variable (k : Kind) (u : Nat) (e : Effect (bank k).R) (s : State)

@[simp] theorem applied_err : (applied (bank k) u e s).err = s.err ||| e.raised := rfl
@[simp] theorem applied_inp : (applied (bank k) u e s).inp = s.inp.tail := rfl
@[simp] theorem applied_rspQ : (applied (bank k) u e s).rspQ = s.rspQ ++ [e.rsp] := rfl

@[simp] theorem applied_cfg : (applied (bank k) u e s).cfg = s.cfg := by
  change (putRecord (bank k) u e.record s).cfg = s.cfg
  cases e.record
  · rfl
  · exact put_cfg ..

/-- The records of the unit's own kind. -/
theorem units_applied : (bank k).units (applied (bank k) u e s) =
    e.record.elim ((bank k).units s) (((bank k).units s).set u) := by
  rw [applied, units_congr]
  cases e.record
  · rfl
  · exact units_put ..

/-- The records of every other kind. -/
theorem units_applied_of_ne {k' : Kind} (h : k' ≠ k) :
    (bank k').units (applied (bank k) u e s) = (bank k').units s := by
  rw [applied, units_congr]
  cases e.record
  · rfl
  · exact units_put_of_ne k u _ s h

/-- A command finds its unit as it was before a command to another unit. -/
theorem find_applied_of_ne {k' : Kind} {u' : Nat} (h : (k, u) ≠ (k', u')) :
    (bank k').find u' (applied (bank k) u e s) = (bank k').find u' s := by
  have hunit : ((bank k').units (applied (bank k) u e s))[u']? = ((bank k').units s)[u']? := by
    by_cases hk : k' = k
    · subst hk
      have hu : u ≠ u' := fun hu => h (congrArg (k', ·) hu)
      rw [units_applied]
      cases e.record
      · rfl
      · exact List.getElem?_set_ne hu
    · rw [units_applied_of_ne k u e s hk]
  rw [Bank.find, Bank.find, applied_cfg, lookupUnit, lookupUnit, hunit]

end Applied

/-- Effects on different units leave the same records in either order. -/
theorem units_applied_comm {k k' : Kind} {u u' : Nat} (h : (k, u) ≠ (k', u')) (e : Effect (bank k).R)
    (e' : Effect (bank k').R) (s : State) (j : Kind) :
    (bank j).units (applied (bank k') u' e' (applied (bank k) u e s)) =
      (bank j).units (applied (bank k) u e (applied (bank k') u' e' s)) := by
  by_cases hk : j = k
  · subst hk
    by_cases hk' : j = k'
    · subst hk'
      have hu : u ≠ u' := fun hu => h (congrArg (j, ·) hu)
      simp only [units_applied]
      cases e.record <;> cases e'.record <;> simp [List.set_comm _ _ hu]
    · rw [units_applied_of_ne k' u' e' _ hk', units_applied, units_applied, units_applied_of_ne k' u' e' _ hk']
  · by_cases hk' : j = k'
    · subst hk'
      rw [units_applied_of_ne k u e _ hk, units_applied, units_applied, units_applied_of_ne k u e _ hk]
    · rw [units_applied_of_ne k' u' e' _ hk', units_applied_of_ne k u e _ hk, units_applied_of_ne k u e _ hk,
        units_applied_of_ne k' u' e' _ hk']

/-- Settles O58: each command has the same effect in both orders, and effects on different units commute. -/
theorem commandsToDifferentUnitsCommute : Obligations.CommandsToDifferentUnitsCommute := by
  rintro i j s a b c d ⟨k, u⟩ ⟨k', u'⟩ hi hj hne ha hb hc hd
  obtain ⟨ei, hexeci⟩ := exec_eq_applied hi
  obtain ⟨ej, hexecj⟩ := exec_eq_applied hj
  obtain rfl := Host.Outcome.next.inj ((hexeci s).symm.trans ha)
  obtain rfl := Host.Outcome.next.inj ((hexecj s).symm.trans hc)
  obtain rfl := Host.Outcome.next.inj ((hexecj _).symm.trans hb)
  obtain rfl := Host.Outcome.next.inj ((hexeci _).symm.trans hd)
  rw [applied_cfg, applied_cfg, find_applied_of_ne k u _ s hne, find_applied_of_ne k' u' _ s hne.symm]
  generalize ei s.cfg ((bank k).find u s) = e
  generalize ej s.cfg ((bank k').find u' s) = e'
  refine ⟨sameMachine_of_units (by simp) ?_ (units_applied_comm hne e e' s), by simp, e.rsp, e'.rsp, by simp, by simp⟩
  simp only [applied_err, BitVec.or_assoc, BitVec.or_comm e.raised]

end Sys2Proof.Hazards
end
